-- ==== Sys2Proof/Word.lean ====
section
/-! DEFINITION. The words of VP8-IPB: a byte of MEM, WS or a probability, and a 32-bit command word, CSR or MEM address
(spec/00_scope.md R14; spec/10_state.md R22). -/

namespace Sys2Proof

/-- A byte: a sample, a bitstream byte or an 8-bit probability (R14). -/
abbrev Byte := BitVec 8

/-- A 32-bit word: a command (R80), a CSR (R22) or a MEM address (R14). -/
abbrev Word := BitVec 32

end Sys2Proof
end

