-- ==== Sys2Proof/Config.lean ====
section
/-! DEFINITION. What an implementation fixes, the parameters of spec/00_scope.md R6 to R13, and the free values: the
bytes and register values the spec leaves unspecified. The parameters are a field of State that no step changes (log
entry 9); their default values stand in Machine/Tables.lean. -/

namespace Sys2Proof

/-- The identity string of the block (R1, decision D42). -/
def identity : String := "VP8-IPB/AZI-v7"

/-- MV_SCALE, domain 1, 2, 4 (R6). -/
inductive MvScale where
  | one | two | four
  deriving DecidableEq, Repr

/-- MV_LONG_ORDER (R7). -/
inductive MvLongOrder where
  | doc | rfc
  deriving DecidableEq, Repr

/-- BD_TAIL (R8). -/
inductive BdTail where
  | fault | zeroFill
  deriving DecidableEq, Repr

/-- LUMA_ROUNDING (R9). -/
inductive LumaRounding where
  | doc | rfcTwoPass
  deriving DecidableEq, Repr

/-- CHROMA_EDGE (R11). -/
inductive ChromaEdge where
  | ceilHalf | floorHalf
  deriving DecidableEq, Repr

/-- CHROMA_FASTPATH (R12). -/
inductive ChromaFastpath where
  | exact | lumaGated
  deriving DecidableEq, Repr

/-- A 2 x 19 table of probabilities: `y` is component 0 (vertical, MVP0), `x` component 1 (horizontal, MVP1)
(R38, R131). The type of the MVP file and of the tables MVP_DEFAULT and MVP_UPD_PROB (R13). -/
structure MvpFile where
  y : Vector Byte 19
  x : Vector Byte 19
  deriving DecidableEq, Repr

/-- The parameters of the block, R6 to R13. -/
structure Config where
  mvScale : MvScale
  mvLongOrder : MvLongOrder
  bdTail : BdTail
  lumaRounding : LumaRounding
  /-- TEMP_WRAP16 (R10). -/
  tempWrap16 : Bool
  chromaEdge : ChromaEdge
  chromaFastpath : ChromaFastpath
  mvpDefault : MvpFile
  mvpUpdProb : MvpFile
  deriving DecidableEq, Repr

/-- Free value: the byte at a MEM address the host has never written, "a draw, fixed once drawn" (R60 (a), I3, D41; log
entry 4). -/
opaque Config.freeMemByte : Nat → Byte

/-- Free value: the byte of WS at an index not written since the reset that made the given draw (R44, R230, I1; log
entry 5). -/
opaque Config.freeWsByte : Nat → Nat → Byte

/-- Free value: BD_VALUE after a TRUNCATED or BAD_STREAM fault, by draw (R210, I2; log entry 6). -/
opaque Config.freeBdValue : Nat → BitVec 16

/-- Free value: BD_RANGE after such a fault (R210, I2; log entry 6). -/
opaque Config.freeBdRange : Nat → BitVec 8

/-- Free value: BD_COUNT after such a fault (R210, I2; log entry 6). -/
opaque Config.freeBdCount : Nat → BitVec 3

/-- Free value: BD_POS after such a fault (R210, I2; log entry 6). -/
opaque Config.freeBdPos : Nat → Word

/-- Free value: BD_END after such a fault (R210, I2; log entry 6). -/
opaque Config.freeBdEnd : Nat → Word

end Sys2Proof
end

