-- ==== Sys2Proof/Syntax.lean ====
section
/-! DEFINITION. The commands of VP8-IPB: one constructor per row of spec/opcode_table.json (spec/30_encoding.md R86),
with the operand fields of its format (R82 to R85). -/

namespace Sys2Proof

/-- The component operand (R84, R131): 0 is vertical (Y), 1 is horizontal (X). -/
inductive Comp where
  | y | x
  deriving DecidableEq, Repr

/-- The reference-frame tag, "(values 0..3)" (R85). INTRA is a field value that R88 refuses. -/
inductive RefTag where
  | intra | last | golden | altref
  deriving DecidableEq, Repr

/-- A command of VP8-IPB (R86). -/
inductive Instr where
  /-- NOP (R180). -/
  | nop
  /-- BD_INIT (R102). -/
  | bdInit
  /-- BD_READ_BIT (R105): prob is any value 0..255. -/
  | bdReadBit (prob : Byte)
  /-- BD_READ_UINT (R106): the 6-bit field n, of which R88 allows 0..32. -/
  | bdReadUint (prob : Byte) (n : BitVec 6)
  /-- MVP_LOAD_DEFAULT (R127). -/
  | mvpLoadDefault
  /-- MVP_UPDATE (R128). -/
  | mvpUpdate
  /-- MV_READ_COMPONENT (R129). -/
  | mvReadComponent (comp : Comp)
  /-- MV_READ (R130). -/
  | mvRead
  /-- MC_PREDICT (R152). -/
  | mcPredict (ref : RefTag)
  /-- MC_PREDICT_SPLIT (R154). -/
  | mcPredictSplit (ref : RefTag)
  deriving DecidableEq, Repr

/-- Pseudo-instruction `bd.lit N` = `bd.uint 128, N` (R92). -/
def Instr.bdLit (n : BitVec 6) : Instr := .bdReadUint 128 n

/-- Pseudo-instruction `bd.flag` = `bd.bit 128` (R92). -/
def Instr.bdFlag : Instr := .bdReadBit 128

end Sys2Proof
end

