-- ==== Sys2Proof/WellFormed.lean ====
section
/-! DEFINITION. Well-formed commands: the operand-value checks of spec/30_encoding.md R88, as a check on syntax. A command
that fails it is still decoded (R86: a word is the command of a row iff its fixed bits match) and its meaning raises
ILLEGAL_OPERAND (log entry 8). -/

namespace Sys2Proof

/-- R88: n at most 32 for BD_READ_UINT, a tag other than INTRA for the MC commands; every other field value is legal. -/
def Instr.wf : Instr → Bool
  | .nop => true
  | .bdInit => true
  | .bdReadBit _ => true
  | .bdReadUint _ n => decide (n.toNat ≤ 32)
  | .mvpLoadDefault => true
  | .mvpUpdate => true
  | .mvReadComponent _ => true
  | .mvRead => true
  | .mcPredict ref => decide (ref ≠ .intra)
  | .mcPredictSplit ref => decide (ref ≠ .intra)

end Sys2Proof
end

