-- ==== Sys2Proof/Decode.lean ====
section
/-! DEFINITION. The decoder of 32-bit command words (spec/30_encoding.md R80 to R89), total and rejecting by name, and
after it the encoder, written from the same formats. -/

namespace Sys2Proof

/-- Bits 31:24, the opcode (R81). -/
def opcodeField (w : Word) : Byte := w.extractLsb' 24 8

/-- `prob = w[7:0]` (R83). -/
def probField (w : Word) : Byte := w.extractLsb' 0 8

/-- `n = w[13:8]` (R83). -/
def nField (w : Word) : BitVec 6 := w.extractLsb' 8 6

/-- `comp = w[0]` (R84). -/
def compField (w : Word) : Comp := if w.getLsbD 0 then .x else .y

/-- `ref = w[1:0]`: 0 INTRA, 1 LAST, 2 GOLDEN, 3 ALTREF (R85). -/
def refField (w : Word) : RefTag :=
  match w.getLsbD 1, w.getLsbD 0 with
  | false, false => .intra
  | false, true => .last
  | true, false => .golden
  | true, true => .altref

/-- A row of the opcode map (R86) and the command its words stand for. -/
structure OpcodeRow where
  op : Byte
  matchBits : Word
  mask : Word
  make : Word → Instr

/-- The opcode map (R86). -/
def opcodeMap : List OpcodeRow :=
  [ ⟨0x00, 0x00000000, 0xFFFFFFFF, fun _ => .nop⟩,
    ⟨0x01, 0x01000000, 0xFFFFFFFF, fun _ => .bdInit⟩,
    ⟨0x02, 0x02000000, 0xFFFFFF00, fun w => .bdReadBit (probField w)⟩,
    ⟨0x03, 0x03000000, 0xFFFFC000, fun w => .bdReadUint (probField w) (nField w)⟩,
    ⟨0x10, 0x10000000, 0xFFFFFFFF, fun _ => .mvpLoadDefault⟩,
    ⟨0x11, 0x11000000, 0xFFFFFFFF, fun _ => .mvpUpdate⟩,
    ⟨0x12, 0x12000000, 0xFFFFFFFE, fun w => .mvReadComponent (compField w)⟩,
    ⟨0x13, 0x13000000, 0xFFFFFFFF, fun _ => .mvRead⟩,
    ⟨0x20, 0x20000000, 0xFFFFFFFC, fun w => .mcPredict (refField w)⟩,
    ⟨0x21, 0x21000000, 0xFFFFFFFC, fun w => .mcPredictSplit (refField w)⟩ ]

/-- What a command word decodes to: a command, or one of the two rejections of R87. -/
inductive Decoded where
  | instr (i : Instr)
  | illegalOpcode
  | illegalOperand
  deriving DecidableEq, Repr

/-- The decode procedure of R87: an unassigned opcode is ILLEGAL_OPCODE; an assigned one with a must-be-zero bit set is
ILLEGAL_OPERAND; else the row's command. R87's formula for the second test selects the operand bits; the model follows
its comment, R82 to R86 and the vectors, and tests the fixed bits (DEDUCED, log entry 7). The operand values of R88 are
checked by the command's meaning (log entry 8). -/
def decode (w : Word) : Decoded :=
  match opcodeMap.find? (fun r => r.op == opcodeField w) with
  | none => .illegalOpcode
  | some r => if w &&& r.mask = r.matchBits then .instr (r.make w) else .illegalOperand

/-- The two bits of a tag (R85). -/
def RefTag.bits : RefTag → BitVec 2
  | .intra => 0
  | .last => 1
  | .golden => 2
  | .altref => 3

/-- The bit of a component (R84). -/
def Comp.bits : Comp → BitVec 1
  | .y => 0
  | .x => 1

/-- The command word of a command (R82 to R86). -/
def encode : Instr → Word
  | .nop => 0x00000000
  | .bdInit => 0x01000000
  | .bdReadBit prob => 0x02#8 ++ 0#16 ++ prob
  | .bdReadUint prob n => 0x03#8 ++ 0#10 ++ n ++ prob
  | .mvpLoadDefault => 0x10000000
  | .mvpUpdate => 0x11000000
  | .mvReadComponent comp => 0x12#8 ++ 0#23 ++ comp.bits
  | .mvRead => 0x13000000
  | .mcPredict ref => 0x20#8 ++ 0#22 ++ ref.bits
  | .mcPredictSplit ref => 0x21#8 ++ 0#22 ++ ref.bits

/-- The command the decoder reads from the low `nbits` bits `w` of a command word, the bits above zero; none where it
rejects the word. -/
def decodeTableWord (nbits w : Nat) : Option Instr :=
  match decode (BitVec.ofNat 32 (w % 2 ^ nbits)) with
  | .instr i => some i
  | .illegalOpcode => none
  | .illegalOperand => none

end Sys2Proof
end

