-- ==== Sys2Proof/Machine/Tables.lean ====
section
/-! DEFINITION. The constant tables: the default probabilities and update probabilities (spec/41_mv_decoder.md R121,
R122), the filter tables (spec/42_motion_comp.md R140, R141) and the default parameters (spec/00_scope.md R6 to R13). -/

namespace Sys2Proof.Machine

/-- `MVP_DEFAULT[c][j]` (R121), from general knowledge by the spec's own mark (log entry 16). -/
def mvpDefaultTable : MvpFile where
  y := #v[162, 128, 225, 146, 172, 147, 214, 39, 156, 128, 129, 132, 75, 145, 178, 206, 239, 254, 254]
  x := #v[164, 128, 204, 170, 119, 235, 140, 230, 228, 128, 130, 130, 74, 148, 180, 203, 236, 254, 254]

/-- `MVP_UPD_PROB[c][j]` (R122), from general knowledge by the spec's own mark (log entry 16). -/
def mvpUpdProbTable : MvpFile where
  y := #v[237, 246, 253, 253, 254, 254, 254, 254, 254, 254, 254, 254, 254, 254, 250, 250, 252, 254, 254]
  x := #v[231, 243, 245, 253, 254, 254, 254, 254, 254, 254, 254, 254, 254, 254, 251, 251, 254, 254, 254]

/-- Every parameter at its default (R6 to R13). -/
def defaultConfig : Config where
  mvScale := .four
  mvLongOrder := .doc
  bdTail := .fault
  lumaRounding := .doc
  tempWrap16 := false
  chromaEdge := .ceilHalf
  chromaFastpath := .exact
  mvpDefault := mvpDefaultTable
  mvpUpdProb := mvpUpdProbTable

/-- The 6-tap filter table `F6` (R140), row by row. -/
def f6Table : List (List Int) :=
  [ [0, 0, 128, 0, 0, 0],
    [0, -6, 123, 12, -1, 0],
    [2, -11, 108, 36, -8, 1],
    [0, -9, 93, 50, -6, 0],
    [3, -16, 77, 77, -16, 3],
    [0, -6, 50, 93, -9, 0],
    [1, -8, 36, 108, -11, 2],
    [0, -1, 12, 123, -6, 0] ]

/-- `F6[k][t]`, k = 0..7, t = 0..5 (R140). -/
def f6 (k t : Nat) : Int := (f6Table.getD k []).getD t 0

/-- `BIL[k].0 = 128 - 16k` (R141). -/
def bil0 (k : Int) : Int := 128 - 16 * k

/-- `BIL[k].1 = 16k` (R141). -/
def bil1 (k : Int) : Int := 16 * k

end Sys2Proof.Machine
end

