-- ==== Sys2Proof/Machine/State.lean ====
section
/-! DEFINITION. The state of VP8-IPB as plain data (spec/10_state.md R20 to R47), the reasons to stop, and the state after
reset (spec/70_reset_and_hazards.md R230). -/

namespace Sys2Proof.Machine

/-- A sparse store of bytes: the (index, byte) pairs that have been written, indices strictly rising. It holds MEM
(spec/20_memory.md R60) and WS (R44). An index that is not listed has no value in the store: what it reads as is a free
value (`State.memByte`, `State.wsByte`; log entries 4 and 5). -/
abbrev Memory := List Host.Cell

/-- The fault causes (spec/60_exceptions.md R201). -/
inductive Cause where
  /-- code 1, R202 -/
  | truncated
  /-- code 2, R203 -/
  | badStream
  /-- code 3, R204 -/
  | illegalOpcode
  /-- code 4, R205 -/
  | illegalOperand
  /-- code 5, R206 -/
  | bdNotReady
  /-- code 6, R207 -/
  | badRefDesc
  deriving DecidableEq, Repr

/-- The tags that name a reference frame, t = 1, 2, 3 (R39). -/
inductive FrameTag where
  | last | golden | altref
  deriving DecidableEq, Repr

/-- One reference-frame descriptor (R39 to R42). -/
structure RefDesc where
  /-- REF_CTRL.VALID (R39). -/
  valid : Bool
  /-- REF_SIZE[15:0] (R40). -/
  w : BitVec 16
  /-- REF_SIZE[31:16] (R40). -/
  h : BitVec 16
  yBase : Word
  yStride : Word
  cbBase : Word
  crBase : Word
  cStride : Word
  deriving DecidableEq, Repr

/-- The three descriptors (R39). -/
structure RefFile where
  last : RefDesc
  golden : RefDesc
  altref : RefDesc
  deriving DecidableEq, Repr

/-- The five Boolean-decoder registers (R32 to R36). -/
structure BdRegs where
  /-- BD_VALUE (R32). -/
  value : BitVec 16
  /-- BD_RANGE (R33). -/
  range : BitVec 8
  /-- BD_COUNT (R34). -/
  count : BitVec 3
  /-- BD_POS (R35). -/
  pos : Word
  /-- BD_END (R36). -/
  endAddr : Word
  deriving DecidableEq, Repr

/-- An action of the host (R224), the directives of R93 among them. `csrOtherWidth` is a CSR access of another width than
32 bits, which a model refuses (R67, I8). -/
inductive HostAction where
  | csrRead (addr : Byte)
  | csrWrite (addr : Byte) (v : Word)
  | csrOtherWidth (addr : Byte) (bits : Nat)
  | cmd (w : Word)
  | wsRead (row : Fin 26) (col : Fin 32)
  | wsWrite (row : Fin 26) (col : Fin 32) (v : Word)
  | memRead (addr : Word)
  | memWrite (addr : Word) (v : Byte)
  | reset
  deriving DecidableEq, Repr

/-- The state: everything R20 names, MEM (R60), the parameters, and the model's own fields `draws`, `wsDraw`, `pending`
and `hostRead`. -/
structure State where
  /-- The parameters R6 to R13, which no step changes (log entry 9). -/
  config : Config
  /-- MEM: the bytes the host has written (R60 (a)). -/
  mem : Memory
  /-- WS: the bytes written since the last reset, at index `row * 32 + col` (R44). -/
  ws : Memory
  /-- The model's own: the draw WS's unwritten bytes come from (log entry 5). -/
  wsDraw : Nat
  /-- The model's own: the number of the next draw of free values (log entries 5 and 6). -/
  draws : Nat
  /-- STATUS.FAULT and STATUS.CAUSE in one (R23): FAULT = 1 iff a cause is held (log entry 12). -/
  cause : Option Cause
  /-- STATUS.BD_READY (R23). -/
  bdReady : Bool
  /-- FAULT_CMD (R24). -/
  faultCmd : Word
  /-- RESULT (R25). -/
  result : Word
  /-- MISSREF (R26). -/
  missref : Word
  /-- MB_POS (R27). -/
  mbPos : Word
  /-- MBMV (R28). -/
  mbmv : Word
  /-- SUBMV[0..15] (R29). -/
  submv : Vector Word 16
  /-- BD_SRC_BASE (R30). -/
  bdSrcBase : Word
  /-- BD_SRC_LEN[23:0] (R31). -/
  bdSrcLen : BitVec 24
  /-- BD_VALUE, BD_RANGE, BD_COUNT, BD_POS, BD_END (R32 to R36). -/
  bd : BdRegs
  /-- MVP0 and MVP1 (R38). -/
  mvp : MvpFile
  /-- The reference-frame descriptors (R39 to R42). -/
  refs : RefFile
  /-- The model's own: the host's actions not yet taken, the next one first (log entry 1). -/
  pending : List HostAction
  /-- The model's own: the value the host's latest read returned (log entry 10). -/
  hostRead : Option Word
  deriving DecidableEq, Repr

/-- Why the machine stops with a fault. The faults of the spec are states, not stops (R209, R211). -/
inductive Fault where
  /-- Raised by a Boolean-decoder read whose normalisation (R103) would never end, because BD_RANGE became 0. R107 and R108
  rule it out in every state a run reaches. Safe (log entry 13). -/
  | normaliseDiverges
  deriving DecidableEq, Repr

/-- Why a step has no meaning. -/
inductive Refusal where
  /-- Raised by a command that has no meaning yet, by its mnemonic; no arm of this model raises it. Safe. -/
  | notModelled (mnemonic : String)
  /-- Raised by a host access to the CSR space of another width than 32 bits, which "is not supported and a model refuses
  it" (R67, I8). Safe (log entry 11). -/
  | csrAccessWidth
  deriving DecidableEq, Repr

/-- A descriptor after reset: every register 0, VALID = 0 (R39 to R42, R230). -/
def RefDesc.zero : RefDesc := ⟨false, 0, 0, 0, 0, 0, 0, 0⟩

/-- The Boolean-decoder registers after reset, all 0 (R230). -/
def BdRegs.zero : BdRegs := ⟨0, 0, 0, 0, 0⟩

/-- The machine right after reset (R230, Table 2), with the default parameters: no byte of MEM or WS written. WS's bytes
are those of draw 0 (log entry 5). -/
def State.reset : State where
  config := defaultConfig
  mem := []
  ws := []
  wsDraw := 0
  draws := 1
  cause := none
  bdReady := false
  faultCmd := 0
  result := 0
  missref := 0
  mbPos := 0
  mbmv := 0
  submv := Vector.replicate 16 0
  bdSrcBase := 0
  bdSrcLen := 0
  bd := BdRegs.zero
  mvp := defaultConfig.mvpDefault
  refs := ⟨RefDesc.zero, RefDesc.zero, RefDesc.zero⟩
  pending := []
  hostRead := none

end Sys2Proof.Machine
end

