-- ==== Sys2Proof/Machine/Ops.lean ====
section
/-! DEFINITION. The named operations over memory and registers: reading and writing MEM and WS bytes, raising a fault
(spec/60_exceptions.md R209, R210) and the fault clear beside it (R212), reset (spec/70_reset_and_hazards.md R230), and the
register updates the commands share. -/

namespace Sys2Proof.Machine

/-! ### Byte stores -/

/-- The byte written at index `a`, if any. -/
def Memory.read : Memory → Nat → Option Byte
  | [], _ => none
  | (k, v) :: m, a => if k = a then some v else Memory.read m a

/-- Write the byte `v` at index `a`, keeping the indices strictly rising. -/
def Memory.write : Memory → Nat → Byte → Memory
  | [], a, v => [(a, v)]
  | (k, u) :: m, a, v =>
    if a < k then (a, v) :: (k, u) :: m
    else if a = k then (a, v) :: m
    else (k, u) :: Memory.write m a v

/-- Write a list of cells, the first first. -/
def Memory.writeAll (m : Memory) (cells : List Host.Cell) : Memory :=
  cells.foldl (fun m c => Memory.write m c.1 c.2) m

/-- The canonical form: indices strictly rising and below the size of the space. (No entry can equal what an unlisted index
reads as: that is no value.) -/
abbrev Memory.wf (size : Nat) (m : Memory) : Prop :=
  m.Pairwise (fun c d => c.1 < d.1) ∧ ∀ c ∈ m, c.1 < size

/-- The number of bytes of MEM (R60 (a)). -/
abbrev memSize : Nat := 2 ^ 32

/-- The number of bytes of WS, 26 x 32 (R44). -/
abbrev wsSize : Nat := 832

/-- `MemRead(addr, 1)` (R61): the byte of MEM at `a`, a free value where the host has written none (R60 (a)). -/
def State.memByte (s : State) (a : Nat) : Byte := (s.mem.read a).getD (Config.freeMemByte a)

/-- The byte index `row * 32 + col` of `WS[row][col]` (R44). -/
def wsIndex (row col : Nat) : Nat := row * 32 + col

/-- The byte of WS at an index, a free value where none has been written since the last reset (R44). -/
def State.wsByte (s : State) (k : Nat) : Byte := (s.ws.read k).getD (Config.freeWsByte s.wsDraw k)

/-! ### Fault entry, clear and reset -/

/-- The Boolean-decoder registers with any value in their field widths: draw number `d` (R210; log entry 6). -/
def BdRegs.unspecified (d : Nat) : BdRegs :=
  ⟨Config.freeBdValue d, Config.freeBdRange d, Config.freeBdCount d, Config.freeBdPos d, Config.freeBdEnd d⟩

/-- The decoder is no longer bound: BD_READY := 0 and the five registers unspecified (R210). -/
def State.unbind (s : State) : State :=
  { s with bdReady := false, bd := BdRegs.unspecified s.draws, draws := s.draws + 1 }

/-- The side effects of a cause besides the fault record (R210): TRUNCATED and BAD_STREAM unbind the decoder. -/
def State.sideEffects (c : Cause) (s : State) : State :=
  match c with
  | .truncated => s.unbind
  | .badStream => s.unbind
  | .illegalOpcode => s
  | .illegalOperand => s
  | .bdNotReady => s
  | .badRefDesc => s

/-- `raise C(w)` (R209): FAULT := 1, CAUSE := C, FAULT_CMD := w, then the side effects of R210. -/
def State.raise (c : Cause) (w : Word) (s : State) : State :=
  State.sideEffects c { s with cause := some c, faultCmd := w }

/-- The fault clear, the "return" (R212): FAULT and CAUSE to 0 and nothing else. -/
def State.clearFault (s : State) : State := { s with cause := none }

/-- Reset as a host action (R230): every CSR to its reset value, WS unspecified (a new draw), MEM unchanged. The parameters,
the host's later actions and the value it last read are not the block's and stay (log entry 14). -/
def State.resetBlock (s : State) : State :=
  { State.reset with
    config := s.config
    mem := s.mem
    wsDraw := s.draws
    draws := s.draws + 1
    mvp := s.config.mvpDefault
    pending := s.pending
    hostRead := s.hostRead }

/-! ### Register updates of the commands -/

/-- RESULT := r and the Boolean-decoder registers := b, the effects of a completed read command (R25, R105). -/
def State.finishRead (s : State) (r : Word) (b : BdRegs) : State := { s with result := r, bd := b }

/-- The cells written to WS (R44). -/
def State.writeWs (s : State) (cells : List Host.Cell) : State := { s with ws := s.ws.writeAll cells }

/-- MISSREF := trunc_32(MISSREF + 1) (R26, R150). -/
def State.countMissing (s : State) : State := { s with missref := s.missref + 1 }

/-- The value a read returns to the host (R224). -/
def State.returnToHost (s : State) (v : Word) : State := { s with hostRead := some v }

end Sys2Proof.Machine
end

