-- ==== Sys2Proof/Machine/Flags.lean ====
section
/-! DEFINITION. The flags: the STATUS register as software reads it and as W1C writes it (spec/10_state.md R23;
spec/60_exceptions.md R201, R212), and FAULT_OUT (R216). The block has no other flags (R47). -/

namespace Sys2Proof.Machine

/-- The cause codes (R201). -/
def Cause.code : Cause → BitVec 4
  | .truncated => 1
  | .badStream => 2
  | .illegalOpcode => 3
  | .illegalOperand => 4
  | .bdNotReady => 5
  | .badRefDesc => 6

/-- STATUS.FAULT (R23). -/
def State.faultBit (s : State) : Bool := s.cause.isSome

/-- STATUS.CAUSE (R23): 0 when FAULT = 0. -/
def State.causeField (s : State) : BitVec 4 :=
  match s.cause with
  | none => 0
  | some c => c.code

/-- The STATUS word (R23): bit 0 FAULT, bit 1 BD_READY, bits 7:4 CAUSE, the rest 0. -/
def State.statusWord (s : State) : Word :=
  0#24 ++ s.causeField ++ 0#2 ++ BitVec.ofBool s.bdReady ++ BitVec.ofBool s.faultBit

/-- A host write to STATUS: W1C on bit 0 (R23, R212). -/
def State.writeStatus (s : State) (v : Word) : State := if v.getLsbD 0 then s.clearFault else s

/-- FAULT_OUT, a level equal to STATUS.FAULT at all times (R216). -/
def State.faultOut (s : State) : Bool := s.faultBit

end Sys2Proof.Machine
end

