-- ==== Sys2Proof/Machine/Operands.lean ====
section
/-! DEFINITION. Operand assembly (spec/30_encoding.md R90): the fields of MB_POS and the MV registers, the MVP file, the
descriptors and their derived sizes (spec/10_state.md R27 to R43), and the arithmetic of spec/00_scope.md R16, R17. -/

namespace Sys2Proof.Machine

/-! ### Integer arithmetic (R16, R17) -/

/-- `a >> k`, the arithmetic shift `floor(a / 2^k)` (R16). -/
def shr (a : Int) (k : Nat) : Int := a / 2 ^ k

/-- `a & (2^k - 1) = a - ((a >> k) << k)`, in [0, 2^k - 1] for every integer a (R16). -/
def lowBits (a : Int) (k : Nat) : Int := a % 2 ^ k

/-- `clip(v, lo, hi)` (R17). -/
def clip (v lo hi : Int) : Int := if v < lo then lo else if hi < v then hi else v

/-- `clip255(v)` (R17). -/
def clip255 (v : Int) : Int := clip v 0 255

/-- `wrap16(v) = sext_16(trunc_16(v))` (R17). -/
def wrap16 (v : Int) : Int := (BitVec.ofInt 16 v).toInt

/-! ### Packed pairs (R27 to R29, R65) -/

/-- Bits 15:0 of a packed pair. -/
def loHalf (w : Word) : BitVec 16 := w.extractLsb' 0 16

/-- Bits 31:16 of a packed pair. -/
def hiHalf (w : Word) : BitVec 16 := w.extractLsb' 16 16

/-- `{y, x}`: y in bits 31:16, x in bits 15:0 (R65, R130). -/
def packPair (y x : BitVec 16) : Word := y ++ x

/-- The x component of an MV register, `sext_16` of bits 15:0 (R28, R90). -/
def mvX (w : Word) : Int := (loHalf w).toInt

/-- The y component of an MV register, `sext_16` of bits 31:16 (R28, R90). -/
def mvY (w : Word) : Int := (hiHalf w).toInt

/-- `mbx`, `zext_16` of MB_POS[15:0] (R27). -/
def State.mbx (s : State) : Int := (loHalf s.mbPos).toNat

/-- `mby`, `zext_16` of MB_POS[31:16] (R27). -/
def State.mby (s : State) : Int := (hiHalf s.mbPos).toNat

/-! ### The MVP file (R38, R131) -/

end Sys2Proof.Machine

namespace Sys2Proof

/-- The probability vector of a component: MVP0 for Y, MVP1 for X (R131). -/
def MvpFile.vec (f : MvpFile) : Comp → Vector Byte 19
  | .y => f.y
  | .x => f.x

/-- `p[c][j]` (R38). -/
def MvpFile.get (f : MvpFile) (c : Comp) (j : Fin 19) : Byte := (f.vec c).get j

/-- `p[c][j] <- v`. -/
def MvpFile.set (f : MvpFile) (c : Comp) (j : Fin 19) (v : Byte) : MvpFile :=
  match c with
  | .y => { f with y := f.y.set j v }
  | .x => { f with x := f.x.set j v }

/-- The factor MV_SCALE (R6). -/
def MvScale.factor : MvScale → Int
  | .one => 1
  | .two => 2
  | .four => 4

end Sys2Proof

namespace Sys2Proof.Machine

/-! ### Reference frames (R39 to R43, R85) -/

/-- The frame a tag names; none for INTRA (R39, R88). -/
def frameOf : RefTag → Option FrameTag
  | .intra => none
  | .last => some .last
  | .golden => some .golden
  | .altref => some .altref

/-- The descriptor of a tag. -/
def RefFile.get (f : RefFile) : FrameTag → RefDesc
  | .last => f.last
  | .golden => f.golden
  | .altref => f.altref

/-- Replace the descriptor of a tag. -/
def RefFile.set (f : RefFile) (t : FrameTag) (d : RefDesc) : RefFile :=
  match t with
  | .last => { f with last := d }
  | .golden => { f with golden := d }
  | .altref => { f with altref := d }

/-- The width W in luma pixels (R40). -/
def RefDesc.lumaW (d : RefDesc) : Nat := d.w.toNat

/-- The height H in luma pixels (R40). -/
def RefDesc.lumaH (d : RefDesc) : Nat := d.h.toNat

/-- Half a luma size, rounded by CHROMA_EDGE (R11, R43). -/
def halfSize (e : ChromaEdge) (n : Nat) : Nat :=
  match e with
  | .ceilHalf => (n + 1) / 2
  | .floorHalf => n / 2

/-- CW (R43). -/
def RefDesc.chromaW (d : RefDesc) (e : ChromaEdge) : Nat := halfSize e d.lumaW

/-- CH (R43). -/
def RefDesc.chromaH (d : RefDesc) (e : ChromaEdge) : Nat := halfSize e d.lumaH

/-- The address of the last byte of a plane of size `w` x `h`, as an integer (R43). -/
def lastByte (base stride w h : Nat) : Nat := base + (h - 1) * stride + (w - 1)

/-- A well-formed descriptor (R43). -/
def RefDesc.wellFormed (d : RefDesc) (e : ChromaEdge) : Bool :=
  decide (1 ≤ d.lumaW) && decide (1 ≤ d.lumaH)
    && decide (1 ≤ d.chromaW e) && decide (1 ≤ d.chromaH e)
    && decide (d.lumaW ≤ d.yStride.toNat) && decide (d.chromaW e ≤ d.cStride.toNat)
    && decide (lastByte d.yBase.toNat d.yStride.toNat d.lumaW d.lumaH < 2 ^ 32)
    && decide (lastByte d.cbBase.toNat d.cStride.toNat (d.chromaW e) (d.chromaH e) < 2 ^ 32)
    && decide (lastByte d.crBase.toNat d.cStride.toNat (d.chromaW e) (d.chromaH e) < 2 ^ 32)

/-- The two chroma planes (R42). -/
inductive Plane where
  | cb | cr
  deriving DecidableEq, Repr

/-- REF_CB_BASE or REF_CR_BASE (R42). -/
def RefDesc.planeBase (d : RefDesc) : Plane → Word
  | .cb => d.cbBase
  | .cr => d.crBase

end Sys2Proof.Machine
end

