-- ==== Sys2Proof/Machine/BoolDecoder.lean ====
section
/-! DEFINITION. The Boolean decoder: the byte fetch, the decoding primitives and the commands BD_INIT, BD_READ_BIT and
BD_READ_UINT (spec/40_bool_decoder.md R100 to R108). -/

namespace Sys2Proof.Machine

/-- The Boolean-decoder registers as the integers the rules compute with (R16). -/
structure Bd where
  value : Nat
  range : Nat
  count : Nat
  pos : Nat
  endAddr : Nat
  deriving DecidableEq, Repr

/-- The registers read as unsigned integers. -/
def BdRegs.toBd (r : BdRegs) : Bd :=
  ⟨r.value.toNat, r.range.toNat, r.count.toNat, r.pos.toNat, r.endAddr.toNat⟩

/-- The integers written to the registers, each to its field width (R32 to R36; log entry 13). -/
def Bd.toRegs (b : Bd) : BdRegs :=
  ⟨BitVec.ofNat 16 b.value, BitVec.ofNat 8 b.range, BitVec.ofNat 3 b.count,
    BitVec.ofNat 32 b.pos, BitVec.ofNat 32 b.endAddr⟩

/-- Why a read ends without a value: TRUNCATED (R101), or a normalisation that never ends (log entry 13). -/
inductive BdStop where
  | truncated
  | diverges
  deriving DecidableEq, Repr

/-- `fetchByte()` (R101). -/
def fetchByte (s : State) (b : Bd) : Except BdStop (Nat × Bd) :=
  if b.endAddr ≤ b.pos then
    match s.config.bdTail with
    | .fault => .error .truncated
    | .zeroFill => .ok (0, b)
  else .ok ((s.memByte b.pos).toNat, { b with pos := b.pos + 1 })

/-- One pass of the normalisation loop (R103): shift by one, and fetch a byte after the eighth shift. -/
def shiftOnce (s : State) (b : Bd) : Except BdStop Bd :=
  let d : Bd := { b with value := b.value * 2, range := b.range * 2, count := b.count + 1 }
  if b.count + 1 = 8 then do
    let (byte, e) ← fetchByte s { d with count := 0 }
    return { e with value := e.value + byte }
  else .ok d

/-- `while BD_RANGE < 128` (R103), at most `fuel` passes: seven are enough for every positive range, and no number is for
range 0 (log entry 13). -/
def normalise (s : State) : Nat → Bd → Except BdStop Bd
  | 0, b => if b.range < 128 then .error .diverges else .ok b
  | fuel + 1, b => if b.range < 128 then do normalise s fuel (← shiftOnce s b) else .ok b

/-- `split = 1 + (((BD_RANGE - 1) * prob) >> 8)` (R103). -/
def splitOf (range prob : Nat) : Nat := 1 + (range - 1) * prob / 256

/-- `readBit(prob)` (R103). -/
def readBit (s : State) (prob : Byte) (b : Bd) : Except BdStop (Bool × Bd) := do
  let split := splitOf b.range prob.toNat
  if split * 256 ≤ b.value then
    return (true, ← normalise s 7 { b with range := b.range - split, value := b.value - split * 256 })
  else
    return (false, ← normalise s 7 { b with range := split })

/-- `readUint(prob, n)` (R104): n bools, most significant first. -/
def readUint (s : State) (prob : Byte) : Nat → Bd → Except BdStop (Nat × Bd)
  | 0, b => .ok (0, b)
  | k + 1, b => do
    let (bit, b1) ← readBit s prob b
    let (u, b2) ← readUint s prob k b1
    return (bit.toNat * 2 ^ k + u, b2)

/-- A command that needs BD_READY (R100) and, when its reads complete, writes a new state; TRUNCATED ends it with the fault
(R101, R210), whose record holds the command word `encode i`. -/
def bdCommand (i : Instr) (s : State) (body : Bd → Except BdStop State) : Host.Outcome State Fault Refusal :=
  if s.bdReady then
    match body s.bd.toBd with
    | .ok t => .next t
    | .error .truncated => .next (s.raise .truncated (encode i))
    | .error .diverges => .fault .normaliseDiverges
  else .next (s.raise .bdNotReady (encode i))

/-- The first two bytes of the buffer `base`, `len` and the decoder behind them (R102). -/
def bindBuffer (s : State) (base len : Nat) : Except BdStop Bd := do
  let (b0, d1) ← fetchByte s ⟨0, 255, 0, base, base + len⟩
  let (b1, d2) ← fetchByte s d1
  return { d2 with value := b0 * 256 + b1 }

/-- BD_INIT (R102): the bound of the buffer, the two initial bytes, and the BAD_STREAM test. -/
def execBdInit (s : State) : Host.Outcome State Fault Refusal :=
  if 2 ^ 32 ≤ s.bdSrcBase.toNat + s.bdSrcLen.toNat then
    .next (s.raise .illegalOperand (encode .bdInit))
  else
    match bindBuffer s s.bdSrcBase.toNat s.bdSrcLen.toNat with
    | .error .truncated => .next (s.raise .truncated (encode .bdInit))
    | .error .diverges => .fault .normaliseDiverges
    | .ok b =>
      if 255 * 256 ≤ b.value then .next (s.raise .badStream (encode .bdInit))
      else .next { s with bd := b.toRegs, bdReady := true }

/-- BD_READ_BIT (R105). -/
def execBdReadBit (prob : Byte) (s : State) : Host.Outcome State Fault Refusal :=
  bdCommand (.bdReadBit prob) s fun b => do
    let (bit, b') ← readBit s prob b
    return s.finishRead (BitVec.ofNat 32 bit.toNat) b'.toRegs

/-- BD_READ_UINT (R106); n > 32 is ILLEGAL_OPERAND (R88), before the readiness test (R100, R214). -/
def execBdReadUint (prob : Byte) (n : BitVec 6) (s : State) : Host.Outcome State Fault Refusal :=
  if 32 < n.toNat then .next (s.raise .illegalOperand (encode (.bdReadUint prob n)))
  else
    bdCommand (.bdReadUint prob n) s fun b => do
      let (u, b') ← readUint s prob n.toNat b
      return s.finishRead (BitVec.ofNat 32 u) b'.toRegs

end Sys2Proof.Machine
end

