-- ==== Sys2Proof/Machine/MotionComp.lean ====
section
/-! DEFINITION. Motion-compensated prediction: edge-clamped samples (spec/20_memory.md R63, R64), the filters, the block
writes and the commands MC_PREDICT and MC_PREDICT_SPLIT (spec/42_motion_comp.md R140 to R160). -/

namespace Sys2Proof.Machine

/-! ### Samples (R63, R64) -/

/-- The address of a sample of a plane of size `w` x `h`, each coordinate clamped to the plane (R63, R64). -/
def sampleAddr (base stride w h : Nat) (x y : Int) : Nat :=
  base + (clip y 0 (h - 1)).toNat * stride + (clip x 0 (w - 1)).toNat

/-- The address `LY(t, x, y)` reads (R63). -/
def lumaAddr (d : RefDesc) (x y : Int) : Nat := sampleAddr d.yBase.toNat d.yStride.toNat d.lumaW d.lumaH x y

/-- The address `LC(t, P, x, y)` reads (R64). -/
def chromaAddr (e : ChromaEdge) (d : RefDesc) (p : Plane) (x y : Int) : Nat :=
  sampleAddr (d.planeBase p).toNat d.cStride.toNat (d.chromaW e) (d.chromaH e) x y

/-- `LY(t, x, y)` for the descriptor d (R63). -/
def lumaSample (s : State) (d : RefDesc) (x y : Int) : Int := (s.memByte (lumaAddr d x y)).toNat

/-- `LC(t, P, x, y)` for the descriptor d (R64). -/
def chromaSample (s : State) (d : RefDesc) (p : Plane) (x y : Int) : Int :=
  (s.memByte (chromaAddr s.config.chromaEdge d p x y)).toNat

/-! ### Luma (R144 to R146) -/

/-- `sum over u in 0..5 of F6[k][u] * v(u)`. -/
def sixTap (k : Nat) (v : Nat → Int) : Int :=
  f6 k 0 * v 0 + f6 k 1 * v 1 + f6 k 2 * v 2 + f6 k 3 * v 3 + f6 k 4 * v 4 + f6 k 5 * v 5

/-- A phase-1 value of the DOC filter before wrapping (R144): row `Y + r - 2`. -/
def lumaPhase1 (s : State) (d : RefDesc) (x y : Int) (hx r : Nat) : Int :=
  if hx = 0 then lumaSample s d x (y + r - 2) * 128
  else sixTap hx fun u => lumaSample s d (x + u - 2) (y + r - 2)

/-- `T[r]` of the DOC filter: wrapped to 16 bits under TEMP_WRAP16 (R144, R146). -/
def lumaTemp (s : State) (d : RefDesc) (x y : Int) (hx r : Nat) : Int :=
  let v := lumaPhase1 s d x y hx r
  if s.config.tempWrap16 then wrap16 v else v

/-- `luma6` under LUMA_ROUNDING = DOC (R144). -/
def luma6Doc (s : State) (d : RefDesc) (x y : Int) (hx hy : Nat) : Int :=
  if hy = 0 then clip255 (shr (lumaTemp s d x y hx 2 + 64) 7)
  else clip255 (shr (sixTap hy (lumaTemp s d x y hx) + 8192) 14)

/-- `T[r]` of the two-pass filter (R145). -/
def lumaTempRfc (s : State) (d : RefDesc) (x y : Int) (hx r : Nat) : Int :=
  clip255 (shr (sixTap hx (fun u => lumaSample s d (x + u - 2) (y + r - 2)) + 64) 7)

/-- `luma6` under LUMA_ROUNDING = RFC_TWO_PASS (R145). -/
def luma6Rfc (s : State) (d : RefDesc) (x y : Int) (hx hy : Nat) : Int :=
  clip255 (shr (sixTap hy (lumaTempRfc s d x y hx) + 64) 7)

/-- `luma6(t, X, Y, hx, hy)` by LUMA_ROUNDING (R144, R145). -/
def luma6 (s : State) (d : RefDesc) (x y : Int) (hx hy : Nat) : Int :=
  match s.config.lumaRounding with
  | .doc => luma6Doc s d x y hx hy
  | .rfcTwoPass => luma6Rfc s d x y hx hy

/-! ### Chroma (R147) -/

/-- One bilinear pass: `(a * f0 + b * f1 + 64) >> 7` with the weights of phase k (R141, R147). -/
def bilPass (k a b : Int) : Int := shr (a * bil0 k + b * bil1 k + 64) 7

/-- `bil(t, P, X, Y, gx, gy)` (R147): the horizontal pass on both rows, then the vertical pass. -/
def bil (s : State) (d : RefDesc) (p : Plane) (x y gx gy : Int) : Int :=
  bilPass gy
    (bilPass gx (chromaSample s d p x y) (chromaSample s d p (x + 1) y))
    (bilPass gx (chromaSample s d p x (y + 1)) (chromaSample s d p (x + 1) (y + 1)))

/-! ### Block writes (R148, R149) -/

/-- The cells of an n x n block of WS whose first byte is `WS[row0][col0]`, row by row. -/
def blockCells (n row0 col0 : Nat) (pixel : Nat → Nat → Byte) : List Host.Cell :=
  (List.range n).flatMap fun i =>
    (List.range n).map fun j => (wsIndex (row0 + i) (col0 + j), pixel i j)

/-- A luma pixel of a block at (PX, PY) predicted with (vx, vy) (R142, R148). -/
def lumaPixel (s : State) (d : RefDesc) (px py vx vy : Int) (i j : Nat) : Byte :=
  BitVec.ofInt 8 (luma6 s d (px + shr vx 2 + j) (py + shr vy 2 + i)
    (2 * lowBits vx 2).toNat (2 * lowBits vy 2).toNat)

/-- `lumaBlock(t, PX, PY, vx, vy, r0, c0, n)` (R148). -/
def lumaBlock (s : State) (d : RefDesc) (px py vx vy : Int) (r0 c0 n : Nat) : List Host.Cell :=
  blockCells n (1 + r0) (8 + c0) (lumaPixel s d px py vx vy)

/-- A chroma phase: `v & 7` (R143), or 0 when gated (R149, R151). -/
def chromaPhase (gate : Bool) (v : Int) : Int := if gate then 0 else lowBits v 3

/-- A chroma pixel of a block at (QX, QY) predicted with (vx, vy) (R143, R149). -/
def chromaPixel (s : State) (d : RefDesc) (p : Plane) (qx qy vx vy : Int) (gate : Bool) (i j : Nat) : Byte :=
  BitVec.ofInt 8 (bil s d p (qx + shr vx 3 + j) (qy + shr vy 3 + i) (chromaPhase gate vx) (chromaPhase gate vy))

/-- The column of a plane's region in WS rows 18..25 (R45): Cb at 8, Cr at 24. -/
def planeCol : Plane → Nat
  | .cb => 8
  | .cr => 24

/-- `chromaBlock(t, QX, QY, vx, vy, r0, c0, n, gate)` (R149). -/
def chromaBlock (s : State) (d : RefDesc) (qx qy vx vy : Int) (r0 c0 n : Nat) (gate : Bool) : List Host.Cell :=
  blockCells n (18 + r0) (planeCol .cb + c0) (chromaPixel s d .cb qx qy vx vy gate)
    ++ blockCells n (18 + r0) (planeCol .cr + c0) (chromaPixel s d .cr qx qy vx vy gate)

/-! ### Dispatch (R150 to R155) -/

/-- The cells `missingFill` writes: 128 in the three prediction regions (R150). -/
def missingCells : List Host.Cell :=
  blockCells 16 1 8 (fun _ _ => 128) ++ blockCells 8 18 8 (fun _ _ => 128) ++ blockCells 8 18 24 (fun _ _ => 128)

/-- `missingFill()` (R150). -/
def State.missingFill (s : State) : State := (s.writeWs missingCells).countMissing

/-- An MC command (R152, R154): ref = 0 is ILLEGAL_OPERAND (R88), VALID = 0 fills (R150), a descriptor that is not
well-formed is BAD_REF_DESC (R155), else the predicted cells are written. -/
def mcCommand (i : Instr) (ref : RefTag) (s : State) (cells : RefDesc → List Host.Cell) :
    Host.Outcome State Fault Refusal :=
  match frameOf ref with
  | none => .next (s.raise .illegalOperand (encode i))
  | some t =>
    let d := s.refs.get t
    if d.valid then
      if d.wellFormed s.config.chromaEdge then .next (s.writeWs (cells d))
      else .next (s.raise .badRefDesc (encode i))
    else .next s.missingFill

/-- Whether MC_PREDICT's integer-MV fast path drops the chroma phases (R151). -/
def chromaGate (s : State) (vx vy : Int) : Bool :=
  decide (s.config.chromaFastpath = .lumaGated) && decide (lowBits vx 2 = 0) && decide (lowBits vy 2 = 0)

/-- The 384 cells of MC_PREDICT (R152). -/
def predictCells (s : State) (d : RefDesc) : List Host.Cell :=
  let vx := mvX s.mbmv
  let vy := mvY s.mbmv
  lumaBlock s d (16 * s.mbx) (16 * s.mby) vx vy 0 0 16
    ++ chromaBlock s d (8 * s.mbx) (8 * s.mby) vx vy 0 0 8 (chromaGate s vx vy)

/-- MC_PREDICT (R152). -/
def execMcPredict (ref : RefTag) (s : State) : Host.Outcome State Fault Refusal :=
  mcCommand (.mcPredict ref) ref s (predictCells s)

/-- The MV register of sub-block b (R29). -/
def State.submvWord (s : State) (b : Nat) : Word := s.submv.toList.getD b 0

/-- The sum of an MV component over the four luma sub-blocks of chroma quadrant (ci, cj) (R153). -/
def quadrantSum (s : State) (component : Word → Int) (ci cj : Nat) : Int :=
  let k0 := 8 * ci + 2 * cj
  component (s.submvWord k0) + component (s.submvWord (k0 + 1))
    + component (s.submvWord (k0 + 4)) + component (s.submvWord (k0 + 5))

/-- One component of `splitChromaMV(ci, cj)`: `(sum + 2) >> 2` (R153). -/
def splitChroma (s : State) (component : Word → Int) (ci cj : Nat) : Int :=
  shr (quadrantSum s component ci cj + 2) 2

/-- The luma cells of sub-block b (R154). -/
def splitLumaCells (s : State) (d : RefDesc) (b : Nat) : List Host.Cell :=
  let r0 := 4 * (b / 4)
  let c0 := 4 * (b % 4)
  lumaBlock s d (16 * s.mbx + c0) (16 * s.mby + r0) (mvX (s.submvWord b)) (mvY (s.submvWord b)) r0 c0 4

/-- The chroma cells of quadrant (ci, cj) (R154). -/
def splitChromaCells (s : State) (d : RefDesc) (ci cj : Nat) : List Host.Cell :=
  chromaBlock s d (8 * s.mbx + 4 * cj) (8 * s.mby + 4 * ci)
    (splitChroma s mvX ci cj) (splitChroma s mvY ci cj) (4 * ci) (4 * cj) 4 false

/-- The 384 cells of MC_PREDICT_SPLIT (R154): sixteen luma blocks, then four quadrants of chroma. -/
def splitCells (s : State) (d : RefDesc) : List Host.Cell :=
  (List.range 16).flatMap (splitLumaCells s d)
    ++ (splitChromaCells s d 0 0 ++ splitChromaCells s d 0 1 ++ splitChromaCells s d 1 0 ++ splitChromaCells s d 1 1)

/-- MC_PREDICT_SPLIT (R154). -/
def execMcPredictSplit (ref : RefTag) (s : State) : Host.Outcome State Fault Refusal :=
  mcCommand (.mcPredictSplit ref) ref s (splitCells s)

end Sys2Proof.Machine
end

