-- ==== Sys2Proof/Machine/MvDecoder.lean ====
section
/-! DEFINITION. The MV-component decoder: the short tree, the two long paths, one component, and the commands
MVP_LOAD_DEFAULT, MVP_UPDATE, MV_READ_COMPONENT and MV_READ (spec/41_mv_decoder.md R120 to R133). -/

namespace Sys2Proof.Machine

/-- `shortTree(p)` (R123): three bits of the magnitude, most significant first, each with the probability the bits before it
choose. -/
def shortTree (s : State) (p : Vector Byte 19) (b : Bd) : Except BdStop (Nat × Bd) := do
  let (b0, b) ← readBit s p[2] b
  if b0 then
    let (b1, b) ← readBit s p[6] b
    let (b2, b) ← readBit s (if b1 then p[8] else p[7]) b
    return (4 + 2 * b1.toNat + b2.toNat, b)
  else
    let (b1, b) ← readBit s p[3] b
    let (b2, b) ← readBit s (if b1 then p[5] else p[4]) b
    return (2 * b1.toNat + b2.toNat, b)

/-- Read one bool for each (probability, weight) pair in order; the sum of the weights whose bool is 1. -/
def readWeighted (s : State) : List (Byte × Nat) → Bd → Except BdStop (Nat × Bd)
  | [], b => .ok (0, b)
  | (p, weight) :: rest, b => do
    let (bit, b1) ← readBit s p b
    let (sum, b2) ← readWeighted s rest b1
    return (bit.toNat * weight + sum, b2)

/-- The ten reads of the DOC order (R124): magnitude bits 9, 8, 7 from p[9..11], bits 6..0 from p[12..18]. -/
def docBits (p : Vector Byte 19) : List (Byte × Nat) :=
  [(p[9], 2 ^ 9), (p[10], 2 ^ 8), (p[11], 2 ^ 7), (p[12], 2 ^ 6), (p[13], 2 ^ 5), (p[14], 2 ^ 4), (p[15], 2 ^ 3),
    (p[16], 2 ^ 2), (p[17], 2 ^ 1), (p[18], 2 ^ 0)]

/-- `longDoc(p)` (R124): the ten bits, then 8 added. -/
def longDoc (s : State) (p : Vector Byte 19) (b : Bd) : Except BdStop (Nat × Bd) := do
  let (l, b) ← readWeighted s (docBits p) b
  return (l + 8, b)

/-- The first nine reads of the RFC order (R125): bits 0, 1, 2 from p[9..11], then bits 9 down to 4 from p[18..13]. -/
def rfcBits (p : Vector Byte 19) : List (Byte × Nat) :=
  [(p[9], 2 ^ 0), (p[10], 2 ^ 1), (p[11], 2 ^ 2), (p[18], 2 ^ 9), (p[17], 2 ^ 8), (p[16], 2 ^ 7), (p[15], 2 ^ 6),
    (p[14], 2 ^ 5), (p[13], 2 ^ 4)]

/-- `longRfc(p)` (R125): nine bits, then bit 3 from p[12], which is implied when bits 9..4 are all 0. -/
def longRfc (s : State) (p : Vector Byte 19) (b : Bd) : Except BdStop (Nat × Bd) := do
  let (a, b) ← readWeighted s (rfcBits p) b
  if a &&& 0xFFF0 = 0 then return (a + 8, b)
  else
    let (bit, b) ← readBit s p[12] b
    return (a + 8 * bit.toNat, b)

/-- The magnitude part of `readComponent` (R126). -/
def readMagnitude (s : State) (p : Vector Byte 19) (b : Bd) : Except BdStop (Nat × Bd) := do
  let (isLong, b) ← readBit s p[0] b
  if isLong then
    match s.config.mvLongOrder with
    | .doc => longDoc s p b
    | .rfc => longRfc s p b
  else shortTree s p b

/-- `readComponent(c)` (R126): the magnitude and, when it is not 0, the sign. -/
def readComponent (s : State) (c : Comp) (b : Bd) : Except BdStop (Int × Bd) := do
  let p := s.mvp.vec c
  let (a, b) ← readMagnitude s p b
  if a = 0 then return (0, b)
  else
    let (neg, b) ← readBit s p[1] b
    return (if neg then -(a : Int) else (a : Int), b)

/-- MVP_LOAD_DEFAULT (R127). -/
def execMvpLoadDefault (s : State) : Host.Outcome State Fault Refusal :=
  .next { s with mvp := s.config.mvpDefault }

/-- The 38 entries in the order MVP_UPDATE takes them: component 0 first, j ascending (R128). -/
def mvpEntries : List (Comp × Fin 19) :=
  (List.finRange 19).map (fun j => (Comp.y, j)) ++ (List.finRange 19).map (fun j => (Comp.x, j))

/-- The value stored for the 7-bit value x (R128). -/
def promote (x : Nat) : Byte := if x = 0 then 1 else BitVec.ofNat 8 (2 * x)

/-- One entry of MVP_UPDATE (R128): the flag and, when it is 1, the new value. -/
def readEntry (s : State) (c : Comp) (j : Fin 19) (b : Bd) : Except BdStop (Option Byte × Bd) := do
  let (flag, b) ← readBit s (s.config.mvpUpdProb.get c j) b
  if flag then
    let (x, b) ← readUint s 128 7 b
    return (some (promote x), b)
  else return (none, b)

/-- The loop of MVP_UPDATE over the remaining entries: the MVP file it leaves, and the decoder or why it stopped. The entries
replaced before a stop keep their new values (R128, R210). -/
def updateEntries (s : State) : List (Comp × Fin 19) → MvpFile → Bd → MvpFile × Except BdStop Bd
  | [], f, b => (f, .ok b)
  | (c, j) :: rest, f, b =>
    match readEntry s c j b with
    | .error e => (f, .error e)
    | .ok (none, b') => updateEntries s rest f b'
    | .ok (some v, b') => updateEntries s rest (f.set c j v) b'

/-- MVP_UPDATE (R128). -/
def execMvpUpdate (s : State) : Host.Outcome State Fault Refusal :=
  if s.bdReady then
    match updateEntries s mvpEntries s.mvp s.bd.toBd with
    | (f, .ok b) => .next { s with mvp := f, bd := b.toRegs }
    | (f, .error .truncated) => .next (State.raise .truncated (encode .mvpUpdate) { s with mvp := f })
    | (_, .error .diverges) => .fault .normaliseDiverges
  else .next (s.raise .bdNotReady (encode .mvpUpdate))

/-- MV_READ_COMPONENT (R129): the component as `trunc_32`, unscaled. -/
def execMvReadComponent (comp : Comp) (s : State) : Host.Outcome State Fault Refusal :=
  bdCommand (.mvReadComponent comp) s fun b => do
    let (a, b') ← readComponent s comp b
    return s.finishRead (BitVec.ofInt 32 a) b'.toRegs

/-- MV_READ (R130): component 0 (y), then component 1 (x), each times MV_SCALE, packed `{trunc_16(y), trunc_16(x)}`. -/
def execMvRead (s : State) : Host.Outcome State Fault Refusal :=
  bdCommand .mvRead s fun b => do
    let (y, b1) ← readComponent s .y b
    let (x, b2) ← readComponent s .x b1
    let k := s.config.mvScale.factor
    return s.finishRead (packPair (BitVec.ofInt 16 (y * k)) (BitVec.ofInt 16 (x * k))) b2.toRegs

end Sys2Proof.Machine
end

