-- ==== Sys2Proof/Machine/Dispatch.lean ====
section
/-! DEFINITION. The meaning of every command, one arm per constructor (spec/43_control.md R181). -/

namespace Sys2Proof.Machine

/-- The dispatch of R181. -/
def exec (i : Instr) (s : State) : Host.Outcome State Fault Refusal :=
  match i with
  | .nop => Sys2Proof.Machine.execNop s
  | .bdInit => Sys2Proof.Machine.execBdInit s
  | .bdReadBit prob => Sys2Proof.Machine.execBdReadBit prob s
  | .bdReadUint prob n => Sys2Proof.Machine.execBdReadUint prob n s
  | .mvpLoadDefault => Sys2Proof.Machine.execMvpLoadDefault s
  | .mvpUpdate => Sys2Proof.Machine.execMvpUpdate s
  | .mvReadComponent comp => Sys2Proof.Machine.execMvReadComponent comp s
  | .mvRead => Sys2Proof.Machine.execMvRead s
  | .mcPredict ref => Sys2Proof.Machine.execMcPredict ref s
  | .mcPredictSplit ref => Sys2Proof.Machine.execMcPredictSplit ref s

end Sys2Proof.Machine
end

