-- ==== Sys2Proof/Machine/HostPort.lean ====
section
/-! DEFINITION. The host's ports: the CSR map (spec/10_state.md Table 1), CSR reads and writes, the CMD port with the
command step (spec/43_control.md R181), and one host action (spec/60_exceptions.md R224). -/

namespace Sys2Proof.Machine

/-! ### The CSR map (R22, Table 1) -/

/-- The registers of one descriptor, in address order (R39 to R42). -/
inductive RefField where
  | ctrl | size | yBase | yStride | cbBase | crBase | cStride
  deriving DecidableEq, Repr

/-- The registers of the CSR space. -/
inductive Csr where
  | status | faultCmd | result | missref | mbPos | mbmv
  | bdSrcBase | bdSrcLen | bdValue | bdRange | bdCount | bdPos | bdEnd
  | submv (b : Fin 16)
  | mvp (c : Comp) (j : Fin 19)
  | ref (t : FrameTag) (f : RefField)
  deriving DecidableEq, Repr

/-- t - 1 for the tag t (Table 1). -/
def FrameTag.index : FrameTag → Nat
  | .last => 0
  | .golden => 1
  | .altref => 2

/-- The offset of a descriptor register (Table 1). -/
def RefField.offset : RefField → Nat
  | .ctrl => 0
  | .size => 1
  | .yBase => 2
  | .yStride => 3
  | .cbBase => 4
  | .crBase => 5
  | .cStride => 6

/-- The address of a register (Table 1). -/
def Csr.addr : Csr → Nat
  | .status => 0x00
  | .faultCmd => 0x01
  | .result => 0x02
  | .missref => 0x03
  | .mbPos => 0x04
  | .mbmv => 0x05
  | .bdSrcBase => 0x08
  | .bdSrcLen => 0x09
  | .bdValue => 0x0A
  | .bdRange => 0x0B
  | .bdCount => 0x0C
  | .bdPos => 0x0D
  | .bdEnd => 0x0E
  | .submv b => 0x10 + b
  | .mvp .y j => 0x20 + j
  | .mvp .x j => 0x40 + j
  | .ref t f => 0x60 + 8 * t.index + f.offset

/-- The descriptor register at offset k; none at the reserved offset 7. -/
def refFieldAt : Nat → Option RefField
  | 0 => some .ctrl
  | 1 => some .size
  | 2 => some .yBase
  | 3 => some .yStride
  | 4 => some .cbBase
  | 5 => some .crBase
  | 6 => some .cStride
  | _ => none

/-- The tag of the descriptor at index k. -/
def frameTagAt : Nat → Option FrameTag
  | 0 => some .last
  | 1 => some .golden
  | 2 => some .altref
  | _ => none

/-- The register at an address; none where the address is reserved (R22, Table 1). -/
def csrAt (addr : Byte) : Option Csr :=
  let a := addr.toNat
  if a < 0x10 then
    match a with
    | 0x00 => some .status
    | 0x01 => some .faultCmd
    | 0x02 => some .result
    | 0x03 => some .missref
    | 0x04 => some .mbPos
    | 0x05 => some .mbmv
    | 0x08 => some .bdSrcBase
    | 0x09 => some .bdSrcLen
    | 0x0A => some .bdValue
    | 0x0B => some .bdRange
    | 0x0C => some .bdCount
    | 0x0D => some .bdPos
    | 0x0E => some .bdEnd
    | _ => none
  else if h : 0x10 ≤ a ∧ a < 0x20 then some (.submv ⟨a - 0x10, by omega⟩)
  else if h : 0x20 ≤ a ∧ a < 0x33 then some (.mvp .y ⟨a - 0x20, by omega⟩)
  else if h : 0x40 ≤ a ∧ a < 0x53 then some (.mvp .x ⟨a - 0x40, by omega⟩)
  else if 0x60 ≤ a then
    match frameTagAt ((a - 0x60) / 8), refFieldAt ((a - 0x60) % 8) with
    | some t, some f => some (.ref t f)
    | _, _ => none
  else none

/-! ### CSR reads (R22 to R42) -/

/-- A descriptor register as the host reads it (R39 to R42). -/
def RefDesc.readField (d : RefDesc) : RefField → Word
  | .ctrl => (BitVec.ofBool d.valid).setWidth 32
  | .size => packPair d.h d.w
  | .yBase => d.yBase
  | .yStride => d.yStride
  | .cbBase => d.cbBase
  | .crBase => d.crBase
  | .cStride => d.cStride

/-- A register as the host reads it, reserved bits 0 (R22 to R42). -/
def State.readCsr (s : State) : Csr → Word
  | .status => s.statusWord
  | .faultCmd => s.faultCmd
  | .result => s.result
  | .missref => s.missref
  | .mbPos => s.mbPos
  | .mbmv => s.mbmv
  | .bdSrcBase => s.bdSrcBase
  | .bdSrcLen => s.bdSrcLen.setWidth 32
  | .bdValue => s.bd.value.setWidth 32
  | .bdRange => s.bd.range.setWidth 32
  | .bdCount => s.bd.count.setWidth 32
  | .bdPos => s.bd.pos
  | .bdEnd => s.bd.endAddr
  | .submv b => s.submv.get b
  | .mvp c j => (s.mvp.get c j).setWidth 32
  | .ref t f => (s.refs.get t).readField f

/-- A read of a CSR address: a reserved address reads 0 (R22). -/
def State.readCsrAddr (s : State) (addr : Byte) : Word :=
  match csrAt addr with
  | none => 0
  | some r => s.readCsr r

/-! ### CSR writes (R22 to R42) -/

/-- `max(v[7:0], 1)`, what an MVP entry stores (R38). -/
def mvpStored (v : Word) : Byte :=
  let b := v.extractLsb' 0 8
  if b = 0 then 1 else b

/-- A descriptor register as the host writes it (R39 to R42). -/
def RefDesc.writeField (d : RefDesc) (f : RefField) (v : Word) : RefDesc :=
  match f with
  | .ctrl => { d with valid := v.getLsbD 0 }
  | .size => { d with w := loHalf v, h := hiHalf v }
  | .yBase => { d with yBase := v }
  | .yStride => { d with yStride := v }
  | .cbBase => { d with cbBase := v }
  | .crBase => { d with crBase := v }
  | .cStride => { d with cStride := v }

/-- A host write of a register: its writable fields; read-only registers ignore it (R22 to R42, R37). -/
def State.writeCsr (s : State) (r : Csr) (v : Word) : State :=
  match r with
  | .status => s.writeStatus v
  | .faultCmd => s
  | .result => s
  | .missref => { s with missref := v }
  | .mbPos => { s with mbPos := v }
  | .mbmv => { s with mbmv := v }
  | .bdSrcBase => { s with bdSrcBase := v }
  | .bdSrcLen => { s with bdSrcLen := v.extractLsb' 0 24 }
  | .bdValue => s
  | .bdRange => s
  | .bdCount => s
  | .bdPos => s
  | .bdEnd => s
  | .submv b => { s with submv := s.submv.set b v }
  | .mvp c j => { s with mvp := s.mvp.set c j (mvpStored v) }
  | .ref t f => { s with refs := s.refs.set t ((s.refs.get t).writeField f v) }

/-- A write of a CSR address: a reserved address ignores it (R22). -/
def State.writeCsrAddr (s : State) (addr : Byte) (v : Word) : State :=
  match csrAt addr with
  | none => s
  | some r => s.writeCsr r v

/-! ### The CMD port and one host action -/

/-- The command step for the word w (R181): dropped while halted (R211), else decoded (R87) and run. -/
def command (w : Word) (s : State) : Host.Outcome State Fault Refusal :=
  if s.cause.isSome then .next s
  else
    match decode w with
    | .illegalOpcode => .next (s.raise .illegalOpcode w)
    | .illegalOperand => .next (s.raise .illegalOperand w)
    | .instr i => exec i s

/-- One host action (R224). -/
def hostAct (a : HostAction) (s : State) : Host.Outcome State Fault Refusal :=
  match a with
  | .csrRead addr => .next (s.returnToHost (s.readCsrAddr addr))
  | .csrWrite addr v => .next (s.writeCsrAddr addr v)
  | .csrOtherWidth _ _ => .refused .csrAccessWidth
  | .cmd w => command w s
  | .wsRead row col => .next (s.returnToHost ((s.wsByte (wsIndex row col)).setWidth 32))
  | .wsWrite row col v => .next (s.writeWs [(wsIndex row col, v.extractLsb' 0 8)])
  | .memRead addr => .next (s.returnToHost ((s.memByte addr.toNat).setWidth 32))
  | .memWrite addr v => .next { s with mem := s.mem.write addr.toNat v }
  | .reset => .next s.resetBlock

end Sys2Proof.Machine
end

