-- ==== Sys2Proof/Machine/Step.lean ====
section
/-! DEFINITION. One step: the host's next action (spec/60_exceptions.md R224, R226), and the idle step when there is none
(R223). -/

namespace Sys2Proof.Machine

/-- One step of the machine: the next host action is taken from `pending` and performed. With none left the block is idle and
"holds all its state" (R223; log entry 1). -/
def step (s : State) : Host.Outcome State Fault Refusal :=
  match s.pending with
  | [] => .next s
  | a :: rest => hostAct a { s with pending := rest }

/-- The command word `w`, of `nbits` bits, written to CMD as the host's very next action (log entry 2). -/
def State.withFetchWord (s : State) (nbits w : Nat) : State :=
  { s with pending := .cmd (BitVec.ofNat 32 (w % 2 ^ nbits)) :: s.pending }

end Sys2Proof.Machine
end

