-- ==== Sys2Proof/Machine/Assembler.lean ====
section
/-! DEFINITION. The assembler names of spec/30_encoding.md R91 to R93: a command as a mnemonic and operand tokens, its
assembly to a command word, the pseudo-instructions, and the host directive `memw`. Digits, commas and spaces are read before
this (log entry 17). -/

namespace Sys2Proof.Machine

/-- An operand token: a number, or one of the reference names of R91. -/
inductive AsmOperand where
  | num (n : Nat)
  | last | golden | altref
  deriving DecidableEq, Repr

/-- The value of a REF operand: `last` 1, `golden` 2, `altref` 3, or a number 1..3 (R91). -/
def refValue : AsmOperand → Option Nat
  | .num n => if 1 ≤ n ∧ n ≤ 3 then some n else none
  | .last => some 1
  | .golden => some 2
  | .altref => some 3

/-- The command word of a line (R91, R92); none where the syntax has no such line. -/
def assemble (mnemonic : String) (operands : List AsmOperand) : Option Word :=
  match mnemonic, operands with
  | "nop", [] => some 0x00000000
  | "bd.init", [] => some 0x01000000
  | "bd.bit", [.num p] => if p < 256 then some (0x02000000 ||| BitVec.ofNat 32 p) else none
  | "bd.uint", [.num p, .num n] =>
    if p < 256 ∧ n < 64 then some (0x03000000 ||| BitVec.ofNat 32 n <<< 8 ||| BitVec.ofNat 32 p) else none
  | "mvp.default", [] => some 0x10000000
  | "mvp.update", [] => some 0x11000000
  | "mv.comp", [.num c] => if c < 2 then some (0x12000000 ||| BitVec.ofNat 32 c) else none
  | "mv.read", [] => some 0x13000000
  | "mc.pred", [r] => (refValue r).map fun k => 0x20000000 ||| BitVec.ofNat 32 k
  | "mc.split", [r] => (refValue r).map fun k => 0x21000000 ||| BitVec.ofNat 32 k
  | "bd.lit", [.num n] => if n < 64 then some (0x03000080 ||| BitVec.ofNat 32 n <<< 8) else none
  | "bd.flag", [] => some 0x02000080
  | _, _ => none

/-- The reference name of a tag (R91). INTRA has none. -/
def refOperand : RefTag → AsmOperand
  | .intra => .num 0
  | .last => .last
  | .golden => .golden
  | .altref => .altref

/-- The line of a command (R91). -/
def asmLine : Instr → String × List AsmOperand
  | .nop => ("nop", [])
  | .bdInit => ("bd.init", [])
  | .bdReadBit prob => ("bd.bit", [.num prob.toNat])
  | .bdReadUint prob n => ("bd.uint", [.num prob.toNat, .num n.toNat])
  | .mvpLoadDefault => ("mvp.default", [])
  | .mvpUpdate => ("mvp.update", [])
  | .mvReadComponent comp => ("mv.comp", [.num comp.bits.toNat])
  | .mvRead => ("mv.read", [])
  | .mcPredict ref => ("mc.pred", [refOperand ref])
  | .mcPredictSplit ref => ("mc.split", [refOperand ref])

/-- `memw ADDR, B0 B1 ...` writes bytes to MEM from ADDR upward (R93). R93 does not say where the bytes go that run past address
0xFFFFFFFF: here they wrap to address 0 (DESIGN CHOICE, unsafe, log entry 19). -/
def memw (addr : Word) : List Byte → List HostAction
  | [] => []
  | b :: bs => .memWrite addr b :: memw (addr + 1) bs

end Sys2Proof.Machine
end

