-- ==== Sys2Proof/Safety.lean ====
section
/-! DEFINITION. What counts as a safe state and a safe run: the invariant of the machine, in the terms the claims use. -/

namespace Sys2Proof.Machine

/-- Every entry of a probability table is in [1, 255] (spec/41_mv_decoder.md R132). -/
abbrev mvpPositive (f : MvpFile) : Prop := (∀ j : Fin 19, f.get .y j ≠ 0) ∧ ∀ j : Fin 19, f.get .x j ≠ 0

/-- The parameter MVP_DEFAULT is in its domain: "Every entry is in [1, 255]" (R121; log entry 9). -/
abbrev configOk (c : Config) : Prop := mvpPositive c.mvpDefault

/-- The bound decoder's invariant (spec/40_bool_decoder.md R107, R108; spec/10_state.md R32, R33): BD_RANGE in [128, 255],
BD_VALUE < BD_RANGE * 256, the low BD_COUNT bits of BD_VALUE zeroed by the shifts, and BD_POS at most BD_END. -/
abbrev BdRegs.Bound (r : BdRegs) : Prop :=
  128 ≤ r.range.toNat ∧ r.value.toNat < r.range.toNat * 256 ∧ 2 ^ r.count.toNat ∣ r.value.toNat
    ∧ r.pos.toNat ≤ r.endAddr.toNat

/-- The same invariant of the integers a command computes with, with the field widths of BD_COUNT and BD_END. -/
abbrev Bd.Ok (b : Bd) : Prop :=
  128 ≤ b.range ∧ b.range ≤ 255 ∧ b.value < b.range * 256 ∧ 2 ^ b.count ∣ b.value ∧ b.count ≤ 7
    ∧ b.pos ≤ b.endAddr ∧ b.endAddr < 2 ^ 32

/-- The buffer can feed `k` more byte fetches: bytes are left, or reads past the end are zero-filled (R101). -/
abbrev CanFetch (s : State) (b : Bd) (k : Nat) : Prop :=
  s.config.bdTail = .zeroFill ∨ b.pos + k ≤ b.endAddr

/-- The invariant of every reachable state: MEM and WS in canonical form, the parameters in their domains, the MVP file in
[1, 255] (R132), and the decoder bound whenever BD_READY = 1 (R108). -/
structure Invariant (s : State) : Prop where
  mem : Memory.wf memSize s.mem
  ws : Memory.wf wsSize s.ws
  config : configOk s.config
  mvp : mvpPositive s.mvp
  bd : s.bdReady = true → s.bd.Bound

/-- The engine is halted by a fault (spec/60_exceptions.md R211). -/
abbrev Halted (s : State) : Prop := s.cause.isSome = true

/-- An action of the interface: any but a CSR access of another width than 32 bits (R67). -/
def HostAction.supported : HostAction → Bool
  | .csrOtherWidth _ _ => false
  | _ => true

/-- The commands that read bools and need BD_READY (spec/40_bool_decoder.md R100). -/
def readsStream : Instr → Bool
  | .bdReadBit _ => true
  | .bdReadUint _ _ => true
  | .mvpUpdate => true
  | .mvReadComponent _ => true
  | .mvRead => true
  | _ => false

/-- The commands that return a value in RESULT (spec/10_state.md R25). -/
def returnsValue : Instr → Bool
  | .bdReadBit _ => true
  | .bdReadUint _ _ => true
  | .mvReadComponent _ => true
  | .mvRead => true
  | _ => false

/-- The two motion-compensation commands with their tag. -/
def mcTag : Instr → Option RefTag
  | .mcPredict ref => some ref
  | .mcPredictSplit ref => some ref
  | _ => none

/-- Byte k of the buffer BD_INIT binds, 0 past its end (spec/40_bool_decoder.md R101, R102). -/
def bufferByte (s : State) (k : Nat) : Nat :=
  if k < s.bdSrcLen.toNat then (s.memByte (s.bdSrcBase.toNat + k)).toNat else 0

/-- The same state with other contents of MEM. -/
def State.withMem (s : State) (m : Memory) : State := { s with mem := m }

/-- The same state with other contents of WS. -/
def State.withWs (s : State) (m : Memory) : State := { s with ws := m }

/-- An address inside one of the three planes of a descriptor (spec/10_state.md R41 to R43). -/
def inPlanes (e : ChromaEdge) (d : RefDesc) (a : Nat) : Prop :=
  (d.yBase.toNat ≤ a ∧ a ≤ lastByte d.yBase.toNat d.yStride.toNat d.lumaW d.lumaH)
    ∨ (d.cbBase.toNat ≤ a ∧ a ≤ lastByte d.cbBase.toNat d.cStride.toNat (d.chromaW e) (d.chromaH e))
    ∨ (d.crBase.toNat ≤ a ∧ a ≤ lastByte d.crBase.toNat d.cStride.toNat (d.chromaW e) (d.chromaH e))

/-- The sum of row k of F6 over the samples at offsets -2 to 3, for the rows 0, 2, 4 and 6 that luma prediction uses, each tap
written out (spec/42_motion_comp.md R140, R144). -/
def tapSum (k : Nat) (a b c d e f : Int) : Int :=
  match k with
  | 2 => 2 * a - 11 * b + 108 * c + 36 * d - 8 * e + f
  | 4 => 3 * a - 16 * b + 77 * c + 77 * d - 16 * e + 3 * f
  | 6 => a - 8 * b + 36 * c + 108 * d - 11 * e + 2 * f
  | _ => 128 * c

/-- Reading the given probabilities in order from the decoder `b` gives the given bools and leaves the decoder `e`. -/
def ReadsBits (s : State) : List (Byte × Bool) → Bd → Bd → Prop
  | [], b, e => b = e
  | (p, bit) :: rest, b, e => ∃ b1, readBit s p b = .ok (bit, b1) ∧ ReadsBits s rest b1 e

/-- One entry of the probability update done by a host with BD_READ_BIT, BD_READ_UINT and a write of the MVP entry
(spec/41_mv_decoder.md R128); none where a read faults. -/
def entryByCommands (s : State) (c : Comp) (j : Fin 19) : Option State :=
  match exec (.bdReadBit (s.config.mvpUpdProb.get c j)) s with
  | .next t =>
    if t.bdReady = false then none
    else if t.result = 0 then some t
    else
      match exec (.bdReadUint 128 7) t with
      | .next u =>
        if u.bdReady = false then none
        else some { u with mvp := u.mvp.set c j (if u.result = 0 then 1 else (u.result * 2).setWidth 8) }
      | _ => none
  | _ => none

/-- The probability update of a list of entries, entry by entry with commands. -/
def updateByCommands : List (Comp × Fin 19) → State → Option State
  | [], s => some s
  | (c, j) :: rest, s => (entryByCommands s c j).bind (updateByCommands rest)

/-- A byte index of WS inside the three prediction regions (R45). -/
def inRegions (k : Nat) : Bool :=
  let row := k / 32
  let col := k % 32
  (decide (1 ≤ row) && decide (row ≤ 16) && decide (8 ≤ col) && decide (col ≤ 23))
    || (decide (18 ≤ row) && decide (row ≤ 25)
      && ((decide (8 ≤ col) && decide (col ≤ 15)) || (decide (24 ≤ col) && decide (col ≤ 31))))

end Sys2Proof.Machine
end

