-- ==== Sys2Proof/Certificates/Slice0/Obligations.lean ====
section
/-! DEFINITION. The statements for the provers, one `def Obligations.<Name> : Prop` each; OBLIGATIONS.json lists them. -/

open Sys2Proof Sys2Proof.Machine

/-! ### Reset and invariants -/

/-- R230, Table 2: every CSR address of the state after reset reads its reset value, MVP entries their defaults (R121), all else 0;
no byte of MEM or WS has been written. -/
def Obligations.ResetStateReadsTable2 : Prop :=
  (∀ addr : Byte, State.reset.readCsrAddr addr =
      match csrAt addr with
      | some (.mvp c j) => (mvpDefaultTable.get c j).setWidth 32
      | _ => 0)
    ∧ State.reset.cause = none ∧ State.reset.bdReady = false ∧ State.reset.faultOut = false
    ∧ State.reset.mem = [] ∧ State.reset.ws = []

/-- R230 to R232: reset as a host action, from any state. Every CSR reads its reset value, MEM and the parameters stay, WS bytes
are those of a fresh draw (unspecified), and a fault is cleared. The host's later actions stay (the model's choice, log entry 14). -/
def Obligations.ResetActionRestoresTable2 : Prop :=
  ∀ (s : State) (rest : List HostAction), s.pending = .reset :: rest →
    ∃ t, step s = .next t
      ∧ (∀ addr : Byte, t.readCsrAddr addr =
          match csrAt addr with
          | some (.mvp c j) => (s.config.mvpDefault.get c j).setWidth 32
          | _ => 0)
      ∧ t.cause = none ∧ t.bdReady = false ∧ t.mem = s.mem ∧ t.config = s.config ∧ t.pending = rest
      ∧ ∀ k, t.wsByte k = Config.freeWsByte s.draws k

/-- The state after reset meets the invariant. -/
def Obligations.ResetStateMeetsInvariant : Prop := Invariant State.reset

/-- Every step from every state that meets the invariant gives one that meets it: MEM and WS stay in canonical form, every MVP
entry stays in [1, 255] (R132), and while BD_READY = 1 the decoder stays bound: BD_RANGE in [128, 255],
BD_VALUE < BD_RANGE * 256, its low BD_COUNT bits zero (R108). -/
def Obligations.StepKeepsInvariant : Prop :=
  ∀ s t : State, Invariant s → step s = .next t → Invariant t

/-- R226, R239: whatever finite sequence of supported actions the host takes, no step of the run stops: every command
completes or enters the halted state, and the invariant holds at the end. -/
def Obligations.RunNeverStops : Prop :=
  ∀ (k : Nat) (s : State), Invariant s → (∀ a ∈ s.pending, a.supported = true) →
    ∃ t : State, Host.Core.run Sys2Proof.core k s = .next t ∧ Invariant t

/-- R67, R182, R239, I8: from every state that meets the invariant the one step that stops is a CSR access of another width than 32
bits, which is refused by name; every other action, and every command, gives a next state. -/
def Obligations.StepStopsOnlyOnNarrowCsrAccess : Prop :=
  ∀ s : State, Invariant s →
    (∀ r, step s ≠ .fault r)
    ∧ ∀ r, step s = .refused r ↔ r = .csrAccessWidth ∧ ∃ addr bits rest, s.pending = .csrOtherWidth addr bits :: rest

/-! ### Encoding -/

/-- R82 to R86: decoding the word of any command, every operand at every value its field holds, gives the command back, and each
command has that one word: a word that decodes to a command is the command's encoding. -/
def Obligations.DecodeOfEncode : Prop :=
  (∀ i : Instr, decode (encode i) = .instr i) ∧ ∀ (w : Word) (i : Instr), decode w = .instr i → encode i = w

/-- R82 to R86, R204, R205 (a): the two rejections of the decoder, by opcode and by must-be-zero bits. The must-be-zero half is the
model's reading (log entry 7, DEDUCED): it follows the formats of R82 to R86 and the comment of R87, not the letter of R87's
formula. -/
def Obligations.DecoderRejectsByName : Prop :=
  ∀ w : Word,
    (decode w = .illegalOpcode ↔
      w.toNat / 2 ^ 24 ∉ [0x00, 0x01, 0x02, 0x03, 0x10, 0x11, 0x12, 0x13, 0x20, 0x21])
    ∧ (decode w = .illegalOperand ↔
      (w.toNat / 2 ^ 24 ∈ [0x00, 0x01, 0x10, 0x11, 0x13] ∧ w.toNat % 2 ^ 24 ≠ 0)
      ∨ (w.toNat / 2 ^ 24 = 0x02 ∧ 2 ^ 8 ≤ w.toNat % 2 ^ 24)
      ∨ (w.toNat / 2 ^ 24 = 0x03 ∧ 2 ^ 14 ≤ w.toNat % 2 ^ 24)
      ∨ (w.toNat / 2 ^ 24 = 0x12 ∧ 2 ≤ w.toNat % 2 ^ 24)
      ∨ (w.toNat / 2 ^ 24 ∈ [0x20, 0x21] ∧ 4 ≤ w.toNat % 2 ^ 24))

/-- Words written out from R82 to R86 and R91 decode to the commands they stand for. -/
def Obligations.SpecWordsDecode : Prop :=
  decode 0x00000000 = .instr .nop ∧ decode 0x01000000 = .instr .bdInit
    ∧ decode 0x02000080 = .instr (.bdReadBit 128) ∧ decode 0x030008C8 = .instr (.bdReadUint 200 8)
    ∧ decode 0x11000000 = .instr .mvpUpdate ∧ decode 0x12000001 = .instr (.mvReadComponent .x)
    ∧ decode 0x20000001 = .instr (.mcPredict .last) ∧ decode 0x21000002 = .instr (.mcPredictSplit .golden)

/-- R91, R92: assembling a well-formed command's line gives its command word, and the pseudo-instructions expand to one command. -/
def Obligations.AssemblyGivesCommandWord : Prop :=
  (∀ i : Instr, i.wf = true → assemble (asmLine i).1 (asmLine i).2 = some (encode i))
    ∧ (∀ n : BitVec 6, assemble "bd.lit" [.num n.toNat] = some (encode (Instr.bdLit n)))
    ∧ assemble "bd.flag" [] = some (encode Instr.bdFlag)

/-! ### The command step and the faults -/

/-- R181: a step whose next host action writes a word to CMD, while FAULT = 0, runs the command the word decodes to, on the
state with that action taken. -/
def Obligations.StepRunsDecodedCommand : Prop :=
  ∀ (s : State) (w : Word) (rest : List HostAction) (i : Instr),
    s.pending = .cmd w :: rest → s.cause = none → decode w = .instr i →
    step s = exec i { s with pending := rest }

/-- R204, R205, R209: a word with an unassigned opcode, or an assigned one and a must-be-zero bit set, raises its fault and changes
nothing else. Which words have such a bit set is the model's reading (log entry 7, DEDUCED). -/
def Obligations.IllegalWordRaises : Prop :=
  ∀ (s : State) (w : Word) (rest : List HostAction), s.pending = .cmd w :: rest → s.cause = none →
    (decode w = .illegalOpcode →
      step s = .next { s with cause := some .illegalOpcode, faultCmd := w, pending := rest })
    ∧ (decode w = .illegalOperand →
      step s = .next { s with cause := some .illegalOperand, faultCmd := w, pending := rest })

/-- R88, R214: an operand value R88 refuses (n > 32, ref = 0) raises ILLEGAL_OPERAND in every state, ready or not, registered
frame or not, and changes nothing else. -/
def Obligations.BadOperandValueRaises : Prop :=
  ∀ (i : Instr) (s : State), i.wf = false →
    exec i s = .next { s with cause := some .illegalOperand, faultCmd := encode i }

/-- R100, R206, R214: a read command with operand values R88 allows, while BD_READY = 0, raises BD_NOT_READY and changes nothing
else. -/
def Obligations.ReadBeforeInitRaises : Prop :=
  ∀ (i : Instr) (s : State), readsStream i = true → i.wf = true → s.bdReady = false →
    exec i s = .next { s with cause := some .bdNotReady, faultCmd := encode i }

/-- R211: while FAULT = 1 every word written to CMD is dropped with no effect, whatever it decodes to; FAULT_CMD and CAUSE keep
the first fault. -/
def Obligations.HaltedCommandDropped : Prop :=
  ∀ (s : State) (w : Word) (rest : List HostAction), Halted s → s.pending = .cmd w :: rest →
    step s = .next { s with pending := rest }

/-- R212: a host write to STATUS with bit 0 = 1 clears FAULT and CAUSE and changes nothing else; one with bit 0 = 0 does
nothing; reset also clears the fault. -/
def Obligations.StatusWriteClearsFault : Prop :=
  ∀ (s : State) (rest : List HostAction),
    (∀ v : Word, s.pending = .csrWrite 0 v :: rest →
      (v.getLsbD 0 = true → step s = .next { s with cause := none, pending := rest })
      ∧ (v.getLsbD 0 = false → step s = .next { s with pending := rest }))
    ∧ (s.pending = .reset :: rest → ∃ t, step s = .next t ∧ t.cause = none)

/-- R211 to R213: a fault record stays, cause and command word, through every step but a write of STATUS with bit 0 = 1 and a
reset. -/
def Obligations.FaultPersistsUntilCleared : Prop :=
  ∀ (s t : State) (c : Cause), s.cause = some c → step s = .next t →
    (t.cause = some c ∧ t.faultCmd = s.faultCmd)
    ∨ (∃ v rest, s.pending = .csrWrite 0 v :: rest ∧ v.getLsbD 0 = true)
    ∨ (∃ rest, s.pending = .reset :: rest)

/-- R209, R210: what a faulting command has done. It records its cause and its word, and writes no RESULT, MISSREF, WS or MEM;
but for TRUNCATED and BAD_STREAM nothing else changes; those two clear BD_READY, leave the BD registers unspecified (no value is
stated), and keep every other register, the MVP file too unless the command is MVP_UPDATE. -/
def Obligations.FaultingCommandEffects : Prop :=
  ∀ (i : Instr) (s t : State) (c : Cause), s.cause = none → exec i s = .next t → t.cause = some c →
    t.faultCmd = encode i ∧ t.result = s.result ∧ t.missref = s.missref ∧ t.ws = s.ws ∧ t.mem = s.mem
    ∧ (c ≠ .truncated → c ≠ .badStream → t = { s with cause := some c, faultCmd := encode i })
    ∧ (c = .truncated ∨ c = .badStream →
        ∃ r d f, t = { s with cause := some c, faultCmd := encode i, bdReady := false, bd := r, draws := d, mvp := f }
          ∧ (i ≠ .mvpUpdate → f = s.mvp))

/-- R201, column "raised by": which commands raise which cause. -/
def Obligations.CausesRaisedByTheirCommands : Prop :=
  ∀ (i : Instr) (s t : State), s.cause = none → exec i s = .next t →
    (t.cause = some .truncated → (i = .bdInit ∨ readsStream i = true) ∧ s.config.bdTail = .fault)
    ∧ (t.cause = some .badStream → i = .bdInit)
    ∧ t.cause ≠ some .illegalOpcode
    ∧ (t.cause = some .bdNotReady → readsStream i = true ∧ s.bdReady = false)
    ∧ (t.cause = some .badRefDesc → (mcTag i).isSome = true)

/-! ### Frames of all commands -/

/-- What no command writes, whatever its outcome: MEM (R60), the parameters, MB_POS, MBMV and SUBMV (R27 to R29), BD_SRC_BASE and
BD_SRC_LEN, the descriptors, and the host's side. -/
def Obligations.CommandsKeepHostRegisters : Prop :=
  ∀ (i : Instr) (s t : State), exec i s = .next t →
    t.mem = s.mem ∧ t.config = s.config ∧ t.mbPos = s.mbPos ∧ t.mbmv = s.mbmv ∧ t.submv = s.submv
    ∧ t.bdSrcBase = s.bdSrcBase ∧ t.bdSrcLen = s.bdSrcLen ∧ t.refs = s.refs
    ∧ t.pending = s.pending ∧ t.hostRead = s.hostRead

/-- R23 to R26, R38: which commands write RESULT, MISSREF, the MVP file, BD_READY and the BD registers; FAULT_CMD is written only
by a fault. -/
def Obligations.RegisterWriters : Prop :=
  ∀ (i : Instr) (s t : State), exec i s = .next t →
    (returnsValue i = false → t.result = s.result)
    ∧ (mcTag i = none → t.missref = s.missref)
    ∧ (i ≠ .mvpUpdate → i ≠ .mvpLoadDefault → t.mvp = s.mvp)
    ∧ (i ≠ .bdInit → t.bdReady = true → s.bdReady = true)
    ∧ (i ≠ .bdInit → readsStream i = false → t.bd = s.bd ∧ t.bdReady = s.bdReady)
    ∧ (s.cause = none → t.cause = none → t.faultCmd = s.faultCmd)

/-- R45: a command changes no byte of WS outside the three prediction regions, and only the two MC commands change any. -/
def Obligations.WorkspaceFrame : Prop :=
  ∀ (i : Instr) (s t : State), exec i s = .next t →
    (∀ k, inRegions k = false → t.wsByte k = s.wsByte k)
    ∧ (mcTag i = none → ∀ k, t.wsByte k = s.wsByte k)

/-! ### NOP and the Boolean decoder -/

/-- R180: NOP changes nothing, whatever the state; a word 0x00xxxxxx with a bit set in 23:0 is ILLEGAL_OPERAND. -/
def Obligations.NopChangesNothing : Prop :=
  (∀ s : State, exec .nop s = .next s)
    ∧ ∀ w : Word, w.toNat / 2 ^ 24 = 0 → w.toNat ≠ 0 → decode w = .illegalOperand

/-- R102: BD_INIT on a buffer inside the address space whose first byte is not 0xFF, with two bytes or zero fill. -/
def Obligations.BdInitBindsBuffer : Prop :=
  ∀ s : State,
    s.bdSrcBase.toNat + s.bdSrcLen.toNat < 2 ^ 32 →
    2 ≤ s.bdSrcLen.toNat ∨ s.config.bdTail = .zeroFill →
    bufferByte s 0 ≠ 0xFF →
    exec .bdInit s = .next
      { s with
        bdReady := true
        bd :=
          { value := BitVec.ofNat 16 (bufferByte s 0 * 256 + bufferByte s 1)
            range := 255
            count := 0
            pos := s.bdSrcBase + BitVec.ofNat 32 (min 2 s.bdSrcLen.toNat)
            endAddr := s.bdSrcBase + s.bdSrcLen.setWidth 32 } }

/-- R102, R210, R214: the faults of BD_INIT, in their order: the bound (nothing changed), TRUNCATED for fewer than two bytes, and
BAD_STREAM for a first byte 0xFF. After the last two BD_READY = 0 and the BD registers are unspecified (no value is stated). -/
def Obligations.BdInitFaults : Prop :=
  ∀ s : State,
    (2 ^ 32 ≤ s.bdSrcBase.toNat + s.bdSrcLen.toNat →
      exec .bdInit s = .next { s with cause := some .illegalOperand, faultCmd := 0x01000000 })
    ∧ (s.bdSrcBase.toNat + s.bdSrcLen.toNat < 2 ^ 32 → s.bdSrcLen.toNat < 2 → s.config.bdTail = .fault →
      ∃ r d, exec .bdInit s = .next
        { s with cause := some .truncated, faultCmd := 0x01000000, bdReady := false, bd := r, draws := d })
    ∧ (s.bdSrcBase.toNat + s.bdSrcLen.toNat < 2 ^ 32 → 2 ≤ s.bdSrcLen.toNat ∨ s.config.bdTail = .zeroFill →
      bufferByte s 0 = 0xFF →
      ∃ r d, exec .bdInit s = .next
        { s with cause := some .badStream, faultCmd := 0x01000000, bdReady := false, bd := r, draws := d })

/-- R103, R105: BD_READ_BIT on a bound decoder. The bit is 1 iff BD_VALUE reaches the split; the chosen sub-interval is doubled k
times into [128, 255]; when the shift count passes 8 a byte enters at its place, zero-filled or TRUNCATED at the end of the buffer. -/
def Obligations.ReadBitDecodesOneBool : Prop :=
  ∀ (prob : Byte) (s : State), s.bdReady = true → s.bd.Bound →
    let v := s.bd.value.toNat
    let r := s.bd.range.toNat
    let c := s.bd.count.toNat
    let split := 1 + (r - 1) * prob.toNat / 256
    let bit : Word := if split * 256 ≤ v then 1 else 0
    let r' := if split * 256 ≤ v then r - split else split
    let v' := if split * 256 ≤ v then v - split * 256 else v
    ∃ k ≤ 7, 128 ≤ r' * 2 ^ k ∧ r' * 2 ^ k ≤ 255
      ∧ (c + k < 8 →
          exec (.bdReadBit prob) s = .next
            { s with
              result := bit
              bd := { s.bd with
                value := BitVec.ofNat 16 (v' * 2 ^ k)
                range := BitVec.ofNat 8 (r' * 2 ^ k)
                count := BitVec.ofNat 3 (c + k) } })
      ∧ (8 ≤ c + k → s.bd.pos.toNat < s.bd.endAddr.toNat →
          exec (.bdReadBit prob) s = .next
            { s with
              result := bit
              bd := { s.bd with
                value := BitVec.ofNat 16 (v' * 2 ^ k + (s.memByte s.bd.pos.toNat).toNat * 2 ^ (c + k - 8))
                range := BitVec.ofNat 8 (r' * 2 ^ k)
                count := BitVec.ofNat 3 (c + k - 8)
                pos := s.bd.pos + 1 } })
      ∧ (8 ≤ c + k → s.bd.endAddr.toNat ≤ s.bd.pos.toNat → s.config.bdTail = .zeroFill →
          exec (.bdReadBit prob) s = .next
            { s with
              result := bit
              bd := { s.bd with
                value := BitVec.ofNat 16 (v' * 2 ^ k)
                range := BitVec.ofNat 8 (r' * 2 ^ k)
                count := BitVec.ofNat 3 (c + k - 8) } })
      ∧ (8 ≤ c + k → s.bd.endAddr.toNat ≤ s.bd.pos.toNat → s.config.bdTail = .fault →
          ∃ x d, exec (.bdReadBit prob) s = .next
            { s with
              cause := some .truncated, faultCmd := encode (.bdReadBit prob), bdReady := false, bd := x, draws := d })

/-- R107: whenever readBit starts, with BD_RANGE in [128, 255], both sub-intervals of the split are non-empty, for every prob. -/
def Obligations.SplitIsAlwaysValid : Prop :=
  ∀ range prob : Nat, 128 ≤ range → range ≤ 255 → prob ≤ 255 →
    1 ≤ splitOf range prob ∧ splitOf range prob ≤ range - 1

/-- R104, R106: BD_READ_UINT is n times BD_READ_BIT, most significant bit first: where the bit and then the rest complete, so does
the literal one bit longer, with RESULT = bit * 2^k + rest and the same decoder; n = 0 gives RESULT 0 and reads nothing. -/
def Obligations.ReadUintIsReadBits : Prop :=
  ∀ (prob : Byte) (s : State), s.bdReady = true → s.bd.Bound →
    exec (.bdReadUint prob 0) s = .next { s with result := 0 }
    ∧ ∀ (k : Nat) (t u : State), k < 32 →
      exec (.bdReadBit prob) s = .next t → t.bdReady = true →
      exec (.bdReadUint prob (BitVec.ofNat 6 k)) t = .next u → u.bdReady = true →
      exec (.bdReadUint prob (BitVec.ofNat 6 (k + 1))) s = .next
        { u with result := BitVec.ofNat 32 (t.result.toNat * 2 ^ k + u.result.toNat) }

/-- R106: BD_READ_UINT completes, with a value below 2^n and the decoder still bound, while n more bytes are left or zero-filled. -/
def Obligations.ReadUintCompletes : Prop :=
  ∀ (prob : Byte) (n : BitVec 6) (s : State), s.bdReady = true → s.bd.Bound → n.toNat ≤ 32 →
    CanFetch s s.bd.toBd n.toNat →
    ∃ (u : Nat) (r : BdRegs), exec (.bdReadUint prob n) s = .next { s with result := BitVec.ofNat 32 u, bd := r }
      ∧ u < 2 ^ n.toNat ∧ r.Bound ∧ r.endAddr = s.bd.endAddr

/-- R46, R72: a read command sees no byte of MEM outside [BD_POS, BD_END): with those bytes the same, other contents of MEM change
nothing in its outcome. The clause on a fault speaks of states that no run reaches (log entry 13). -/
def Obligations.ReadsSeeOnlyBufferAhead : Prop :=
  ∀ (i : Instr) (s : State) (m : Memory), readsStream i = true →
    (∀ a, s.bd.pos.toNat ≤ a → a < s.bd.endAddr.toNat → (s.withMem m).memByte a = s.memByte a) →
    (∀ t, exec i s = .next t → exec i (s.withMem m) = .next (t.withMem m))
    ∧ (∀ r, exec i s = .fault r → exec i (s.withMem m) = .fault r)

/-! ### The MV-component decoder -/

/-- R127: MVP_LOAD_DEFAULT loads MVP_DEFAULT into both vectors and changes nothing else, ready or not; issuing it twice is the same
as once; its word with a bit set in 23:0 is ILLEGAL_OPERAND. -/
def Obligations.MvpLoadDefaultLoadsTable : Prop :=
  (∀ s : State, exec .mvpLoadDefault s = .next { s with mvp := s.config.mvpDefault })
    ∧ (∀ s t : State, exec .mvpLoadDefault s = .next t → exec .mvpLoadDefault t = .next t)
    ∧ (∀ w : Word, w.toNat / 2 ^ 24 = 0x10 → w.toNat % 2 ^ 24 ≠ 0 → decode w = .illegalOperand)

/-- R128, R132: MVP_UPDATE completes while 304 bytes are left or zero-filled; it writes the MVP file and the BD registers only, and
every entry holds its old value, or 1, or 2x for some x in 1..127. -/
def Obligations.MvpUpdateCompletes : Prop :=
  ∀ s : State, s.bdReady = true → s.bd.Bound → CanFetch s s.bd.toBd 304 →
    ∃ (f : MvpFile) (r : BdRegs), exec .mvpUpdate s = .next { s with mvp := f, bd := r } ∧ r.Bound
      ∧ ∀ c j, f.get c j = s.mvp.get c j ∨ f.get c j = 1
        ∨ ∃ x, 1 ≤ x ∧ x ≤ 127 ∧ f.get c j = BitVec.ofNat 8 (2 * x)

/-- R128: where a host that does the update entry by entry, component 0 first and j ascending, each a BD_READ_BIT with the entry's
update probability and, for a 1, a 7-bit BD_READ_UINT under 128, meets no fault, MVP_UPDATE does the same, RESULT unchanged. -/
def Obligations.MvpUpdateIsEntryCommands : Prop :=
  ∀ s t : State, s.bdReady = true → s.bd.Bound → updateByCommands mvpEntries s = some t →
    exec .mvpUpdate s = .next { t with result := s.result }

/-- R128, R210: on TRUNCATED in MVP_UPDATE, the entries whose value was read completely before the fault hold their new values and
all others their old ones: the file is the one the entries before the faulting one leave. -/
def Obligations.TruncatedUpdateKeepsPrefix : Prop :=
  ∀ s t : State, s.bdReady = true → s.bd.Bound → s.cause = none → exec .mvpUpdate s = .next t → t.cause = some .truncated →
    ∃ n u, n < 38 ∧ updateByCommands (mvpEntries.take n) s = some u ∧ updateByCommands (mvpEntries.take (n + 1)) s = none
      ∧ t.mvp = u.mvp ∧ t.bdReady = false ∧ t.result = s.result

/-- R123: the short tree codes a magnitude m in 0..7 by the three bits of m, most significant first, with the probabilities
p[2], then p[3] or p[6], then p[4], p[5], p[7] or p[8], chosen by the bits before. -/
def Obligations.ShortTreeCodesMagnitude : Prop :=
  ∀ (s : State) (p : Vector Byte 19) (b e : Bd) (m : Nat),
    shortTree s p b = .ok (m, e) ↔
      m < 8 ∧ ReadsBits s
        [ (p[2], m.testBit 2),
          (if m.testBit 2 then p[6] else p[3], m.testBit 1),
          (if m.testBit 2 then (if m.testBit 1 then p[8] else p[7]) else (if m.testBit 1 then p[5] else p[4]),
            m.testBit 0) ] b e

/-- R124: the DOC long path codes every magnitude m in 8..1031 by the ten bits of m - 8, bits 9, 8, 7 under p[9..11] and bits 6 to 0
under p[12..18], and no other magnitude. -/
def Obligations.LongDocCodesMagnitude : Prop :=
  ∀ (s : State) (p : Vector Byte 19) (b e : Bd) (m : Nat),
    longDoc s p b = .ok (m, e) ↔
      8 ≤ m ∧ m ≤ 1031 ∧ ReadsBits s
        [ (p[9], (m - 8).testBit 9), (p[10], (m - 8).testBit 8), (p[11], (m - 8).testBit 7), (p[12], (m - 8).testBit 6),
          (p[13], (m - 8).testBit 5), (p[14], (m - 8).testBit 4), (p[15], (m - 8).testBit 3), (p[16], (m - 8).testBit 2),
          (p[17], (m - 8).testBit 1), (p[18], (m - 8).testBit 0) ] b e

/-- R125: the RFC long path codes every magnitude m in 8..1023 by bits 0, 1, 2 under p[9..11], bits 9 down to 4 under p[18..13], and
bit 3 under p[12] only when m is 16 or more, and no other magnitude. -/
def Obligations.LongRfcCodesMagnitude : Prop :=
  ∀ (s : State) (p : Vector Byte 19) (b e : Bd) (m : Nat),
    longRfc s p b = .ok (m, e) ↔
      8 ≤ m ∧ m ≤ 1023 ∧ ReadsBits s
        ([ (p[9], m.testBit 0), (p[10], m.testBit 1), (p[11], m.testBit 2), (p[18], m.testBit 9), (p[17], m.testBit 8),
          (p[16], m.testBit 7), (p[15], m.testBit 6), (p[14], m.testBit 5), (p[13], m.testBit 4) ]
          ++ if m < 16 then [] else [(p[12], m.testBit 3)]) b e

/-- R126, R129, R133: MV_READ_COMPONENT completes while twelve bytes are left or zero-filled. RESULT is the component as a 32-bit
two's-complement word, unscaled: an is-long bool under p[0], the magnitude of that path, and, unless it is 0, the sign under p[1],
with MVP0 for component 0 and MVP1 for component 1; at most 1031 (DOC) or 1023 (RFC) in magnitude. -/
def Obligations.MvReadComponentReturnsComponent : Prop :=
  ∀ (comp : Comp) (s : State), s.bdReady = true → s.bd.Bound → CanFetch s s.bd.toBd 12 →
    let p := match comp with
      | .y => s.mvp.y
      | .x => s.mvp.x
    ∃ (isLong neg : Bool) (m : Nat) (b1 b2 b3 : Bd),
      readBit s p[0] s.bd.toBd = .ok (isLong, b1)
      ∧ (if isLong then
          match s.config.mvLongOrder with
          | .doc => longDoc s p b1
          | .rfc => longRfc s p b1
        else shortTree s p b1) = .ok (m, b2)
      ∧ (if m = 0 then (neg, b3) = (false, b2) else readBit s p[1] b2 = .ok (neg, b3))
      ∧ exec (.mvReadComponent comp) s = .next
          { s with result := BitVec.ofInt 32 (if neg then -(m : Int) else (m : Int)), bd := b3.toRegs }
      ∧ b3.Ok
      ∧ m ≤ (match s.config.mvLongOrder with
        | .doc => 1031
        | .rfc => 1023)

/-- R130: MV_READ is MV_READ_COMPONENT of component 0 (y) and then of component 1 (x), each result times MV_SCALE, packed
`{trunc_16(y), trunc_16(x)}`, where both complete. -/
def Obligations.MvReadIsTwoComponents : Prop :=
  ∀ s t u : State, s.bdReady = true → s.bd.Bound →
    exec (.mvReadComponent .y) s = .next t → t.bdReady = true →
    exec (.mvReadComponent .x) t = .next u → u.bdReady = true →
    exec .mvRead s = .next
      { u with
        result := BitVec.ofInt 16 (t.result.toInt * s.config.mvScale.factor)
          ++ BitVec.ofInt 16 (u.result.toInt * s.config.mvScale.factor) }

/-- R130, R133: MV_READ completes while 24 bytes are left or zero-filled, and `trunc_16` loses nothing: the fields of RESULT, read as
`sext_16`, are MV_SCALE times the components decoded, y first and then x from the decoder it leaves, of magnitude at most 1031; at
MV_SCALE = 4 both fields have no quarter-pixel fraction. -/
def Obligations.MvReadFieldsAreExact : Prop :=
  ∀ s : State, s.bdReady = true → s.bd.Bound → CanFetch s s.bd.toBd 24 →
    ∃ (y x : Int) (b1 b2 : Bd) (w : Word),
      readComponent s .y s.bd.toBd = .ok (y, b1) ∧ readComponent s .x b1 = .ok (x, b2)
      ∧ exec .mvRead s = .next { s with result := w, bd := b2.toRegs } ∧ b2.Ok
      ∧ mvY w = y * s.config.mvScale.factor ∧ mvX w = x * s.config.mvScale.factor
      ∧ -1031 ≤ y ∧ y ≤ 1031 ∧ -1031 ≤ x ∧ x ≤ 1031
      ∧ (s.config.mvScale = .four → mvY w % 4 = 0 ∧ mvX w % 4 = 0)

/-! ### Motion compensation -/

/-- R150: an MC command whose tag names no registered frame (VALID = 0) sets every byte of the three prediction regions to 128,
adds 1 to MISSREF modulo 2^32, and changes nothing else; it is no fault. -/
def Obligations.MissingReferenceFills : Prop :=
  ∀ (i : Instr) (ref : RefTag) (t : FrameTag) (s : State), mcTag i = some ref → frameOf ref = some t →
    (s.refs.get t).valid = false →
    ∃ m, exec i s = .next { s with ws := m, missref := s.missref + 1 }
      ∧ ∀ k, k < 832 → (s.withWs m).wsByte k = if inRegions k then 128 else s.wsByte k

/-- R155, R207: an MC command whose tag names a VALID descriptor that is not well-formed raises BAD_REF_DESC and changes nothing
else. -/
def Obligations.BadDescriptorRaises : Prop :=
  ∀ (i : Instr) (ref : RefTag) (t : FrameTag) (s : State), mcTag i = some ref → frameOf ref = some t →
    (s.refs.get t).valid = true → (s.refs.get t).wellFormed s.config.chromaEdge = false →
    exec i s = .next { s with cause := some .badRefDesc, faultCmd := encode i }

/-- R152 with R142, R143, R148, R149, R151: MC_PREDICT on a VALID, well-formed descriptor writes the prediction of every luma, Cb
and Cr byte of the macroblock, at its place (R45), and changes nothing else. -/
def Obligations.McPredictWritesPrediction : Prop :=
  ∀ (ref : RefTag) (t : FrameTag) (s : State), frameOf ref = some t → (s.refs.get t).valid = true →
    (s.refs.get t).wellFormed s.config.chromaEdge = true →
    let d := s.refs.get t
    let vx := mvX s.mbmv
    let vy := mvY s.mbmv
    let gated : Prop := s.config.chromaFastpath = .lumaGated ∧ vx % 4 = 0 ∧ vy % 4 = 0
    ∃ m, exec (.mcPredict ref) s = .next { s with ws := m }
      ∧ (∀ i j : Nat, i < 16 → j < 16 →
          (s.withWs m).wsByte ((1 + i) * 32 + (8 + j)) = BitVec.ofInt 8
            (luma6 s d (16 * s.mbx + j + vx / 4) (16 * s.mby + i + vy / 4) (2 * (vx % 4)).toNat (2 * (vy % 4)).toNat))
      ∧ (∀ i j : Nat, i < 8 → j < 8 → ∀ gx gy : Int,
          (gated → gx = 0 ∧ gy = 0) → (¬ gated → gx = vx % 8 ∧ gy = vy % 8) →
          (s.withWs m).wsByte ((18 + i) * 32 + (8 + j)) = BitVec.ofInt 8
            (bil s d .cb (8 * s.mbx + j + vx / 8) (8 * s.mby + i + vy / 8) gx gy)
          ∧ (s.withWs m).wsByte ((18 + i) * 32 + (24 + j)) = BitVec.ofInt 8
            (bil s d .cr (8 * s.mbx + j + vx / 8) (8 * s.mby + i + vy / 8) gx gy))
      ∧ ∀ k, inRegions k = false → (s.withWs m).wsByte k = s.wsByte k

/-- R154 with R148, R149, R153: MC_PREDICT_SPLIT on a VALID, well-formed descriptor writes every luma byte with the MV of its 4 x 4
sub-block and every chroma byte with its quadrant's mean MV, never gated, and changes nothing else. -/
def Obligations.McSplitWritesPrediction : Prop :=
  ∀ (ref : RefTag) (t : FrameTag) (s : State), frameOf ref = some t → (s.refs.get t).valid = true →
    (s.refs.get t).wellFormed s.config.chromaEdge = true →
    let d := s.refs.get t
    ∃ m, exec (.mcPredictSplit ref) s = .next { s with ws := m }
      ∧ (∀ (i j : Nat) (hi : i < 16) (hj : j < 16),
          let v := s.submv[4 * (i / 4) + j / 4]
          (s.withWs m).wsByte ((1 + i) * 32 + (8 + j)) = BitVec.ofInt 8
            (luma6 s d (16 * s.mbx + j + mvX v / 4) (16 * s.mby + i + mvY v / 4)
              (2 * (mvX v % 4)).toNat (2 * (mvY v % 4)).toNat))
      ∧ (∀ i j : Nat, i < 8 → j < 8 →
          let cx := splitChroma s mvX (i / 4) (j / 4)
          let cy := splitChroma s mvY (i / 4) (j / 4)
          (s.withWs m).wsByte ((18 + i) * 32 + (8 + j)) = BitVec.ofInt 8
            (bil s d .cb (8 * s.mbx + j + cx / 8) (8 * s.mby + i + cy / 8) (cx % 8) (cy % 8))
          ∧ (s.withWs m).wsByte ((18 + i) * 32 + (24 + j)) = BitVec.ofInt 8
            (bil s d .cr (8 * s.mbx + j + cx / 8) (8 * s.mby + i + cy / 8) (cx % 8) (cy % 8)))
      ∧ ∀ k, inRegions k = false → (s.withWs m).wsByte k = s.wsByte k

/-- R153: the chroma MV of a quadrant is the mean of the MVs of blocks k0, k0 + 1, k0 + 4, k0 + 5, k0 = 8 ci + 2 cj, rounded by
`(sum + 2) >> 2` with the floor shift, so that a mean ending in .5 rounds up for either sign. -/
def Obligations.SplitChromaMvIsRoundedMean : Prop :=
  ∀ (s : State) (ci cj : Nat) (hi : ci < 2) (hj : cj < 2),
    let k0 := 8 * ci + 2 * cj
    let sum (f : Word → Int) : Int := f s.submv[k0] + f s.submv[k0 + 1] + f s.submv[k0 + 4] + f s.submv[k0 + 5]
    (4 * splitChroma s mvX ci cj ≤ sum mvX + 2 ∧ sum mvX + 2 < 4 * splitChroma s mvX ci cj + 4)
    ∧ (4 * splitChroma s mvY ci cj ≤ sum mvY + 2 ∧ sum mvY + 2 < 4 * splitChroma s mvY ci cj + 4)

/-- R156: the luma filter at phase 0 in both axes and the bilinear filter at phase 0 reproduce the sample, under either
LUMA_ROUNDING, and phase-1 filtering with row 0 is the shortcut of copying the sample shifted left by 7. -/
def Obligations.PhaseZeroIsIdentity : Prop :=
  ∀ (s : State) (d : RefDesc) (x y : Int),
    luma6 s d x y 0 0 = lumaSample s d x y
    ∧ (∀ p, bil s d p x y 0 0 = chromaSample s d p x y)
    ∧ ∀ r : Nat, r < 6 →
      sixTap 0 (fun u => lumaSample s d (x + u - 2) (y + r - 2)) = lumaSample s d x (y + r - 2) * 2 ^ 7

/-- R157: with both luma fractions 0, MC_PREDICT's luma is a direct copy at the whole-pixel offset; its chroma is a direct copy when
both chroma phases are 0, or under LUMA_GATED; with MBMV = (0, 0) every byte is the co-located sample. -/
def Obligations.IntegerMvCopies : Prop :=
  ∀ (ref : RefTag) (t : FrameTag) (s : State), frameOf ref = some t → (s.refs.get t).valid = true →
    (s.refs.get t).wellFormed s.config.chromaEdge = true →
    let d := s.refs.get t
    let vx := mvX s.mbmv
    let vy := mvY s.mbmv
    vx % 4 = 0 → vy % 4 = 0 →
    ∃ m, exec (.mcPredict ref) s = .next { s with ws := m }
      ∧ (∀ i j : Nat, i < 16 → j < 16 →
          (s.withWs m).wsByte ((1 + i) * 32 + (8 + j)) =
            s.memByte (lumaAddr d (16 * s.mbx + vx / 4 + j) (16 * s.mby + vy / 4 + i)))
      ∧ ((vx % 8 = 0 ∧ vy % 8 = 0) ∨ s.config.chromaFastpath = .lumaGated →
          ∀ i j : Nat, i < 8 → j < 8 →
            (s.withWs m).wsByte ((18 + i) * 32 + (8 + j)) =
              s.memByte (chromaAddr s.config.chromaEdge d .cb (8 * s.mbx + vx / 8 + j) (8 * s.mby + vy / 8 + i))
            ∧ (s.withWs m).wsByte ((18 + i) * 32 + (24 + j)) =
              s.memByte (chromaAddr s.config.chromaEdge d .cr (8 * s.mbx + vx / 8 + j) (8 * s.mby + vy / 8 + i)))

/-- R158: the average of four equal MVs is that MV, and when all sixteen SUBMV equal MBMV, MC_PREDICT_SPLIT writes the same bytes as
MC_PREDICT under CHROMA_FASTPATH = EXACT. -/
def Obligations.EqualSplitMvsArePredict : Prop :=
  ∀ (ref : RefTag) (t : FrameTag) (s : State), frameOf ref = some t → (s.refs.get t).valid = true →
    (s.refs.get t).wellFormed s.config.chromaEdge = true → s.config.chromaFastpath = .exact →
    (∀ b : Fin 16, s.submv[b] = s.mbmv) →
    (∀ ci cj, ci < 2 → cj < 2 → splitChroma s mvX ci cj = mvX s.mbmv ∧ splitChroma s mvY ci cj = mvY s.mbmv)
    ∧ ∃ m m', exec (.mcPredict ref) s = .next { s with ws := m } ∧ exec (.mcPredictSplit ref) s = .next { s with ws := m' }
      ∧ ∀ k, (s.withWs m').wsByte k = (s.withWs m).wsByte k

/-- R145 with R140 and R63: under RFC_TWO_PASS a luma value is the two passes, each `clip255((sum + 64) >> 7)` with the taps of its
row. With exactly one of the two fractions 0 and TEMP_WRAP16 = false, the two roundings agree; with both 0, whatever TEMP_WRAP16,
both give the sample. -/
def Obligations.RoundingsAgreeOnOneAxis : Prop :=
  ∀ (s : State) (d : RefDesc) (x y : Int),
    (s.config.tempWrap16 = false → ∀ h : Nat, h < 8 →
      luma6Doc s d x y h 0 = luma6Rfc s d x y h 0 ∧ luma6Doc s d x y 0 h = luma6Rfc s d x y 0 h)
    ∧ luma6Doc s d x y 0 0 = lumaSample s d x y ∧ luma6Rfc s d x y 0 0 = lumaSample s d x y
    ∧ ∀ hx ∈ [0, 2, 4, 6], ∀ hy ∈ [0, 2, 4, 6],
      let l (dx dy : Int) : Int := (s.memByte (lumaAddr d (x + dx) (y + dy))).toNat
      let pass (v : Int) : Int := max 0 (min ((v + 64) / 128) 255)
      let t (dy : Int) : Int := pass (tapSum hx (l (-2) dy) (l (-1) dy) (l 0 dy) (l 1 dy) (l 2 dy) (l 3 dy))
      s.config.lumaRounding = .rfcTwoPass →
        luma6 s d x y hx hy = pass (tapSum hy (t (-2)) (t (-1)) (t 0) (t 1) (t 2) (t 3))

/-- R144 with R140 and R63: under DOC a luma value is the exact sum of its row's taps, phase 1 without rounding (wrapped to 16 bits
under TEMP_WRAP16), phase 2 with `+ 8192` and `>> 14`, or `+ 64` and `>> 7` for a vertical fraction 0. R146: a phase-1 value lies in
[-8160, 40800] and wrapping to 16 bits changes it only when it exceeds 32767. A phase-2 sum is at most 160 * 40800 + 32 * 8160 in
magnitude: R146's own figure, 160 * 40800, leaves out the negative taps (log entry 3). -/
def Obligations.LumaIntermediateBounds : Prop :=
  ∀ (s : State) (d : RefDesc) (x y : Int), ∀ hx ∈ [0, 2, 4, 6],
    (∀ hy ∈ [0, 2, 4, 6],
      let l (dx dy : Int) : Int := (s.memByte (lumaAddr d (x + dx) (y + dy))).toNat
      let keep (v : Int) : Int := if s.config.tempWrap16 then (BitVec.ofInt 16 v).toInt else v
      let t (dy : Int) : Int := keep (tapSum hx (l (-2) dy) (l (-1) dy) (l 0 dy) (l 1 dy) (l 2 dy) (l 3 dy))
      s.config.lumaRounding = .doc →
        luma6 s d x y hx hy =
          if hy = 0 then max 0 (min ((t 0 + 64) / 128) 255)
          else max 0 (min ((tapSum hy (t (-2)) (t (-1)) (t 0) (t 1) (t 2) (t 3) + 8192) / 16384) 255))
    ∧ (∀ r : Nat, -8160 ≤ lumaPhase1 s d x y hx r ∧ lumaPhase1 s d x y hx r ≤ 40800
      ∧ (wrap16 (lumaPhase1 s d x y hx r) ≠ lumaPhase1 s d x y hx r ↔ 32767 < lumaPhase1 s d x y hx r))
    ∧ ∀ hy ∈ [2, 4, 6], |sixTap hy (lumaTemp s d x y hx)| ≤ 160 * 40800 + 32 * 8160

/-- R147 with R141 and R64: a chroma value is a horizontal pass on both rows and then a vertical one, each
`(a * (128 - 16k) + b * 16k + 64) >> 7` for its phase k. Every intermediate and result lies in [0, 255], so that no clip is needed;
with gx = 0 the right-hand samples and with gy = 0 the lower samples have no weight. -/
def Obligations.BilinearStaysInByteRange : Prop :=
  ∀ (s : State) (d : RefDesc) (p : Plane) (x y gx gy : Int), 0 ≤ gx → gx ≤ 7 → 0 ≤ gy → gy ≤ 7 →
    (let c (dx dy : Int) : Int := (s.memByte (chromaAddr s.config.chromaEdge d p (x + dx) (y + dy))).toNat
      let top := (c 0 0 * (128 - 16 * gx) + c 1 0 * (16 * gx) + 64) / 128
      let bottom := (c 0 1 * (128 - 16 * gx) + c 1 1 * (16 * gx) + 64) / 128
      bil s d p x y gx gy = (top * (128 - 16 * gy) + bottom * (16 * gy) + 64) / 128)
    ∧ (0 ≤ bil s d p x y gx gy ∧ bil s d p x y gx gy ≤ 255)
    ∧ (∀ a b : Int, 0 ≤ a → a ≤ 255 → 0 ≤ b → b ≤ 255 → 0 ≤ bilPass gx a b ∧ bilPass gx a b ≤ 255)
    ∧ bil s d p x y 0 gy = bilPass gy (chromaSample s d p x y) (chromaSample s d p x (y + 1))
    ∧ bil s d p x y gx 0 = bilPass gx (chromaSample s d p x y) (chromaSample s d p (x + 1) y)

/-- R61, R63, R64, R155: for a well-formed descriptor every sample, at any integer coordinates, is read at an address inside its plane,
below 2^32, and out-of-range coordinates read the nearest edge of the luma or the chroma plane, each coordinate for itself. -/
def Obligations.SamplesStayInsidePlanes : Prop :=
  ∀ (e : ChromaEdge) (d : RefDesc) (x y : Int), d.wellFormed e = true →
    (d.yBase.toNat ≤ lumaAddr d x y ∧ lumaAddr d x y ≤ lastByte d.yBase.toNat d.yStride.toNat d.lumaW d.lumaH
      ∧ lumaAddr d x y < 2 ^ 32)
    ∧ (∀ p, (d.planeBase p).toNat ≤ chromaAddr e d p x y
      ∧ chromaAddr e d p x y ≤ lastByte (d.planeBase p).toNat d.cStride.toNat (d.chromaW e) (d.chromaH e)
      ∧ chromaAddr e d p x y < 2 ^ 32)
    ∧ lumaAddr d x y = d.yBase.toNat + (max 0 (min y (d.lumaH - 1))).toNat * d.yStride.toNat
      + (max 0 (min x (d.lumaW - 1))).toNat
    ∧ ∀ p, chromaAddr e d p x y = (d.planeBase p).toNat + (max 0 (min y (d.chromaH e - 1))).toNat * d.cStride.toNat
      + (max 0 (min x (d.chromaW e - 1))).toNat

/-- R61, R62, R73: an MC command sees no byte of MEM outside the three planes of its descriptor, each the span from its first to
its last byte, the padding between rows included: with those bytes the same, other contents of MEM change nothing in its outcome. -/
def Obligations.McSeesOnlyItsPlanes : Prop :=
  ∀ (i : Instr) (ref : RefTag) (s t : State) (m : Memory), mcTag i = some ref →
    (∀ f, frameOf ref = some f → ∀ a, inPlanes s.config.chromaEdge (s.refs.get f) a →
      (s.withMem m).memByte a = s.memByte a) →
    exec i s = .next t → exec i (s.withMem m) = .next (t.withMem m)

/-- R44: the engine never reads WS: with other contents of WS a command has the same outcome in every other register, and a
completed MC command writes the same bytes. -/
def Obligations.EngineNeverReadsWorkspace : Prop :=
  ∀ (i : Instr) (s t : State) (m : Memory), exec i s = .next t →
    ∃ m', exec i (s.withWs m) = .next (t.withWs m')
      ∧ ((mcTag i).isSome = true → s.cause = none → t.cause = none →
        ∀ k, inRegions k = true → k < 832 → (t.withWs m').wsByte k = t.wsByte k)

/-! ### The host's ports -/

/-- R22, Table 1: the CSR map: an address names a register iff it is that register's address, and the reserved addresses are
exactly those R22's table lists. -/
def Obligations.CsrMapIsTable1 : Prop :=
  ∀ addr : Byte,
    (∀ r : Csr, csrAt addr = some r ↔ r.addr = addr.toNat)
    ∧ (csrAt addr = none ↔
      addr.toNat ∈ [0x06, 0x07, 0x0F, 0x67, 0x6F, 0x77]
        ∨ (0x33 ≤ addr.toNat ∧ addr.toNat ≤ 0x3F) ∨ (0x53 ≤ addr.toNat ∧ addr.toNat ≤ 0x5F) ∨ 0x78 ≤ addr.toNat)

/-- R22 to R42: what each register reads after a host write of v: read-only registers their old value, STATUS with FAULT and CAUSE
cleared by bit 0, the others the defined bits of v, an MVP entry max(v[7:0], 1). -/
def Obligations.CsrReadsBackWrite : Prop :=
  ∀ (s : State) (r : Csr) (v : Word),
    (s.writeCsr r v).readCsr r =
      match r with
      | .status => if v.getLsbD 0 then s.readCsr .status &&& 0x00000002 else s.readCsr .status
      | .faultCmd => s.faultCmd
      | .result => s.result
      | .bdValue => s.readCsr .bdValue
      | .bdRange => s.readCsr .bdRange
      | .bdCount => s.readCsr .bdCount
      | .bdPos => s.bd.pos
      | .bdEnd => s.bd.endAddr
      | .bdSrcLen => v &&& 0x00FFFFFF
      | .mvp _ _ => if v &&& 0xFF = 0 then 1 else v &&& 0xFF
      | .ref _ .ctrl => v &&& 1
      | _ => v

/-- R22 to R42, R224: a step whose action is a CSR write performs it, halted or not: it writes the register at the address, or
nothing at a reserved address, which reads 0. The write leaves every other register, MEM, WS, the parameters and the host's side as
they are. -/
def Obligations.CsrWriteFrame : Prop :=
  ∀ (s : State) (v : Word),
    (∀ r r' : Csr, r ≠ r' → (s.writeCsr r v).readCsr r' = s.readCsr r')
    ∧ (∀ r : Csr, (s.writeCsr r v).mem = s.mem ∧ (s.writeCsr r v).ws = s.ws ∧ (s.writeCsr r v).wsDraw = s.wsDraw
      ∧ (s.writeCsr r v).config = s.config ∧ (s.writeCsr r v).pending = s.pending ∧ (s.writeCsr r v).hostRead = s.hostRead)
    ∧ (∀ addr : Byte, csrAt addr = none → s.writeCsrAddr addr v = s ∧ s.readCsrAddr addr = 0)
    ∧ (∀ (addr : Byte) (r : Csr), csrAt addr = some r → s.writeCsrAddr addr v = s.writeCsr r v ∧ s.readCsrAddr addr = s.readCsr r)
    ∧ ∀ (addr : Byte) (rest : List HostAction), s.pending = .csrWrite addr v :: rest →
      step s = .next (State.writeCsrAddr { s with pending := rest } addr v)

/-- R68, R224: a host read of a CSR, of WS or of MEM returns the value and has no other effect, halted or not. -/
def Obligations.HostReadsHaveNoEffect : Prop :=
  ∀ (s : State) (rest : List HostAction),
    (∀ addr, s.pending = .csrRead addr :: rest →
      step s = .next { s with pending := rest, hostRead := some (s.readCsrAddr addr) })
    ∧ (∀ row col, s.pending = .wsRead row col :: rest →
      step s = .next { s with pending := rest, hostRead := some ((s.wsByte (row.val * 32 + col.val)).setWidth 32) })
    ∧ (∀ addr, s.pending = .memRead addr :: rest →
      step s = .next { s with pending := rest, hostRead := some ((s.memByte addr.toNat).setWidth 32) })

/-- R71, R224: a host write of a byte of WS or of MEM is what the next read of that byte gives, leaves every other byte, and changes
no register, halted or not. -/
def Obligations.HostWritesOneByte : Prop :=
  ∀ (s : State) (rest : List HostAction),
    (∀ row col v, s.pending = .wsWrite row col v :: rest →
      ∃ m, step s = .next { s with pending := rest, ws := m }
        ∧ ∀ k, (s.withWs m).wsByte k = if k = row.val * 32 + col.val then BitVec.ofNat 8 v.toNat else s.wsByte k)
    ∧ (∀ addr v, s.pending = .memWrite addr v :: rest →
      ∃ m, step s = .next { s with pending := rest, mem := m }
        ∧ ∀ a, (s.withMem m).memByte a = if a = addr.toNat then v else s.memByte a)

/-- R23, R201, R216: the STATUS word: bit 0 FAULT, bit 1 BD_READY, bits 7:4 CAUSE, every other bit 0; CAUSE is 0 exactly when FAULT is
0 and never above 6; FAULT_OUT equals bit 0. -/
def Obligations.StatusWordLayout : Prop :=
  ∀ s : State,
    s.statusWord.getLsbD 0 = s.cause.isSome ∧ s.statusWord.getLsbD 1 = s.bdReady
    ∧ s.statusWord &&& 0xFFFFFF0C = 0
    ∧ s.statusWord.toNat / 16 = (match s.cause with
      | none => 0
      | some .truncated => 1
      | some .badStream => 2
      | some .illegalOpcode => 3
      | some .illegalOperand => 4
      | some .bdNotReady => 5
      | some .badRefDesc => 6)
    ∧ (s.statusWord.toNat / 16 = 0 ↔ s.statusWord.getLsbD 0 = false)
    ∧ s.faultOut = s.statusWord.getLsbD 0
end

