-- ==== Sys2Proof/Laws/State.lean ====
section
/-! SUPPORT. One lemma per field per named update of State, so that no proof unfolds a record update. -/

namespace Sys2Proof.Machine

/-! ### `State.unbind` -/

@[simp] theorem State.unbind_config (s : State) : (s.unbind).config = s.config := rfl
@[simp] theorem State.unbind_mem (s : State) : (s.unbind).mem = s.mem := rfl
@[simp] theorem State.unbind_ws (s : State) : (s.unbind).ws = s.ws := rfl
@[simp] theorem State.unbind_wsDraw (s : State) : (s.unbind).wsDraw = s.wsDraw := rfl
@[simp] theorem State.unbind_draws (s : State) : (s.unbind).draws = s.draws + 1 := rfl
@[simp] theorem State.unbind_cause (s : State) : (s.unbind).cause = s.cause := rfl
@[simp] theorem State.unbind_bdReady (s : State) : (s.unbind).bdReady = false := rfl
@[simp] theorem State.unbind_faultCmd (s : State) : (s.unbind).faultCmd = s.faultCmd := rfl
@[simp] theorem State.unbind_result (s : State) : (s.unbind).result = s.result := rfl
@[simp] theorem State.unbind_missref (s : State) : (s.unbind).missref = s.missref := rfl
@[simp] theorem State.unbind_mbPos (s : State) : (s.unbind).mbPos = s.mbPos := rfl
@[simp] theorem State.unbind_mbmv (s : State) : (s.unbind).mbmv = s.mbmv := rfl
@[simp] theorem State.unbind_submv (s : State) : (s.unbind).submv = s.submv := rfl
@[simp] theorem State.unbind_bdSrcBase (s : State) : (s.unbind).bdSrcBase = s.bdSrcBase := rfl
@[simp] theorem State.unbind_bdSrcLen (s : State) : (s.unbind).bdSrcLen = s.bdSrcLen := rfl
@[simp] theorem State.unbind_bd (s : State) : (s.unbind).bd = BdRegs.unspecified s.draws := rfl
@[simp] theorem State.unbind_mvp (s : State) : (s.unbind).mvp = s.mvp := rfl
@[simp] theorem State.unbind_refs (s : State) : (s.unbind).refs = s.refs := rfl
@[simp] theorem State.unbind_pending (s : State) : (s.unbind).pending = s.pending := rfl
@[simp] theorem State.unbind_hostRead (s : State) : (s.unbind).hostRead = s.hostRead := rfl

/-! ### `State.clearFault` -/

@[simp] theorem State.clearFault_config (s : State) : (s.clearFault).config = s.config := rfl
@[simp] theorem State.clearFault_mem (s : State) : (s.clearFault).mem = s.mem := rfl
@[simp] theorem State.clearFault_ws (s : State) : (s.clearFault).ws = s.ws := rfl
@[simp] theorem State.clearFault_wsDraw (s : State) : (s.clearFault).wsDraw = s.wsDraw := rfl
@[simp] theorem State.clearFault_draws (s : State) : (s.clearFault).draws = s.draws := rfl
@[simp] theorem State.clearFault_cause (s : State) : (s.clearFault).cause = none := rfl
@[simp] theorem State.clearFault_bdReady (s : State) : (s.clearFault).bdReady = s.bdReady := rfl
@[simp] theorem State.clearFault_faultCmd (s : State) : (s.clearFault).faultCmd = s.faultCmd := rfl
@[simp] theorem State.clearFault_result (s : State) : (s.clearFault).result = s.result := rfl
@[simp] theorem State.clearFault_missref (s : State) : (s.clearFault).missref = s.missref := rfl
@[simp] theorem State.clearFault_mbPos (s : State) : (s.clearFault).mbPos = s.mbPos := rfl
@[simp] theorem State.clearFault_mbmv (s : State) : (s.clearFault).mbmv = s.mbmv := rfl
@[simp] theorem State.clearFault_submv (s : State) : (s.clearFault).submv = s.submv := rfl
@[simp] theorem State.clearFault_bdSrcBase (s : State) : (s.clearFault).bdSrcBase = s.bdSrcBase := rfl
@[simp] theorem State.clearFault_bdSrcLen (s : State) : (s.clearFault).bdSrcLen = s.bdSrcLen := rfl
@[simp] theorem State.clearFault_bd (s : State) : (s.clearFault).bd = s.bd := rfl
@[simp] theorem State.clearFault_mvp (s : State) : (s.clearFault).mvp = s.mvp := rfl
@[simp] theorem State.clearFault_refs (s : State) : (s.clearFault).refs = s.refs := rfl
@[simp] theorem State.clearFault_pending (s : State) : (s.clearFault).pending = s.pending := rfl
@[simp] theorem State.clearFault_hostRead (s : State) : (s.clearFault).hostRead = s.hostRead := rfl

/-! ### `State.finishRead` -/

@[simp] theorem State.finishRead_config (s : State) (r : Word) (b : BdRegs) : (s.finishRead r b).config = s.config := rfl
@[simp] theorem State.finishRead_mem (s : State) (r : Word) (b : BdRegs) : (s.finishRead r b).mem = s.mem := rfl
@[simp] theorem State.finishRead_ws (s : State) (r : Word) (b : BdRegs) : (s.finishRead r b).ws = s.ws := rfl
@[simp] theorem State.finishRead_wsDraw (s : State) (r : Word) (b : BdRegs) : (s.finishRead r b).wsDraw = s.wsDraw := rfl
@[simp] theorem State.finishRead_draws (s : State) (r : Word) (b : BdRegs) : (s.finishRead r b).draws = s.draws := rfl
@[simp] theorem State.finishRead_cause (s : State) (r : Word) (b : BdRegs) : (s.finishRead r b).cause = s.cause := rfl
@[simp] theorem State.finishRead_bdReady (s : State) (r : Word) (b : BdRegs) : (s.finishRead r b).bdReady = s.bdReady := rfl
@[simp] theorem State.finishRead_faultCmd (s : State) (r : Word) (b : BdRegs) : (s.finishRead r b).faultCmd = s.faultCmd := rfl
@[simp] theorem State.finishRead_result (s : State) (r : Word) (b : BdRegs) : (s.finishRead r b).result = r := rfl
@[simp] theorem State.finishRead_missref (s : State) (r : Word) (b : BdRegs) : (s.finishRead r b).missref = s.missref := rfl
@[simp] theorem State.finishRead_mbPos (s : State) (r : Word) (b : BdRegs) : (s.finishRead r b).mbPos = s.mbPos := rfl
@[simp] theorem State.finishRead_mbmv (s : State) (r : Word) (b : BdRegs) : (s.finishRead r b).mbmv = s.mbmv := rfl
@[simp] theorem State.finishRead_submv (s : State) (r : Word) (b : BdRegs) : (s.finishRead r b).submv = s.submv := rfl
@[simp] theorem State.finishRead_bdSrcBase (s : State) (r : Word) (b : BdRegs) : (s.finishRead r b).bdSrcBase = s.bdSrcBase := rfl
@[simp] theorem State.finishRead_bdSrcLen (s : State) (r : Word) (b : BdRegs) : (s.finishRead r b).bdSrcLen = s.bdSrcLen := rfl
@[simp] theorem State.finishRead_bd (s : State) (r : Word) (b : BdRegs) : (s.finishRead r b).bd = b := rfl
@[simp] theorem State.finishRead_mvp (s : State) (r : Word) (b : BdRegs) : (s.finishRead r b).mvp = s.mvp := rfl
@[simp] theorem State.finishRead_refs (s : State) (r : Word) (b : BdRegs) : (s.finishRead r b).refs = s.refs := rfl
@[simp] theorem State.finishRead_pending (s : State) (r : Word) (b : BdRegs) : (s.finishRead r b).pending = s.pending := rfl
@[simp] theorem State.finishRead_hostRead (s : State) (r : Word) (b : BdRegs) : (s.finishRead r b).hostRead = s.hostRead := rfl

/-! ### `State.writeWs` -/

@[simp] theorem State.writeWs_config (s : State) (cells : List Host.Cell) : (s.writeWs cells).config = s.config := rfl
@[simp] theorem State.writeWs_mem (s : State) (cells : List Host.Cell) : (s.writeWs cells).mem = s.mem := rfl
@[simp] theorem State.writeWs_ws (s : State) (cells : List Host.Cell) : (s.writeWs cells).ws = s.ws.writeAll cells := rfl
@[simp] theorem State.writeWs_wsDraw (s : State) (cells : List Host.Cell) : (s.writeWs cells).wsDraw = s.wsDraw := rfl
@[simp] theorem State.writeWs_draws (s : State) (cells : List Host.Cell) : (s.writeWs cells).draws = s.draws := rfl
@[simp] theorem State.writeWs_cause (s : State) (cells : List Host.Cell) : (s.writeWs cells).cause = s.cause := rfl
@[simp] theorem State.writeWs_bdReady (s : State) (cells : List Host.Cell) : (s.writeWs cells).bdReady = s.bdReady := rfl
@[simp] theorem State.writeWs_faultCmd (s : State) (cells : List Host.Cell) : (s.writeWs cells).faultCmd = s.faultCmd := rfl
@[simp] theorem State.writeWs_result (s : State) (cells : List Host.Cell) : (s.writeWs cells).result = s.result := rfl
@[simp] theorem State.writeWs_missref (s : State) (cells : List Host.Cell) : (s.writeWs cells).missref = s.missref := rfl
@[simp] theorem State.writeWs_mbPos (s : State) (cells : List Host.Cell) : (s.writeWs cells).mbPos = s.mbPos := rfl
@[simp] theorem State.writeWs_mbmv (s : State) (cells : List Host.Cell) : (s.writeWs cells).mbmv = s.mbmv := rfl
@[simp] theorem State.writeWs_submv (s : State) (cells : List Host.Cell) : (s.writeWs cells).submv = s.submv := rfl
@[simp] theorem State.writeWs_bdSrcBase (s : State) (cells : List Host.Cell) : (s.writeWs cells).bdSrcBase = s.bdSrcBase := rfl
@[simp] theorem State.writeWs_bdSrcLen (s : State) (cells : List Host.Cell) : (s.writeWs cells).bdSrcLen = s.bdSrcLen := rfl
@[simp] theorem State.writeWs_bd (s : State) (cells : List Host.Cell) : (s.writeWs cells).bd = s.bd := rfl
@[simp] theorem State.writeWs_mvp (s : State) (cells : List Host.Cell) : (s.writeWs cells).mvp = s.mvp := rfl
@[simp] theorem State.writeWs_refs (s : State) (cells : List Host.Cell) : (s.writeWs cells).refs = s.refs := rfl
@[simp] theorem State.writeWs_pending (s : State) (cells : List Host.Cell) : (s.writeWs cells).pending = s.pending := rfl
@[simp] theorem State.writeWs_hostRead (s : State) (cells : List Host.Cell) : (s.writeWs cells).hostRead = s.hostRead := rfl

/-! ### `State.countMissing` -/

@[simp] theorem State.countMissing_config (s : State) : (s.countMissing).config = s.config := rfl
@[simp] theorem State.countMissing_mem (s : State) : (s.countMissing).mem = s.mem := rfl
@[simp] theorem State.countMissing_ws (s : State) : (s.countMissing).ws = s.ws := rfl
@[simp] theorem State.countMissing_wsDraw (s : State) : (s.countMissing).wsDraw = s.wsDraw := rfl
@[simp] theorem State.countMissing_draws (s : State) : (s.countMissing).draws = s.draws := rfl
@[simp] theorem State.countMissing_cause (s : State) : (s.countMissing).cause = s.cause := rfl
@[simp] theorem State.countMissing_bdReady (s : State) : (s.countMissing).bdReady = s.bdReady := rfl
@[simp] theorem State.countMissing_faultCmd (s : State) : (s.countMissing).faultCmd = s.faultCmd := rfl
@[simp] theorem State.countMissing_result (s : State) : (s.countMissing).result = s.result := rfl
@[simp] theorem State.countMissing_missref (s : State) : (s.countMissing).missref = s.missref + 1 := rfl
@[simp] theorem State.countMissing_mbPos (s : State) : (s.countMissing).mbPos = s.mbPos := rfl
@[simp] theorem State.countMissing_mbmv (s : State) : (s.countMissing).mbmv = s.mbmv := rfl
@[simp] theorem State.countMissing_submv (s : State) : (s.countMissing).submv = s.submv := rfl
@[simp] theorem State.countMissing_bdSrcBase (s : State) : (s.countMissing).bdSrcBase = s.bdSrcBase := rfl
@[simp] theorem State.countMissing_bdSrcLen (s : State) : (s.countMissing).bdSrcLen = s.bdSrcLen := rfl
@[simp] theorem State.countMissing_bd (s : State) : (s.countMissing).bd = s.bd := rfl
@[simp] theorem State.countMissing_mvp (s : State) : (s.countMissing).mvp = s.mvp := rfl
@[simp] theorem State.countMissing_refs (s : State) : (s.countMissing).refs = s.refs := rfl
@[simp] theorem State.countMissing_pending (s : State) : (s.countMissing).pending = s.pending := rfl
@[simp] theorem State.countMissing_hostRead (s : State) : (s.countMissing).hostRead = s.hostRead := rfl

/-! ### `State.missingFill` -/

@[simp] theorem State.missingFill_config (s : State) : (s.missingFill).config = s.config := by
  simp [State.missingFill]
@[simp] theorem State.missingFill_mem (s : State) : (s.missingFill).mem = s.mem := by
  simp [State.missingFill]
@[simp] theorem State.missingFill_ws (s : State) : (s.missingFill).ws = s.ws.writeAll missingCells := by
  simp [State.missingFill]
@[simp] theorem State.missingFill_wsDraw (s : State) : (s.missingFill).wsDraw = s.wsDraw := by
  simp [State.missingFill]
@[simp] theorem State.missingFill_draws (s : State) : (s.missingFill).draws = s.draws := by
  simp [State.missingFill]
@[simp] theorem State.missingFill_cause (s : State) : (s.missingFill).cause = s.cause := by
  simp [State.missingFill]
@[simp] theorem State.missingFill_bdReady (s : State) : (s.missingFill).bdReady = s.bdReady := by
  simp [State.missingFill]
@[simp] theorem State.missingFill_faultCmd (s : State) : (s.missingFill).faultCmd = s.faultCmd := by
  simp [State.missingFill]
@[simp] theorem State.missingFill_result (s : State) : (s.missingFill).result = s.result := by
  simp [State.missingFill]
@[simp] theorem State.missingFill_missref (s : State) : (s.missingFill).missref = s.missref + 1 := by
  simp [State.missingFill]
@[simp] theorem State.missingFill_mbPos (s : State) : (s.missingFill).mbPos = s.mbPos := by
  simp [State.missingFill]
@[simp] theorem State.missingFill_mbmv (s : State) : (s.missingFill).mbmv = s.mbmv := by
  simp [State.missingFill]
@[simp] theorem State.missingFill_submv (s : State) : (s.missingFill).submv = s.submv := by
  simp [State.missingFill]
@[simp] theorem State.missingFill_bdSrcBase (s : State) : (s.missingFill).bdSrcBase = s.bdSrcBase := by
  simp [State.missingFill]
@[simp] theorem State.missingFill_bdSrcLen (s : State) : (s.missingFill).bdSrcLen = s.bdSrcLen := by
  simp [State.missingFill]
@[simp] theorem State.missingFill_bd (s : State) : (s.missingFill).bd = s.bd := by
  simp [State.missingFill]
@[simp] theorem State.missingFill_mvp (s : State) : (s.missingFill).mvp = s.mvp := by
  simp [State.missingFill]
@[simp] theorem State.missingFill_refs (s : State) : (s.missingFill).refs = s.refs := by
  simp [State.missingFill]
@[simp] theorem State.missingFill_pending (s : State) : (s.missingFill).pending = s.pending := by
  simp [State.missingFill]
@[simp] theorem State.missingFill_hostRead (s : State) : (s.missingFill).hostRead = s.hostRead := by
  simp [State.missingFill]

/-! ### `State.returnToHost` -/

@[simp] theorem State.returnToHost_config (s : State) (v : Word) : (s.returnToHost v).config = s.config := rfl
@[simp] theorem State.returnToHost_mem (s : State) (v : Word) : (s.returnToHost v).mem = s.mem := rfl
@[simp] theorem State.returnToHost_ws (s : State) (v : Word) : (s.returnToHost v).ws = s.ws := rfl
@[simp] theorem State.returnToHost_wsDraw (s : State) (v : Word) : (s.returnToHost v).wsDraw = s.wsDraw := rfl
@[simp] theorem State.returnToHost_draws (s : State) (v : Word) : (s.returnToHost v).draws = s.draws := rfl
@[simp] theorem State.returnToHost_cause (s : State) (v : Word) : (s.returnToHost v).cause = s.cause := rfl
@[simp] theorem State.returnToHost_bdReady (s : State) (v : Word) : (s.returnToHost v).bdReady = s.bdReady := rfl
@[simp] theorem State.returnToHost_faultCmd (s : State) (v : Word) : (s.returnToHost v).faultCmd = s.faultCmd := rfl
@[simp] theorem State.returnToHost_result (s : State) (v : Word) : (s.returnToHost v).result = s.result := rfl
@[simp] theorem State.returnToHost_missref (s : State) (v : Word) : (s.returnToHost v).missref = s.missref := rfl
@[simp] theorem State.returnToHost_mbPos (s : State) (v : Word) : (s.returnToHost v).mbPos = s.mbPos := rfl
@[simp] theorem State.returnToHost_mbmv (s : State) (v : Word) : (s.returnToHost v).mbmv = s.mbmv := rfl
@[simp] theorem State.returnToHost_submv (s : State) (v : Word) : (s.returnToHost v).submv = s.submv := rfl
@[simp] theorem State.returnToHost_bdSrcBase (s : State) (v : Word) : (s.returnToHost v).bdSrcBase = s.bdSrcBase := rfl
@[simp] theorem State.returnToHost_bdSrcLen (s : State) (v : Word) : (s.returnToHost v).bdSrcLen = s.bdSrcLen := rfl
@[simp] theorem State.returnToHost_bd (s : State) (v : Word) : (s.returnToHost v).bd = s.bd := rfl
@[simp] theorem State.returnToHost_mvp (s : State) (v : Word) : (s.returnToHost v).mvp = s.mvp := rfl
@[simp] theorem State.returnToHost_refs (s : State) (v : Word) : (s.returnToHost v).refs = s.refs := rfl
@[simp] theorem State.returnToHost_pending (s : State) (v : Word) : (s.returnToHost v).pending = s.pending := rfl
@[simp] theorem State.returnToHost_hostRead (s : State) (v : Word) : (s.returnToHost v).hostRead = some v := rfl

/-! ### `State.withFetchWord` -/

@[simp] theorem State.withFetchWord_config (s : State) (nbits w : Nat) : (s.withFetchWord nbits w).config = s.config := rfl
@[simp] theorem State.withFetchWord_mem (s : State) (nbits w : Nat) : (s.withFetchWord nbits w).mem = s.mem := rfl
@[simp] theorem State.withFetchWord_ws (s : State) (nbits w : Nat) : (s.withFetchWord nbits w).ws = s.ws := rfl
@[simp] theorem State.withFetchWord_wsDraw (s : State) (nbits w : Nat) : (s.withFetchWord nbits w).wsDraw = s.wsDraw := rfl
@[simp] theorem State.withFetchWord_draws (s : State) (nbits w : Nat) : (s.withFetchWord nbits w).draws = s.draws := rfl
@[simp] theorem State.withFetchWord_cause (s : State) (nbits w : Nat) : (s.withFetchWord nbits w).cause = s.cause := rfl
@[simp] theorem State.withFetchWord_bdReady (s : State) (nbits w : Nat) : (s.withFetchWord nbits w).bdReady = s.bdReady := rfl
@[simp] theorem State.withFetchWord_faultCmd (s : State) (nbits w : Nat) : (s.withFetchWord nbits w).faultCmd = s.faultCmd := rfl
@[simp] theorem State.withFetchWord_result (s : State) (nbits w : Nat) : (s.withFetchWord nbits w).result = s.result := rfl
@[simp] theorem State.withFetchWord_missref (s : State) (nbits w : Nat) : (s.withFetchWord nbits w).missref = s.missref := rfl
@[simp] theorem State.withFetchWord_mbPos (s : State) (nbits w : Nat) : (s.withFetchWord nbits w).mbPos = s.mbPos := rfl
@[simp] theorem State.withFetchWord_mbmv (s : State) (nbits w : Nat) : (s.withFetchWord nbits w).mbmv = s.mbmv := rfl
@[simp] theorem State.withFetchWord_submv (s : State) (nbits w : Nat) : (s.withFetchWord nbits w).submv = s.submv := rfl
@[simp] theorem State.withFetchWord_bdSrcBase (s : State) (nbits w : Nat) : (s.withFetchWord nbits w).bdSrcBase = s.bdSrcBase := rfl
@[simp] theorem State.withFetchWord_bdSrcLen (s : State) (nbits w : Nat) : (s.withFetchWord nbits w).bdSrcLen = s.bdSrcLen := rfl
@[simp] theorem State.withFetchWord_bd (s : State) (nbits w : Nat) : (s.withFetchWord nbits w).bd = s.bd := rfl
@[simp] theorem State.withFetchWord_mvp (s : State) (nbits w : Nat) : (s.withFetchWord nbits w).mvp = s.mvp := rfl
@[simp] theorem State.withFetchWord_refs (s : State) (nbits w : Nat) : (s.withFetchWord nbits w).refs = s.refs := rfl
@[simp] theorem State.withFetchWord_pending (s : State) (nbits w : Nat) : (s.withFetchWord nbits w).pending = .cmd (BitVec.ofNat 32 (w % 2 ^ nbits)) :: s.pending := rfl
@[simp] theorem State.withFetchWord_hostRead (s : State) (nbits w : Nat) : (s.withFetchWord nbits w).hostRead = s.hostRead := rfl

/-! ### `State.resetBlock` -/

@[simp] theorem State.resetBlock_config (s : State) : (s.resetBlock).config = s.config := rfl
@[simp] theorem State.resetBlock_mem (s : State) : (s.resetBlock).mem = s.mem := rfl
@[simp] theorem State.resetBlock_ws (s : State) : (s.resetBlock).ws = [] := rfl
@[simp] theorem State.resetBlock_wsDraw (s : State) : (s.resetBlock).wsDraw = s.draws := rfl
@[simp] theorem State.resetBlock_draws (s : State) : (s.resetBlock).draws = s.draws + 1 := rfl
@[simp] theorem State.resetBlock_cause (s : State) : (s.resetBlock).cause = none := rfl
@[simp] theorem State.resetBlock_bdReady (s : State) : (s.resetBlock).bdReady = false := rfl
@[simp] theorem State.resetBlock_faultCmd (s : State) : (s.resetBlock).faultCmd = 0 := rfl
@[simp] theorem State.resetBlock_result (s : State) : (s.resetBlock).result = 0 := rfl
@[simp] theorem State.resetBlock_missref (s : State) : (s.resetBlock).missref = 0 := rfl
@[simp] theorem State.resetBlock_mbPos (s : State) : (s.resetBlock).mbPos = 0 := rfl
@[simp] theorem State.resetBlock_mbmv (s : State) : (s.resetBlock).mbmv = 0 := rfl
@[simp] theorem State.resetBlock_submv (s : State) : (s.resetBlock).submv = Vector.replicate 16 0 := rfl
@[simp] theorem State.resetBlock_bdSrcBase (s : State) : (s.resetBlock).bdSrcBase = 0 := rfl
@[simp] theorem State.resetBlock_bdSrcLen (s : State) : (s.resetBlock).bdSrcLen = 0 := rfl
@[simp] theorem State.resetBlock_bd (s : State) : (s.resetBlock).bd = BdRegs.zero := rfl
@[simp] theorem State.resetBlock_mvp (s : State) : (s.resetBlock).mvp = s.config.mvpDefault := rfl
@[simp] theorem State.resetBlock_refs (s : State) : (s.resetBlock).refs = ⟨RefDesc.zero, RefDesc.zero, RefDesc.zero⟩ := rfl
@[simp] theorem State.resetBlock_pending (s : State) : (s.resetBlock).pending = s.pending := rfl
@[simp] theorem State.resetBlock_hostRead (s : State) : (s.resetBlock).hostRead = s.hostRead := rfl

/-! ### `State.raise`: the fault record, and the side effects of the cause -/

@[simp] theorem State.raise_config (c : Cause) (w : Word) (s : State) : (s.raise c w).config = s.config := by
  cases c <;> rfl
@[simp] theorem State.raise_mem (c : Cause) (w : Word) (s : State) : (s.raise c w).mem = s.mem := by
  cases c <;> rfl
@[simp] theorem State.raise_ws (c : Cause) (w : Word) (s : State) : (s.raise c w).ws = s.ws := by
  cases c <;> rfl
@[simp] theorem State.raise_wsDraw (c : Cause) (w : Word) (s : State) : (s.raise c w).wsDraw = s.wsDraw := by
  cases c <;> rfl
@[simp] theorem State.raise_cause (c : Cause) (w : Word) (s : State) : (s.raise c w).cause = some c := by
  cases c <;> rfl
@[simp] theorem State.raise_faultCmd (c : Cause) (w : Word) (s : State) : (s.raise c w).faultCmd = w := by
  cases c <;> rfl
@[simp] theorem State.raise_result (c : Cause) (w : Word) (s : State) : (s.raise c w).result = s.result := by
  cases c <;> rfl
@[simp] theorem State.raise_missref (c : Cause) (w : Word) (s : State) : (s.raise c w).missref = s.missref := by
  cases c <;> rfl
@[simp] theorem State.raise_mbPos (c : Cause) (w : Word) (s : State) : (s.raise c w).mbPos = s.mbPos := by
  cases c <;> rfl
@[simp] theorem State.raise_mbmv (c : Cause) (w : Word) (s : State) : (s.raise c w).mbmv = s.mbmv := by
  cases c <;> rfl
@[simp] theorem State.raise_submv (c : Cause) (w : Word) (s : State) : (s.raise c w).submv = s.submv := by
  cases c <;> rfl
@[simp] theorem State.raise_bdSrcBase (c : Cause) (w : Word) (s : State) : (s.raise c w).bdSrcBase = s.bdSrcBase := by
  cases c <;> rfl
@[simp] theorem State.raise_bdSrcLen (c : Cause) (w : Word) (s : State) : (s.raise c w).bdSrcLen = s.bdSrcLen := by
  cases c <;> rfl
@[simp] theorem State.raise_mvp (c : Cause) (w : Word) (s : State) : (s.raise c w).mvp = s.mvp := by
  cases c <;> rfl
@[simp] theorem State.raise_refs (c : Cause) (w : Word) (s : State) : (s.raise c w).refs = s.refs := by
  cases c <;> rfl
@[simp] theorem State.raise_pending (c : Cause) (w : Word) (s : State) : (s.raise c w).pending = s.pending := by
  cases c <;> rfl
@[simp] theorem State.raise_hostRead (c : Cause) (w : Word) (s : State) : (s.raise c w).hostRead = s.hostRead := by
  cases c <;> rfl

/-- A cause without side effects writes the fault record and nothing else (R210). -/
theorem State.raise_plain (c : Cause) (w : Word) (s : State) (h : c ≠ .truncated ∧ c ≠ .badStream) :
    s.raise c w = { s with cause := some c, faultCmd := w } := by
  cases c <;> simp_all [State.raise, State.sideEffects]

/-- TRUNCATED and BAD_STREAM write the fault record, clear BD_READY and leave the registers unspecified (R210). -/
theorem State.raise_unbinds (c : Cause) (w : Word) (s : State) (h : c = .truncated ∨ c = .badStream) :
    s.raise c w = { s with
      cause := some c, faultCmd := w, bdReady := false,
      bd := BdRegs.unspecified s.draws, draws := s.draws + 1 } := by
  rcases h with rfl | rfl <;> rfl

/-- A raise never makes an unbound decoder ready. -/
theorem State.raise_bdReady (c : Cause) (w : Word) (s : State) (h : (s.raise c w).bdReady = true) :
    s.bdReady = true ∧ (s.raise c w).bd = s.bd := by
  cases c <;> simp_all [State.raise, State.sideEffects, State.unbind]

end Sys2Proof.Machine
end

