-- ==== Sys2Proof/Laws/Memory.lean ====
section
/-! SUPPORT. The laws of the byte store: a read after a write, the canonical form, and the cells of a block. -/

namespace Sys2Proof.Machine

/-- Reading where nothing at or below has been written gives no value. -/
theorem Memory.read_eq_none (m : Memory) (a : Nat) (h : ∀ c ∈ m, c.1 ≠ a) : m.read a = none := by
  induction m with
  | nil => rfl
  | cons c m ih =>
    obtain ⟨k, v⟩ := c
    have hk : k ≠ a := h (k, v) (by simp)
    simp only [Memory.read, hk, if_false]
    exact ih fun c hc => h c (by simp [hc])

/-- A read at the written index gives the written byte. -/
@[simp] theorem Memory.read_write_same (m : Memory) (a : Nat) (v : Byte) : (m.write a v).read a = some v := by
  induction m with
  | nil => simp [Memory.write, Memory.read]
  | cons c m ih =>
    obtain ⟨k, u⟩ := c
    unfold Memory.write
    split
    · simp [Memory.read]
    · split
      · simp [Memory.read]
      · rename_i h1 h2
        have : k ≠ a := fun h => h2 h.symm
        simp [Memory.read, this, ih]

/-- A write leaves every other index alone, in every store whose indices rise. -/
theorem Memory.read_write_other (m : Memory) (a b : Nat) (v : Byte) (h : a ≠ b) : (m.write a v).read b = m.read b := by
  induction m with
  | nil => simp [Memory.write, Memory.read, h]
  | cons c m ih =>
    obtain ⟨k, u⟩ := c
    unfold Memory.write
    split
    · simp [Memory.read, h]
    · split
      · rename_i h1 h2
        subst h2
        simp [Memory.read, h]
      · simp [Memory.read, ih]

/-- A read after a write, in one equation. -/
theorem Memory.read_write (m : Memory) (a b : Nat) (v : Byte) :
    (m.write a v).read b = if a = b then some v else m.read b := by
  split
  · rename_i h; subst h; exact Memory.read_write_same m a v
  · rename_i h; exact Memory.read_write_other m a b v h

/-- The indices of a written store are the written one and the old ones. -/
theorem Memory.mem_write (m : Memory) (a : Nat) (v : Byte) (c : Host.Cell) (h : c ∈ m.write a v) :
    c = (a, v) ∨ c ∈ m := by
  induction m with
  | nil => simpa [Memory.write] using h
  | cons d m ih =>
    obtain ⟨k, u⟩ := d
    unfold Memory.write at h
    split at h
    · simpa using h
    · split at h
      · simp only [List.mem_cons] at h ⊢
        tauto
      · simp only [List.mem_cons] at h ⊢
        rcases h with h | h
        · exact .inr (.inl h)
        · rcases ih h with h | h
          · exact .inl h
          · exact .inr (.inr h)

/-- A write keeps the canonical form. -/
theorem Memory.write_wf (size : Nat) (m : Memory) (a : Nat) (v : Byte) (ha : a < size) (h : Memory.wf size m) :
    Memory.wf size (m.write a v) := by
  refine ⟨?_, fun c hc => ?_⟩
  · obtain ⟨hp, -⟩ := h
    induction m with
    | nil => simp [Memory.write]
    | cons d m ih =>
      obtain ⟨k, u⟩ := d
      rw [List.pairwise_cons] at hp
      obtain ⟨hk, hm⟩ := hp
      unfold Memory.write
      split
      · rename_i hlt
        refine List.pairwise_cons.2 ⟨fun c hc => ?_, List.pairwise_cons.2 ⟨hk, hm⟩⟩
        simp only [List.mem_cons] at hc
        rcases hc with rfl | hc
        · exact hlt
        · exact hlt.trans (hk c hc)
      · split
        · rename_i h1 h2
          subst h2
          exact List.pairwise_cons.2 ⟨hk, hm⟩
        · rename_i h1 h2
          refine List.pairwise_cons.2 ⟨fun c hc => ?_, ih hm⟩
          rcases Memory.mem_write m a v c hc with rfl | hc
          · simp only
            omega
          · exact hk c hc
  · rcases Memory.mem_write m a v c hc with rfl | hc
    · exact ha
    · exact h.2 c hc

@[simp] theorem Memory.writeAll_nil (m : Memory) : m.writeAll [] = m := rfl

@[simp] theorem Memory.writeAll_cons (m : Memory) (c : Host.Cell) (cs : List Host.Cell) :
    m.writeAll (c :: cs) = (m.write c.1 c.2).writeAll cs := rfl

theorem Memory.writeAll_append (m : Memory) (cs ds : List Host.Cell) :
    m.writeAll (cs ++ ds) = (m.writeAll cs).writeAll ds := by
  simp [Memory.writeAll, List.foldl_append]

/-- Writing cells inside the space keeps the canonical form. -/
theorem Memory.writeAll_wf (size : Nat) (m : Memory) (cells : List Host.Cell) (hc : ∀ c ∈ cells, c.1 < size)
    (h : Memory.wf size m) : Memory.wf size (m.writeAll cells) := by
  induction cells generalizing m with
  | nil => exact h
  | cons c cs ih =>
    rw [Memory.writeAll_cons]
    exact ih _ (fun d hd => hc d (by simp [hd])) (Memory.write_wf size m c.1 c.2 (hc c (by simp)) h)

/-- An index no cell names reads as before. -/
theorem Memory.read_writeAll_other (m : Memory) (cells : List Host.Cell) (a : Nat) (h : ∀ c ∈ cells, c.1 ≠ a) :
    (m.writeAll cells).read a = m.read a := by
  induction cells generalizing m with
  | nil => rfl
  | cons c cs ih =>
    rw [Memory.writeAll_cons, ih _ fun d hd => h d (by simp [hd])]
    exact Memory.read_write_other m c.1 a c.2 (h c (by simp))

/-- Where every cell that names an index holds the same byte, and one names it, that byte is read. -/
theorem Memory.read_writeAll_of_mem (m : Memory) (cells : List Host.Cell) (a : Nat) (v : Byte)
    (hmem : (a, v) ∈ cells) (hall : ∀ c ∈ cells, c.1 = a → c.2 = v) : (m.writeAll cells).read a = some v := by
  induction cells generalizing m with
  | nil => simp at hmem
  | cons c cs ih =>
    rw [Memory.writeAll_cons]
    by_cases hcs : (a, v) ∈ cs
    · exact ih _ hcs fun d hd => hall d (by simp [hd])
    · have hc : c = (a, v) := by
        simp only [List.mem_cons] at hmem
        rcases hmem with h | h
        · exact h.symm
        · exact absurd h hcs
      have hother : ∀ d ∈ cs, d.1 ≠ a := fun d hd hda => by
        have := hall d (by simp [hd]) hda
        exact hcs (by rw [← hda, ← this]; exact hd)
      rw [Memory.read_writeAll_other _ _ _ hother]
      subst hc
      exact Memory.read_write_same m a v

/-- The cells of a block. -/
theorem mem_blockCells (n row0 col0 : Nat) (pixel : Nat → Nat → Byte) (c : Host.Cell) :
    c ∈ blockCells n row0 col0 pixel ↔
      ∃ i < n, ∃ j < n, c = (wsIndex (row0 + i) (col0 + j), pixel i j) := by
  simp only [blockCells, List.mem_flatMap, List.mem_map, List.mem_range]
  constructor
  · rintro ⟨i, hi, j, hj, rfl⟩
    exact ⟨i, hi, j, hj, rfl⟩
  · rintro ⟨i, hi, j, hj, rfl⟩
    exact ⟨i, hi, j, hj, rfl⟩

/-- MEM as the engine reads it after a host write. -/
theorem Memory.memByte_write (s : State) (a b : Nat) (v : Byte) :
    ({ s with mem := s.mem.write a v } : State).memByte b = if a = b then v else s.memByte b := by
  simp only [State.memByte, Memory.read_write]
  split <;> simp

/-- WS at an index no written cell names. -/
theorem State.wsByte_writeWs_other (s : State) (cells : List Host.Cell) (k : Nat) (h : ∀ c ∈ cells, c.1 ≠ k) :
    (s.writeWs cells).wsByte k = s.wsByte k := by
  simp only [State.wsByte, State.writeWs_ws, State.writeWs_wsDraw, Memory.read_writeAll_other _ _ _ h]

/-- WS at an index the written cells agree on. -/
theorem State.wsByte_writeWs_of_mem (s : State) (cells : List Host.Cell) (k : Nat) (v : Byte) (hmem : (k, v) ∈ cells)
    (hall : ∀ c ∈ cells, c.1 = k → c.2 = v) : (s.writeWs cells).wsByte k = v := by
  simp only [State.wsByte, State.writeWs_ws, Memory.read_writeAll_of_mem _ _ _ _ hmem hall, Option.getD_some]

end Sys2Proof.Machine
end

