-- ==== Sys2Proof/Laws/BoolDecoder.lean ====
section
/-! SUPPORT. What the Boolean decoder's operations do: one lemma per operation (spec/40_bool_decoder.md R101 to R104). -/

namespace Sys2Proof.Machine

/-! ### Registers and integers -/

/-- Registers read as integers and written back are unchanged. -/
@[simp] theorem BdRegs.toRegs_toBd (r : BdRegs) : r.toBd.toRegs = r := by
  cases r
  simp [BdRegs.toBd, Bd.toRegs]

/-- Integers in their ranges survive being written to the registers. -/
theorem Bd.toBd_toRegs (b : Bd) (h : b.Ok) : b.toRegs.toBd = b := by
  obtain ⟨v, r, c, p, e⟩ := b
  obtain ⟨h1, h2, h3, -, h4, h5, h6⟩ := h
  simp only at h1 h2 h3 h4 h5 h6
  simp only [Bd.toRegs, BdRegs.toBd, BitVec.toNat_ofNat, Bd.mk.injEq]
  refine ⟨?_, ?_, ?_, ?_, ?_⟩ <;> exact Nat.mod_eq_of_lt (by omega)

/-- Bound registers are integers in their ranges. -/
theorem BdRegs.ok_of_bound (r : BdRegs) (h : r.Bound) : r.toBd.Ok := by
  obtain ⟨h1, h2, h3, h4⟩ := h
  have := r.range.isLt
  have := r.count.isLt
  have := r.endAddr.isLt
  refine ⟨h1, ?_, h2, h3, ?_, h4, ?_⟩ <;> simp only [BdRegs.toBd] <;> omega

/-- Integers in their ranges give bound registers. -/
theorem Bd.bound_of_ok (b : Bd) (h : b.Ok) : b.toRegs.Bound := by
  have e := Bd.toBd_toRegs b h
  obtain ⟨h1, -, h3, h4, -, h5, -⟩ := h
  rw [← e] at h1 h3 h4 h5
  exact ⟨h1, h3, h4, h5⟩

/-! ### The byte fetch (R101) -/

/-- The byte and the next position of a fetch at `pos` in a buffer that ends at `endAddr`. -/
def fetchAt (s : State) (pos endAddr : Nat) : Except BdStop (Nat × Nat) :=
  if endAddr ≤ pos then
    match s.config.bdTail with
    | .fault => .error .truncated
    | .zeroFill => .ok (0, pos)
  else .ok ((s.memByte pos).toNat, pos + 1)

/-- A fetch moves the position and nothing else. -/
theorem fetchByte_eq (s : State) (b : Bd) :
    fetchByte s b = (fetchAt s b.pos b.endAddr).map fun r => (r.1, { b with pos := r.2 }) := by
  unfold fetchByte fetchAt
  split
  · cases s.config.bdTail <;> rfl
  · rfl

/-- What a fetch that answers has done. -/
theorem fetchAt_ok {s : State} {pos endAddr byte next : Nat} (h : fetchAt s pos endAddr = .ok (byte, next)) :
    byte ≤ 255 ∧ pos ≤ next ∧ next ≤ pos + 1 ∧ (pos ≤ endAddr → next ≤ endAddr) := by
  unfold fetchAt at h
  split at h
  · cases ht : s.config.bdTail <;> simp only [ht, Except.ok.injEq, Prod.mk.injEq, reduceCtorEq] at h
    omega
  · simp only [Except.ok.injEq, Prod.mk.injEq] at h
    have := (s.memByte pos).isLt
    omega

/-- A fetch stops only with TRUNCATED, at the end of the buffer under BD_TAIL = FAULT. -/
theorem fetchAt_error {s : State} {pos endAddr : Nat} {e : BdStop} (h : fetchAt s pos endAddr = .error e) :
    e = .truncated ∧ endAddr ≤ pos ∧ s.config.bdTail = .fault := by
  unfold fetchAt at h
  split at h
  · rename_i hp
    cases ht : s.config.bdTail <;> simp_all
  · simp at h

/-! ### Normalisation and one bool (R103) -/

/-- Every positive range below 256 is doubled into [128, 255] by a number of shifts at most 7. -/
theorem exists_shift (r : Nat) (h1 : 1 ≤ r) (h2 : r ≤ 255) : ∃ k ≤ 7, 128 ≤ r * 2 ^ k ∧ r * 2 ^ k ≤ 255 := by
  by_cases hb : 128 ≤ r
  · exact ⟨0, by omega, by omega, by omega⟩
  · rcases (by omega : 64 ≤ r ∨ 32 ≤ r ∧ r < 64 ∨ 16 ≤ r ∧ r < 32 ∨ 8 ≤ r ∧ r < 16 ∨ 4 ≤ r ∧ r < 8 ∨ 2 ≤ r ∧ r < 4 ∨ r = 1)
      with h | h | h | h | h | h | h
    · exact ⟨1, by omega, by omega, by omega⟩
    · exact ⟨2, by omega, by omega, by omega⟩
    · exact ⟨3, by omega, by omega, by omega⟩
    · exact ⟨4, by omega, by omega, by omega⟩
    · exact ⟨5, by omega, by omega, by omega⟩
    · exact ⟨6, by omega, by omega, by omega⟩
    · exact ⟨7, by omega, by omega, by omega⟩

/-- The decoder after `k` shifts, at most one byte being fetched on the way. -/
def shifted (s : State) (b : Bd) (k : Nat) : Except BdStop Bd :=
  if b.count + k < 8 then .ok ⟨b.value * 2 ^ k, b.range * 2 ^ k, b.count + k, b.pos, b.endAddr⟩
  else
    (fetchAt s b.pos b.endAddr).map fun r =>
      ⟨b.value * 2 ^ k + r.1 * 2 ^ (b.count + k - 8), b.range * 2 ^ k, b.count + k - 8, r.2, b.endAddr⟩

/-- The normalisation loop is `k` shifts, for the `k` that brings the range into [128, 255]. -/
theorem normalise_eq (s : State) (k fuel : Nat) (b : Bd) (hk : k ≤ fuel) (hk7 : k ≤ 7) (hc : b.count ≤ 7)
    (h1 : 128 ≤ b.range * 2 ^ k) (h2 : b.range * 2 ^ k ≤ 255) : normalise s fuel b = shifted s b k := by
  induction k generalizing b fuel with
  | zero =>
    have hr : ¬ b.range < 128 := by simpa using h1
    have hc' : b.count < 8 := by omega
    cases fuel <;> simp [normalise, shifted, hr, hc']
  | succ k ih =>
    obtain ⟨fuel, rfl⟩ : ∃ f, fuel = f + 1 := ⟨fuel - 1, by omega⟩
    have hpow : b.range * 2 ^ (k + 1) = b.range * 2 * 2 ^ k := by rw [Nat.pow_succ]; ring
    have hpos : 1 ≤ 2 ^ k := Nat.one_le_two_pow
    have hr : b.range < 128 := by
      have : b.range * 2 * 1 ≤ b.range * 2 * 2 ^ k := Nat.mul_le_mul_left _ hpos
      omega
    simp only [normalise, hr, if_true]
    unfold shiftOnce
    by_cases h8 : b.count + 1 = 8
    · have hc7 : b.count = 7 := by omega
      have hsum : ¬ b.count + (k + 1) < 8 := by omega
      have hexp : b.count + (k + 1) - 8 = k := by omega
      simp only [h8, if_true, fetchByte_eq, shifted, hsum, if_false, hexp]
      cases hf : fetchAt s b.pos b.endAddr with
      | error e => rfl
      | ok r =>
        obtain ⟨byte, next⟩ := r
        simp only [Except.map, bind, Except.bind, pure, Except.pure]
        rw [ih fuel _ (by omega) (by omega) (by simp) (by simpa [hpow] using h1) (by simpa [hpow] using h2)]
        have hk8 : k < 8 := by omega
        simp only [shifted, Nat.zero_add, hk8, if_true, Except.ok.injEq, Bd.mk.injEq, hpow, and_true]
        rw [Nat.pow_succ]
        ring
    · simp only [h8, if_false, bind, Except.bind]
      rw [ih fuel _ (by omega) (by omega) (by simp only; omega) (by simpa [hpow] using h1) (by simpa [hpow] using h2)]
      have hadd : b.count + 1 + k = b.count + (k + 1) := by omega
      have hval : b.value * 2 * 2 ^ k = b.value * 2 ^ (k + 1) := by rw [Nat.pow_succ]; ring
      simp only [shifted, hadd, hpow, hval]

/-- Both sub-intervals of a split are non-empty (R107). -/
theorem splitOf_bounds (range prob : Nat) (h1 : 128 ≤ range) (hp : prob ≤ 255) :
    1 ≤ splitOf range prob ∧ splitOf range prob ≤ range - 1 := by
  have h : (range - 1) * prob / 256 < range - 1 := by
    refine Nat.div_lt_of_lt_mul ?_
    have : (range - 1) * prob ≤ (range - 1) * 255 := Nat.mul_le_mul_left _ hp
    omega
  simp only [splitOf]
  omega

/-- The decision of `readBit`: the bit and the chosen sub-interval (R103). -/
def decided (prob : Byte) (b : Bd) : Bool × Bd :=
  let split := splitOf b.range prob.toNat
  if split * 256 ≤ b.value then (true, { b with range := b.range - split, value := b.value - split * 256 })
  else (false, { b with range := split })

/-- `readBit` is the decision and then the normalisation. -/
theorem readBit_eq (s : State) (prob : Byte) (b : Bd) :
    readBit s prob b = (normalise s 7 (decided prob b).2).map fun e => ((decided prob b).1, e) := by
  unfold readBit decided
  simp only
  split <;> (cases normalise s 7 _ <;> rfl)

/-- Eight shifts zero eight bits. -/
theorem pow_dvd_256 {c : Nat} (h : c ≤ 7) : 2 ^ c ∣ 256 :=
  ⟨2 ^ (8 - c), by rw [← Nat.pow_add, show c + (8 - c) = 8 by omega]⟩

/-- The chosen sub-interval is non-empty and holds the value, whose low bits stay zero. -/
theorem decided_ok (prob : Byte) (b : Bd) (h : b.Ok) :
    1 ≤ (decided prob b).2.range ∧ (decided prob b).2.range ≤ 254
      ∧ (decided prob b).2.value < (decided prob b).2.range * 256
      ∧ 2 ^ b.count ∣ (decided prob b).2.value
      ∧ (decided prob b).2.count = b.count ∧ (decided prob b).2.pos = b.pos
      ∧ (decided prob b).2.endAddr = b.endAddr := by
  obtain ⟨h1, h2, h3, h4, h5, -, -⟩ := h
  have hp := prob.isLt
  have hs := splitOf_bounds b.range prob.toNat h1 (by omega)
  unfold decided
  simp only
  split
  · refine ⟨?_, ?_, ?_, ?_, rfl, rfl, rfl⟩
    · clear h4
      simp only
      omega
    · clear h4
      simp only
      omega
    · clear h4
      simp only
      omega
    · refine Nat.dvd_sub h4 (Dvd.dvd.mul_left ?_ _)
      exact pow_dvd_256 (by omega)
  · rename_i hlt
    exact ⟨hs.1, by clear h4; simp only; omega, Nat.lt_of_not_le hlt, h4, rfl, rfl, rfl⟩

/-- A fetched byte lands in the low bits the shifts have zeroed (R108). -/
theorem fetched_value_lt {v r c k byte : Nat} (hc : c ≤ 7) (hck : 8 ≤ c + k) (hd : 2 ^ c ∣ v) (hv : v < r * 256)
    (hb : byte ≤ 255) : v * 2 ^ k + byte * 2 ^ (c + k - 8) < r * 2 ^ k * 256 := by
  obtain ⟨m, hm⟩ : ∃ m, c + k = m + 8 := ⟨c + k - 8, by omega⟩
  obtain ⟨q, rfl⟩ := hd
  have hk : 2 ^ k = 2 ^ (8 - c) * 2 ^ m := by
    rw [← Nat.pow_add]
    congr 1
    omega
  have h8 : 2 ^ c * 2 ^ (8 - c) = 256 := by
    rw [← Nat.pow_add, show c + (8 - c) = 8 by omega]
  have hq : q < r * 2 ^ (8 - c) := by
    have : 2 ^ c * q < 2 ^ c * (r * 2 ^ (8 - c)) := by
      calc 2 ^ c * q < r * 256 := hv
        _ = 2 ^ c * (r * 2 ^ (8 - c)) := by rw [← h8]; ring
    exact lt_of_mul_lt_mul_left' this
  have hm8 : c + k - 8 = m := by omega
  rw [hm8]
  calc 2 ^ c * q * 2 ^ k + byte * 2 ^ m = (256 * q + byte) * 2 ^ m := by rw [hk, ← h8]; ring
    _ < (256 * (q + 1)) * 2 ^ m := Nat.mul_lt_mul_of_pos_right (by omega) (by positivity)
    _ ≤ (256 * (r * 2 ^ (8 - c))) * 2 ^ m := Nat.mul_le_mul_right _ (by omega)
    _ = r * 2 ^ k * 256 := by rw [hk]; ring

/-- A shift into [128, 255] keeps the decoder in its ranges; it moves the position by at most one. -/
theorem shifted_ok {s : State} {b e : Bd} {k : Nat} (hk : k ≤ 7) (hc : b.count ≤ 7) (h1 : 128 ≤ b.range * 2 ^ k)
    (h2 : b.range * 2 ^ k ≤ 255) (hv : b.value < b.range * 256) (hd : 2 ^ b.count ∣ b.value) (hp : b.pos ≤ b.endAddr)
    (he : b.endAddr < 2 ^ 32) (h : shifted s b k = .ok e) :
    e.Ok ∧ e.endAddr = b.endAddr ∧ b.pos ≤ e.pos ∧ e.pos ≤ b.pos + 1 := by
  unfold shifted at h
  split at h
  · rename_i hlt
    simp only [Except.ok.injEq] at h
    subst h
    refine ⟨⟨h1, h2, ?_, ?_, by simp only; omega, hp, he⟩, rfl, Nat.le_refl _, Nat.le_succ _⟩
    · calc b.value * 2 ^ k < b.range * 256 * 2 ^ k := Nat.mul_lt_mul_of_pos_right hv (by positivity)
        _ = b.range * 2 ^ k * 256 := by ring
    · simp only [Nat.pow_add]
      exact Nat.mul_dvd_mul_right hd _
  · rename_i hlt
    cases hf : fetchAt s b.pos b.endAddr with
    | error x => simp [hf, Except.map] at h
    | ok r =>
      obtain ⟨byte, next⟩ := r
      obtain ⟨hb, hle, hle1, hend⟩ := fetchAt_ok hf
      simp only [hf, Except.map, Except.ok.injEq] at h
      subst h
      refine ⟨⟨h1, h2, fetched_value_lt hc (by omega) hd hv hb, ?_, by simp only; omega, hend hp, he⟩, rfl, hle, hle1⟩
      refine (Nat.dvd_add_right ?_).2 (Dvd.intro_left _ rfl)
      have : 2 ^ (b.count + k - 8) ∣ 2 ^ (b.count + k) := Nat.pow_dvd_pow 2 (by omega)
      refine this.trans ?_
      rw [Nat.pow_add]
      exact Nat.mul_dvd_mul_right hd _

/-- What a bool read from a decoder in its ranges does: the bit is decided, the decoder is shifted by some k at most 7 (R103). -/
theorem readBit_cases (s : State) (prob : Byte) (b : Bd) (h : b.Ok) :
    ∃ k ≤ 7, 128 ≤ (decided prob b).2.range * 2 ^ k ∧ (decided prob b).2.range * 2 ^ k ≤ 255 ∧
      readBit s prob b = (shifted s (decided prob b).2 k).map fun e => ((decided prob b).1, e) := by
  obtain ⟨hr1, hr2, -, -, hc, -, -⟩ := decided_ok prob b h
  obtain ⟨k, hk, h1, h2⟩ := exists_shift _ hr1 (by omega)
  refine ⟨k, hk, h1, h2, ?_⟩
  rw [readBit_eq, normalise_eq s k 7 _ hk hk (by rw [hc]; exact h.2.2.2.2.1) h1 h2]

/-- A bool read that answers keeps the decoder in its ranges, the buffer's end, and moves the position by at most one. -/
theorem readBit_ok {s : State} {prob : Byte} {b e : Bd} {bit : Bool} (h : b.Ok) (hr : readBit s prob b = .ok (bit, e)) :
    e.Ok ∧ e.endAddr = b.endAddr ∧ b.pos ≤ e.pos ∧ e.pos ≤ b.pos + 1 := by
  obtain ⟨k, hk, h1, h2, heq⟩ := readBit_cases s prob b h
  obtain ⟨-, -, hv, hd, hc, hp, he⟩ := decided_ok prob b h
  rw [heq] at hr
  cases hsh : shifted s (decided prob b).2 k with
  | error x => simp [hsh, Except.map] at hr
  | ok e' =>
    simp only [hsh, Except.map, Except.ok.injEq, Prod.mk.injEq] at hr
    obtain ⟨-, rfl⟩ := hr
    have := shifted_ok hk (by rw [hc]; exact h.2.2.2.2.1) h1 h2 hv (by rw [hc]; exact hd)
      (by rw [hp, he]; exact h.2.2.2.2.2.1) (by rw [he]; exact h.2.2.2.2.2.2) hsh
    rwa [hp, he] at this

/-- A bool read stops only with TRUNCATED, at the end of the buffer under BD_TAIL = FAULT. -/
theorem readBit_error {s : State} {prob : Byte} {b : Bd} {x : BdStop} (h : b.Ok) (hr : readBit s prob b = .error x) :
    x = .truncated ∧ b.endAddr ≤ b.pos ∧ s.config.bdTail = .fault := by
  obtain ⟨k, -, -, -, heq⟩ := readBit_cases s prob b h
  obtain ⟨-, -, -, -, -, hp, he⟩ := decided_ok prob b h
  rw [heq] at hr
  unfold shifted at hr
  split at hr
  · simp [Except.map] at hr
  · cases hf : fetchAt s (decided prob b).2.pos (decided prob b).2.endAddr with
    | ok r => simp [hf, Except.map] at hr
    | error y =>
      simp only [hf, Except.map, Except.error.injEq] at hr
      subst hr
      rw [hp, he] at hf
      exact fetchAt_error hf

/-- From any decoder, in its ranges or not, the normalisation is TRUNCATED only under BD_TAIL = FAULT. -/
theorem normalise_tail {s : State} {fuel : Nat} {b : Bd} (h : normalise s fuel b = .error .truncated) :
    s.config.bdTail = .fault := by
  induction fuel generalizing b with
  | zero =>
    unfold normalise at h
    split at h <;> simp at h
  | succ fuel ih =>
    unfold normalise at h
    split at h
    · unfold shiftOnce at h
      by_cases h8 : b.count + 1 = 8
      · simp only [h8, if_true, fetchByte_eq] at h
        cases hf : fetchAt s b.pos b.endAddr with
        | error x => exact (fetchAt_error hf).2.2
        | ok r =>
          simp only [hf, Except.map, Bind.bind, Except.bind, Pure.pure, Except.pure] at h
          exact ih h
      · simp only [h8, if_false, Bind.bind, Except.bind] at h
        exact ih h
    · simp at h

/-! ### Sequences of reads -/

/-- What a reading function does that makes at most `n` bool reads: from a decoder in its ranges it answers with one, keeping
the buffer's end and moving the position by at most `n`, or it stops with TRUNCATED, which needs `n` fetches to be more than the
buffer holds. From any decoder, TRUNCATED needs BD_TAIL = FAULT. -/
structure Reads {α : Type} (s : State) (n : Nat) (f : Bd → Except BdStop (α × Bd)) : Prop where
  ok : ∀ {b a e}, b.Ok → f b = .ok (a, e) → e.Ok ∧ e.endAddr = b.endAddr ∧ b.pos ≤ e.pos ∧ e.pos ≤ b.pos + n
  error : ∀ {b x}, b.Ok → f b = .error x → x = .truncated ∧ b.endAddr < b.pos + n ∧ s.config.bdTail = .fault
  tail : ∀ {b}, f b = .error .truncated → s.config.bdTail = .fault

/-- One bool. -/
theorem Reads.readBit (s : State) (prob : Byte) : Reads s 1 (readBit s prob) where
  ok h hr := readBit_ok h hr
  error h hr := by
    obtain ⟨h1, h2, h3⟩ := readBit_error h hr
    exact ⟨h1, by omega, h3⟩
  tail {b} hr := by
    rw [readBit_eq] at hr
    cases hn : normalise s 7 (decided prob b).2 with
    | ok e => simp [hn, Except.map] at hr
    | error x =>
      simp only [hn, Except.map, Except.error.injEq] at hr
      exact normalise_tail (hr ▸ hn)

/-- No read. -/
theorem Reads.pure {α : Type} (s : State) (a : α) : Reads s 0 (fun b => .ok (a, b)) where
  ok h hr := by
    simp only [Except.ok.injEq, Prod.mk.injEq] at hr
    obtain ⟨-, rfl⟩ := hr
    exact ⟨h, rfl, Nat.le_refl _, Nat.le_refl _⟩
  error h hr := by simp at hr
  tail hr := by simp at hr

/-- Two readers in sequence. -/
theorem Reads.bind {α β : Type} {s : State} {n m : Nat} {f : Bd → Except BdStop (α × Bd)}
    {g : α → Bd → Except BdStop (β × Bd)} (hf : Reads s n f) (hg : ∀ a, Reads s m (g a)) :
    Reads s (n + m) (fun b => (f b).bind fun r => g r.1 r.2) where
  ok {b a e} h hr := by
    cases hfb : f b with
    | error x => simp [hfb, Except.bind] at hr
    | ok r =>
      obtain ⟨a1, e1⟩ := r
      simp only [hfb, Except.bind] at hr
      obtain ⟨h1, h2, h3, h4⟩ := hf.ok h hfb
      obtain ⟨k1, k2, k3, k4⟩ := (hg a1).ok h1 hr
      exact ⟨k1, k2.trans h2, h3.trans k3, by omega⟩
  error {b x} h hr := by
    cases hfb : f b with
    | error y =>
      simp only [hfb, Except.bind, Except.error.injEq] at hr
      subst hr
      obtain ⟨h1, h2, h3⟩ := hf.error h hfb
      exact ⟨h1, by omega, h3⟩
    | ok r =>
      obtain ⟨a1, e1⟩ := r
      simp only [hfb, Except.bind] at hr
      obtain ⟨k1, k2, -, k4⟩ := hf.ok h hfb
      obtain ⟨h1, h2, h3⟩ := (hg a1).error k1 hr
      exact ⟨h1, by omega, h3⟩
  tail {b} hr := by
    cases hfb : f b with
    | error y =>
      simp only [hfb, Except.bind, Except.error.injEq] at hr
      exact hf.tail (hr ▸ hfb)
    | ok r =>
      simp only [hfb, Except.bind] at hr
      exact (hg r.1).tail hr

/-- A reader of at most `n` bools is one of at most `m` for every larger `m`. -/
theorem Reads.mono {α : Type} {s : State} {n m : Nat} {f : Bd → Except BdStop (α × Bd)} (hf : Reads s n f) (h : n ≤ m) :
    Reads s m f where
  ok hb hr := by
    obtain ⟨h1, h2, h3, h4⟩ := hf.ok hb hr
    exact ⟨h1, h2, h3, by omega⟩
  error hb hr := by
    obtain ⟨h1, h2, h3⟩ := hf.error hb hr
    exact ⟨h1, by omega, h3⟩
  tail := hf.tail

/-- A reader with enough bytes, or zero fill, answers. -/
theorem Reads.answers {α : Type} {s : State} {n : Nat} {f : Bd → Except BdStop (α × Bd)} (hf : Reads s n f) {b : Bd}
    (h : b.Ok) (hc : CanFetch s b n) : ∃ a e, f b = .ok (a, e) ∧ e.Ok := by
  cases hfb : f b with
  | ok r => exact ⟨r.1, r.2, rfl, (hf.ok h hfb).1⟩
  | error x =>
    obtain ⟨-, h2, h3⟩ := hf.error h hfb
    rcases hc with hc | hc
    · simp [hc] at h3
    · omega

/-- `readUint(prob, n)` makes n reads. -/
theorem Reads.readUint (s : State) (prob : Byte) (n : Nat) : Reads s n (readUint s prob n) := by
  induction n with
  | zero => exact Reads.pure s 0
  | succ k ih =>
    have := (Reads.readBit s prob).bind (fun bit => ih.bind (fun u => Reads.pure s (bit.toNat * 2 ^ k + u)))
    exact this.mono (by omega)

/-- The value of an n-bit literal is below 2^n (R104). -/
theorem readUint_lt {s : State} {prob : Byte} {n u : Nat} {b e : Bd} (h : readUint s prob n b = .ok (u, e)) : u < 2 ^ n := by
  induction n generalizing u b e with
  | zero =>
    simp only [Machine.readUint, Except.ok.injEq, Prod.mk.injEq] at h
    omega
  | succ k ih =>
    unfold Machine.readUint at h
    cases h1 : Machine.readBit s prob b with
    | error x => simp [h1, Bind.bind, Except.bind] at h
    | ok r =>
      obtain ⟨bit, b1⟩ := r
      cases h2 : Machine.readUint s prob k b1 with
      | error x => simp [h1, h2, Bind.bind, Except.bind] at h
      | ok r2 =>
        obtain ⟨u2, b2⟩ := r2
        simp only [h1, h2, Bind.bind, Except.bind, Pure.pure, Except.pure, Except.ok.injEq, Prod.mk.injEq] at h
        have := ih h2
        rw [Nat.pow_succ]
        cases bit <;> simp only [Bool.toNat_true, Bool.toNat_false] at h <;> omega

end Sys2Proof.Machine
end

