-- ==== Sys2Proof/Laws/MotionComp.lean ====
section
/-! SUPPORT. What the motion-compensation operations do: the addresses of samples, the cells a command writes, and what WS reads
after them (spec/42_motion_comp.md R148 to R158, spec/20_memory.md R63, R64, spec/10_state.md R45). -/

namespace Sys2Proof.Machine

/-! ### Arithmetic (R16, R17) -/

/-- A clipped value lies between the bounds. -/
theorem clip_bounds (v lo hi : Int) (h : lo ≤ hi) : lo ≤ clip v lo hi ∧ clip v lo hi ≤ hi := by
  unfold clip
  split
  · omega
  · split <;> omega

/-- Clipping to a bound range is the maximum of the minimum. -/
theorem clip_eq_max_min (v lo hi : Int) (h : lo ≤ hi) : clip v lo hi = max lo (min v hi) := by
  unfold clip
  split
  · omega
  · split <;> omega

theorem clip255_bounds (v : Int) : 0 ≤ clip255 v ∧ clip255 v ≤ 255 := clip_bounds v 0 255 (by decide)

/-- A value in range is not clipped. -/
theorem clip255_of_mem (v : Int) (h0 : 0 ≤ v) (h1 : v ≤ 255) : clip255 v = v := by
  unfold clip255 clip
  split
  · omega
  · split <;> omega

theorem shr_two (a : Int) : shr a 2 = a / 4 := rfl

theorem shr_three (a : Int) : shr a 3 = a / 8 := rfl

theorem lowBits_two (a : Int) : lowBits a 2 = a % 4 := rfl

theorem lowBits_three (a : Int) : lowBits a 3 = a % 8 := rfl

/-! ### Samples -/

theorem lumaSample_bounds (s : State) (d : RefDesc) (x y : Int) : 0 ≤ lumaSample s d x y ∧ lumaSample s d x y ≤ 255 := by
  have := (s.memByte (lumaAddr d x y)).isLt
  simp only [lumaSample]
  omega

theorem chromaSample_bounds (s : State) (d : RefDesc) (p : Plane) (x y : Int) :
    0 ≤ chromaSample s d p x y ∧ chromaSample s d p x y ≤ 255 := by
  have := (s.memByte (chromaAddr s.config.chromaEdge d p x y)).isLt
  simp only [chromaSample]
  omega

/-- A sample's address stands between the first and the last byte of its plane (R63, R64). -/
theorem sampleAddr_bounds (base stride w h : Nat) (x y : Int) (hw : 1 ≤ w) (hh : 1 ≤ h) :
    base ≤ sampleAddr base stride w h x y ∧ sampleAddr base stride w h x y ≤ lastByte base stride w h := by
  obtain ⟨hx0, hx1⟩ := clip_bounds x 0 (w - 1) (by omega)
  obtain ⟨hy0, hy1⟩ := clip_bounds y 0 (h - 1) (by omega)
  have hx : (clip x 0 (w - 1)).toNat ≤ w - 1 := by omega
  have hy : (clip y 0 (h - 1)).toNat * stride ≤ (h - 1) * stride := Nat.mul_le_mul_right _ (by omega)
  unfold sampleAddr lastByte
  omega

/-- A sample's address reads the nearest edge for each coordinate out of range (R63, R64). -/
theorem sampleAddr_eq_max_min (base stride w h : Nat) (x y : Int) (hw : 1 ≤ w) (hh : 1 ≤ h) :
    sampleAddr base stride w h x y =
      base + (max 0 (min y (h - 1))).toNat * stride + (max 0 (min x (w - 1))).toNat := by
  rw [sampleAddr, clip_eq_max_min x 0 (w - 1) (by omega), clip_eq_max_min y 0 (h - 1) (by omega)]

/-- What a well-formed descriptor promises (R43). -/
theorem RefDesc.wellFormed_iff (d : RefDesc) (e : ChromaEdge) :
    d.wellFormed e = true ↔
      1 ≤ d.lumaW ∧ 1 ≤ d.lumaH ∧ 1 ≤ d.chromaW e ∧ 1 ≤ d.chromaH e
      ∧ d.lumaW ≤ d.yStride.toNat ∧ d.chromaW e ≤ d.cStride.toNat
      ∧ lastByte d.yBase.toNat d.yStride.toNat d.lumaW d.lumaH < 2 ^ 32
      ∧ lastByte d.cbBase.toNat d.cStride.toNat (d.chromaW e) (d.chromaH e) < 2 ^ 32
      ∧ lastByte d.crBase.toNat d.cStride.toNat (d.chromaW e) (d.chromaH e) < 2 ^ 32 := by
  simp only [RefDesc.wellFormed, Bool.and_eq_true, decide_eq_true_eq, and_assoc]

/-! ### The filters with equal samples -/

/-- Two states whose MEM gives the same samples give the same luma prediction. -/
theorem luma6_congr {s t : State} {d : RefDesc} (hc : t.config = s.config)
    (hs : ∀ x y, lumaSample t d x y = lumaSample s d x y) (x y : Int) (hx hy : Nat) :
    luma6 t d x y hx hy = luma6 s d x y hx hy := by
  have h1 : lumaTemp t d x y hx = lumaTemp s d x y hx := by
    funext r
    simp only [lumaTemp, lumaPhase1, hc, hs]
  have h2 : lumaTempRfc t d x y hx = lumaTempRfc s d x y hx := by
    funext r
    simp only [lumaTempRfc, hs]
  simp only [luma6, luma6Doc, luma6Rfc, h1, h2, hc]

/-- Two states whose MEM gives the same samples give the same chroma prediction. -/
theorem bil_congr {s t : State} {d : RefDesc} {p : Plane} (hs : ∀ x y, chromaSample t d p x y = chromaSample s d p x y)
    (x y gx gy : Int) : bil t d p x y gx gy = bil s d p x y gx gy := by
  simp only [bil, hs]

/-! ### Cells -/

/-- Bytes of WS have one index each. -/
theorem wsIndex_inj {r c r' c' : Nat} (hc : c < 32) (hc' : c' < 32) (h : wsIndex r c = wsIndex r' c') : r = r' ∧ c = c' := by
  unfold wsIndex at h
  omega

/-- The luma cell of pixel (i, j) of a block that starts at row r0, column c0 of the macroblock (R148). -/
theorem lumaPixel_shift (s : State) (d : RefDesc) (px py vx vy : Int) (r0 c0 i j : Nat) :
    lumaPixel s d (px + c0) (py + r0) vx vy i j = lumaPixel s d px py vx vy (r0 + i) (c0 + j) := by
  unfold lumaPixel
  congr 2
  · push_cast
    ring
  · push_cast
    ring

/-- The chroma cell of pixel (i, j) of a block that starts at row r0, column c0 (R149). -/
theorem chromaPixel_shift (s : State) (d : RefDesc) (p : Plane) (qx qy vx vy : Int) (g : Bool) (r0 c0 i j : Nat) :
    chromaPixel s d p (qx + c0) (qy + r0) vx vy g i j = chromaPixel s d p qx qy vx vy g (r0 + i) (c0 + j) := by
  unfold chromaPixel
  congr 2
  · push_cast
    ring
  · push_cast
    ring

/-- A luma pixel with the displacement written last (R142, R159). -/
theorem lumaPixel_eq (s : State) (d : RefDesc) (px py vx vy : Int) (i j : Nat) :
    lumaPixel s d px py vx vy i j =
      BitVec.ofInt 8 (luma6 s d (px + j + vx / 4) (py + i + vy / 4) (2 * (vx % 4)).toNat (2 * (vy % 4)).toNat) := by
  have hx : px + shr vx 2 + j = px + j + vx / 4 := by rw [shr_two]; ring
  have hy : py + shr vy 2 + i = py + i + vy / 4 := by rw [shr_two]; ring
  rw [lumaPixel, hx, hy, lowBits_two, lowBits_two]

/-- A chroma pixel with the displacement written last (R143). -/
theorem chromaPixel_eq (s : State) (d : RefDesc) (p : Plane) (qx qy vx vy : Int) (g : Bool) (i j : Nat) :
    chromaPixel s d p qx qy vx vy g i j =
      BitVec.ofInt 8 (bil s d p (qx + j + vx / 8) (qy + i + vy / 8) (chromaPhase g vx) (chromaPhase g vy)) := by
  have hx : qx + shr vx 3 + j = qx + j + vx / 8 := by rw [shr_three]; ring
  have hy : qy + shr vy 3 + i = qy + i + vy / 8 := by rw [shr_three]; ring
  rw [chromaPixel, hx, hy]

/-- The phases of a gated block are 0 (R151). -/
@[simp] theorem chromaPhase_true (v : Int) : chromaPhase true v = 0 := rfl

/-- The phases of a block that is not gated (R143). -/
@[simp] theorem chromaPhase_false (v : Int) : chromaPhase false v = v % 8 := rfl

/-- The gate of MC_PREDICT (R151, R152). -/
theorem chromaGate_iff (s : State) (vx vy : Int) :
    chromaGate s vx vy = true ↔ s.config.chromaFastpath = .lumaGated ∧ vx % 4 = 0 ∧ vy % 4 = 0 := by
  simp [chromaGate, lowBits_two, and_assoc]

/-- The MV register of a sub-block (R29). -/
theorem State.submvWord_eq (s : State) (b : Nat) (h : b < 16) : s.submvWord b = s.submv[b] := by
  simp [State.submvWord, Vector.getElem?_eq_getElem h]

/-- Row 0 of F6 keeps the middle sample, times 128 (R140). -/
theorem sixTap_zero (v : Nat → Int) : sixTap 0 v = v 2 * 128 := by
  simp [sixTap, f6, f6Table]
  ring

/-- The rows of F6 that luma prediction uses, tap by tap (R140). -/
theorem sixTap_eq_tapSum {k : Nat} (hk : k ∈ [0, 2, 4, 6]) (v : Nat → Int) :
    sixTap k v = tapSum k (v 0) (v 1) (v 2) (v 3) (v 4) (v 5) := by
  simp only [List.mem_cons, List.not_mem_nil, or_false] at hk
  rcases hk with rfl | rfl | rfl | rfl <;> simp [sixTap, f6, f6Table, tapSum] <;> ring

/-- A bilinear pass with its weights (R141, R147). -/
theorem bilPass_eq (k a b : Int) : bilPass k a b = (a * (128 - 16 * k) + b * (16 * k) + 64) / 128 := rfl

/-- `clip255` as a maximum and a minimum (R17). -/
theorem clip255_eq_max_min (v : Int) : clip255 v = max 0 (min v 255) := clip_eq_max_min v 0 255 (by decide)

/-- Row 0 of BIL keeps the first sample (R141). -/
theorem bilPass_zero (a b : Int) : bilPass 0 a b = a := by
  simp only [bilPass, bil0, bil1, shr]
  omega

/-- Rounding a sample scaled by 128 gives it back (R156). -/
theorem clip255_round (v : Int) (h0 : 0 ≤ v) (h1 : v ≤ 255) : clip255 (shr (v * 128 + 64) 7) = v := by
  have h : shr (v * 128 + 64) 7 = v := by
    simp only [shr]
    omega
  rw [h, clip255_of_mem v h0 h1]

/-! ### The cells of a macroblock (R45) -/

/-- The cells are those of one macroblock, each byte of the three regions written, with luma bytes `luma i j` and chroma bytes
`chroma p i j`. -/
structure CellsOf (cells : List Host.Cell) (luma : Nat → Nat → Byte) (chroma : Plane → Nat → Nat → Byte) : Prop where
  only : ∀ c ∈ cells,
    (∃ i < 16, ∃ j < 16, c = (wsIndex (1 + i) (8 + j), luma i j))
      ∨ ∃ p, ∃ i < 8, ∃ j < 8, c = (wsIndex (18 + i) (planeCol p + j), chroma p i j)
  luma : ∀ i < 16, ∀ j < 16, (wsIndex (1 + i) (8 + j), luma i j) ∈ cells
  chroma : ∀ p, ∀ i < 8, ∀ j < 8, (wsIndex (18 + i) (planeCol p + j), chroma p i j) ∈ cells

/-- The three regions, by their pixels (R45). -/
theorem inRegions_iff (k : Nat) :
    inRegions k = true ↔
      (∃ i < 16, ∃ j < 16, k = wsIndex (1 + i) (8 + j))
        ∨ ∃ p, ∃ i < 8, ∃ j < 8, k = wsIndex (18 + i) (planeCol p + j) := by
  simp only [inRegions, Bool.or_eq_true, Bool.and_eq_true, decide_eq_true_eq, wsIndex]
  constructor
  · rintro (⟨⟨⟨h1, h2⟩, h3⟩, h4⟩ | ⟨⟨h1, h2⟩, ⟨h3, h4⟩ | ⟨h3, h4⟩⟩)
    · exact .inl ⟨k / 32 - 1, by omega, k % 32 - 8, by omega, by omega⟩
    · exact .inr ⟨.cb, k / 32 - 18, by omega, k % 32 - 8, by omega, by simp only [planeCol]; omega⟩
    · exact .inr ⟨.cr, k / 32 - 18, by omega, k % 32 - 24, by omega, by simp only [planeCol]; omega⟩
  · rintro (⟨i, hi, j, hj, rfl⟩ | ⟨p, i, hi, j, hj, rfl⟩)
    · exact .inl ⟨⟨⟨by omega, by omega⟩, by omega⟩, by omega⟩
    · refine .inr ⟨⟨by cases p <;> simp only [planeCol] <;> omega, by cases p <;> simp only [planeCol] <;> omega⟩, ?_⟩
      cases p
      · exact .inl ⟨by simp only [planeCol]; omega, by simp only [planeCol]; omega⟩
      · exact .inr ⟨by simp only [planeCol]; omega, by simp only [planeCol]; omega⟩

/-- Every byte of the regions lies in WS. -/
theorem inRegions_lt {k : Nat} (h : inRegions k = true) : k < wsSize := by
  simp only [inRegions, Bool.or_eq_true, Bool.and_eq_true, decide_eq_true_eq] at h
  simp only [wsSize]
  omega

/-- No two pixels share a byte. -/
theorem CellsOf.value_unique {cells : List Host.Cell} {luma : Nat → Nat → Byte} {chroma : Plane → Nat → Nat → Byte}
    (h : CellsOf cells luma chroma) :
    (∀ i < 16, ∀ j < 16, ∀ c ∈ cells, c.1 = wsIndex (1 + i) (8 + j) → c.2 = luma i j)
      ∧ ∀ p, ∀ i < 8, ∀ j < 8, ∀ c ∈ cells, c.1 = wsIndex (18 + i) (planeCol p + j) → c.2 = chroma p i j := by
  have hcol : ∀ p, planeCol p = 8 ∨ planeCol p = 24 := by
    intro p
    cases p
    · exact .inl rfl
    · exact .inr rfl
  refine ⟨fun i hi j hj c hc heq => ?_, fun p i hi j hj c hc heq => ?_⟩
  · rcases h.only c hc with ⟨i', hi', j', hj', rfl⟩ | ⟨p', i', hi', j', hj', rfl⟩
    · obtain ⟨h1, h2⟩ := wsIndex_inj (by omega) (by omega) heq
      rw [show i' = i by omega, show j' = j by omega]
    · have := hcol p'
      obtain ⟨h1, h2⟩ := wsIndex_inj (by omega) (by omega) heq
      omega
  · have hp := hcol p
    rcases h.only c hc with ⟨i', hi', j', hj', rfl⟩ | ⟨p', i', hi', j', hj', rfl⟩
    · obtain ⟨h1, h2⟩ := wsIndex_inj (by omega) (by omega) heq
      omega
    · have := hcol p'
      obtain ⟨h1, h2⟩ := wsIndex_inj (by omega) (by omega) heq
      have hpp : planeCol p' = planeCol p := by omega
      have : p' = p := by cases p <;> cases p' <;> first | rfl | (simp [planeCol] at hpp)
      subst this
      rw [show i' = i by omega, show j' = j by omega]

/-- The bytes named by the cells lie in the regions. -/
theorem CellsOf.index {cells : List Host.Cell} {luma : Nat → Nat → Byte} {chroma : Plane → Nat → Nat → Byte}
    (h : CellsOf cells luma chroma) : ∀ c ∈ cells, inRegions c.1 = true := by
  intro c hc
  rw [inRegions_iff]
  rcases h.only c hc with ⟨i, hi, j, hj, rfl⟩ | ⟨p, i, hi, j, hj, rfl⟩
  · exact .inl ⟨i, hi, j, hj, rfl⟩
  · exact .inr ⟨p, i, hi, j, hj, rfl⟩

/-- WS after a macroblock is written: a luma byte. -/
theorem CellsOf.wsByte_luma {cells : List Host.Cell} {luma : Nat → Nat → Byte} {chroma : Plane → Nat → Nat → Byte}
    (h : CellsOf cells luma chroma) (s : State) (i j : Nat) (hi : i < 16) (hj : j < 16) :
    (s.writeWs cells).wsByte (wsIndex (1 + i) (8 + j)) = luma i j :=
  State.wsByte_writeWs_of_mem s cells _ _ (h.luma i hi j hj) (h.value_unique.1 i hi j hj)

/-- WS after a macroblock is written: a chroma byte. -/
theorem CellsOf.wsByte_chroma {cells : List Host.Cell} {luma : Nat → Nat → Byte} {chroma : Plane → Nat → Nat → Byte}
    (h : CellsOf cells luma chroma) (s : State) (p : Plane) (i j : Nat) (hi : i < 8) (hj : j < 8) :
    (s.writeWs cells).wsByte (wsIndex (18 + i) (planeCol p + j)) = chroma p i j :=
  State.wsByte_writeWs_of_mem s cells _ _ (h.chroma p i hi j hj) (h.value_unique.2 p i hi j hj)

/-- WS after a macroblock is written: a byte outside the regions. -/
theorem CellsOf.wsByte_other {cells : List Host.Cell} {luma : Nat → Nat → Byte} {chroma : Plane → Nat → Nat → Byte}
    (h : CellsOf cells luma chroma) (s : State) (k : Nat) (hk : inRegions k = false) :
    (s.writeWs cells).wsByte k = s.wsByte k :=
  State.wsByte_writeWs_other s cells k fun c hc heq => by
    have := h.index c hc
    rw [heq, hk] at this
    exact absurd this (by simp)

/-- Writing a macroblock keeps WS's canonical form. -/
theorem CellsOf.wf {cells : List Host.Cell} {luma : Nat → Nat → Byte} {chroma : Plane → Nat → Nat → Byte}
    (h : CellsOf cells luma chroma) (m : Memory) (hm : Memory.wf wsSize m) : Memory.wf wsSize (m.writeAll cells) :=
  Memory.writeAll_wf wsSize m cells (fun c hc => inRegions_lt (h.index c hc)) hm

/-- The cells of a missing reference are 128 (R150). -/
theorem missingCells_spec : CellsOf missingCells (fun _ _ => 128) (fun _ _ _ => 128) where
  only c hc := by
    simp only [missingCells, List.mem_append, mem_blockCells] at hc
    rcases hc with (⟨i, hi, j, hj, rfl⟩ | ⟨i, hi, j, hj, rfl⟩) | ⟨i, hi, j, hj, rfl⟩
    · exact .inl ⟨i, hi, j, hj, rfl⟩
    · exact .inr ⟨.cb, i, hi, j, hj, rfl⟩
    · exact .inr ⟨.cr, i, hi, j, hj, rfl⟩
  luma i hi j hj := by
    simp only [missingCells, List.mem_append, mem_blockCells]
    exact .inl (.inl ⟨i, hi, j, hj, rfl⟩)
  chroma p i hi j hj := by
    simp only [missingCells, List.mem_append, mem_blockCells]
    cases p
    · exact .inl (.inr ⟨i, hi, j, hj, rfl⟩)
    · exact .inr ⟨i, hi, j, hj, rfl⟩

/-- A missing reference writes WS and MISSREF and nothing else (R150). -/
theorem State.missingFill_eq (s : State) :
    s.missingFill = { s with ws := s.ws.writeAll missingCells, missref := s.missref + 1 } := by
  simp only [State.missingFill, State.writeWs, State.countMissing]

/-- WS after a missing reference is filled. -/
theorem State.missingFill_wsByte (s : State) (k : Nat) : s.missingFill.wsByte k = (s.writeWs missingCells).wsByte k := by
  simp only [State.missingFill, State.wsByte, State.countMissing_ws, State.countMissing_wsDraw]

/-- The cells of MC_PREDICT (R152). -/
theorem predictCells_spec (s : State) (d : RefDesc) :
    CellsOf (predictCells s d)
      (lumaPixel s d (16 * s.mbx) (16 * s.mby) (mvX s.mbmv) (mvY s.mbmv))
      (fun p => chromaPixel s d p (8 * s.mbx) (8 * s.mby) (mvX s.mbmv) (mvY s.mbmv)
        (chromaGate s (mvX s.mbmv) (mvY s.mbmv))) where
  only c hc := by
    simp only [predictCells, lumaBlock, chromaBlock, List.mem_append, mem_blockCells] at hc
    rcases hc with ⟨i, hi, j, hj, rfl⟩ | ⟨i, hi, j, hj, rfl⟩ | ⟨i, hi, j, hj, rfl⟩
    · exact .inl ⟨i, hi, j, hj, rfl⟩
    · exact .inr ⟨.cb, i, hi, j, hj, rfl⟩
    · exact .inr ⟨.cr, i, hi, j, hj, rfl⟩
  luma i hi j hj := by
    simp only [predictCells, lumaBlock, List.mem_append, mem_blockCells]
    exact .inl ⟨i, hi, j, hj, rfl⟩
  chroma p i hi j hj := by
    simp only [predictCells, chromaBlock, List.mem_append, mem_blockCells]
    cases p
    · exact .inr (.inl ⟨i, hi, j, hj, rfl⟩)
    · exact .inr (.inr ⟨i, hi, j, hj, rfl⟩)

/-- The luma byte of pixel (i, j) under MC_PREDICT_SPLIT: the MV of its 4 x 4 sub-block (R154). -/
def splitLuma (s : State) (d : RefDesc) (i j : Nat) : Byte :=
  let v := s.submvWord (4 * (i / 4) + j / 4)
  lumaPixel s d (16 * s.mbx) (16 * s.mby) (mvX v) (mvY v) i j

/-- The chroma byte of pixel (i, j) under MC_PREDICT_SPLIT: the mean MV of its quadrant (R154). -/
def splitChromaByte (s : State) (d : RefDesc) (p : Plane) (i j : Nat) : Byte :=
  chromaPixel s d p (8 * s.mbx) (8 * s.mby) (splitChroma s mvX (i / 4) (j / 4)) (splitChroma s mvY (i / 4) (j / 4)) false i j

/-- The cells of one luma sub-block (R154). -/
theorem mem_splitLumaCells (s : State) (d : RefDesc) (b : Nat) (c : Host.Cell) :
    c ∈ splitLumaCells s d b ↔
      ∃ i < 4, ∃ j < 4, c = (wsIndex (1 + (4 * (b / 4) + i)) (8 + (4 * (b % 4) + j)),
        splitLuma s d (4 * (b / 4) + i) (4 * (b % 4) + j)) := by
  simp only [splitLumaCells, lumaBlock, mem_blockCells, lumaPixel_shift, Nat.add_assoc]
  constructor <;>
  · rintro ⟨i, hi, j, hj, rfl⟩
    refine ⟨i, hi, j, hj, ?_⟩
    have hbb : 4 * ((4 * (b / 4) + i) / 4) + (4 * (b % 4) + j) / 4 = b := by omega
    simp only [splitLuma, hbb]

/-- The cells of one chroma quadrant (R154). -/
theorem mem_splitChromaCells (s : State) (d : RefDesc) (ci cj : Nat) (c : Host.Cell) :
    c ∈ splitChromaCells s d ci cj ↔
      ∃ p, ∃ i < 4, ∃ j < 4, c = (wsIndex (18 + (4 * ci + i)) (planeCol p + (4 * cj + j)),
        splitChromaByte s d p (4 * ci + i) (4 * cj + j)) := by
  have key : ∀ p i j, i < 4 → j < 4 → splitChromaByte s d p (4 * ci + i) (4 * cj + j) =
      chromaPixel s d p (8 * s.mbx) (8 * s.mby) (splitChroma s mvX ci cj) (splitChroma s mvY ci cj) false
        (4 * ci + i) (4 * cj + j) := by
    intro p i j hi hj
    have h1 : (4 * ci + i) / 4 = ci := by omega
    have h2 : (4 * cj + j) / 4 = cj := by omega
    simp only [splitChromaByte, h1, h2]
  have shift : ∀ p i j, chromaPixel s d p (8 * s.mbx + 4 * cj) (8 * s.mby + 4 * ci) (splitChroma s mvX ci cj)
      (splitChroma s mvY ci cj) false i j = chromaPixel s d p (8 * s.mbx) (8 * s.mby) (splitChroma s mvX ci cj)
      (splitChroma s mvY ci cj) false (4 * ci + i) (4 * cj + j) := by
    intro p i j
    have := chromaPixel_shift s d p (8 * s.mbx) (8 * s.mby) (splitChroma s mvX ci cj) (splitChroma s mvY ci cj) false
      (4 * ci) (4 * cj) i j
    push_cast at this
    exact this
  simp only [splitChromaCells, chromaBlock, List.mem_append, mem_blockCells, Nat.add_assoc]
  constructor
  · rintro (⟨i, hi, j, hj, rfl⟩ | ⟨i, hi, j, hj, rfl⟩)
    · exact ⟨.cb, i, hi, j, hj, by rw [key _ _ _ hi hj, shift]⟩
    · exact ⟨.cr, i, hi, j, hj, by rw [key _ _ _ hi hj, shift]⟩
  · rintro ⟨p, i, hi, j, hj, rfl⟩
    cases p
    · exact .inl ⟨i, hi, j, hj, by rw [key _ _ _ hi hj, shift]⟩
    · exact .inr ⟨i, hi, j, hj, by rw [key _ _ _ hi hj, shift]⟩

/-- The cells of MC_PREDICT_SPLIT (R154). -/
theorem splitCells_spec (s : State) (d : RefDesc) : CellsOf (splitCells s d) (splitLuma s d) (splitChromaByte s d) where
  only c hc := by
    simp only [splitCells, List.mem_append, List.mem_flatMap, List.mem_range] at hc
    rcases hc with ⟨b, hb, hc⟩ | hc
    · obtain ⟨i, hi, j, hj, rfl⟩ := (mem_splitLumaCells s d b c).1 hc
      exact .inl ⟨4 * (b / 4) + i, by omega, 4 * (b % 4) + j, by omega, rfl⟩
    · right
      have : ∃ ci < 2, ∃ cj < 2, c ∈ splitChromaCells s d ci cj := by
        rcases hc with ((hc | hc) | hc) | hc
        · exact ⟨0, by omega, 0, by omega, hc⟩
        · exact ⟨0, by omega, 1, by omega, hc⟩
        · exact ⟨1, by omega, 0, by omega, hc⟩
        · exact ⟨1, by omega, 1, by omega, hc⟩
      obtain ⟨ci, hci, cj, hcj, hc⟩ := this
      obtain ⟨p, i, hi, j, hj, rfl⟩ := (mem_splitChromaCells s d ci cj c).1 hc
      exact ⟨p, 4 * ci + i, by omega, 4 * cj + j, by omega, rfl⟩
  luma i hi j hj := by
    simp only [splitCells, List.mem_append, List.mem_flatMap, List.mem_range]
    refine .inl ⟨4 * (i / 4) + j / 4, by omega, ?_⟩
    rw [mem_splitLumaCells]
    refine ⟨i % 4, by omega, j % 4, by omega, ?_⟩
    rw [show 4 * ((4 * (i / 4) + j / 4) / 4) + i % 4 = i by omega,
      show 4 * ((4 * (i / 4) + j / 4) % 4) + j % 4 = j by omega]
  chroma p i hi j hj := by
    have h : (wsIndex (18 + i) (planeCol p + j), splitChromaByte s d p i j) ∈ splitChromaCells s d (i / 4) (j / 4) := by
      rw [mem_splitChromaCells]
      refine ⟨p, i % 4, by omega, j % 4, by omega, ?_⟩
      rw [show 4 * (i / 4) + i % 4 = i by omega, show 4 * (j / 4) + j % 4 = j by omega]
    simp only [splitCells, List.mem_append]
    right
    rcases (by omega : i / 4 = 0 ∨ i / 4 = 1) with h1 | h1 <;> rcases (by omega : j / 4 = 0 ∨ j / 4 = 1) with h2 | h2 <;>
      rw [h1, h2] at h
    · exact .inl (.inl (.inl h))
    · exact .inl (.inl (.inr h))
    · exact .inl (.inr h)
    · exact .inr h

/-! ### The two commands -/

/-- The cells an MC command writes. -/
def mcCells (i : Instr) (s : State) (d : RefDesc) : List Host.Cell :=
  match i with
  | .mcPredict _ => predictCells s d
  | .mcPredictSplit _ => splitCells s d
  | _ => []

/-- An MC command is `mcCommand` of its cells. -/
theorem exec_mc {i : Instr} {ref : RefTag} (h : mcTag i = some ref) (s : State) :
    exec i s = mcCommand i ref s (mcCells i s) := by
  cases i <;> simp only [mcTag, Option.some.injEq, reduceCtorEq] at h
  · subst h; rfl
  · subst h; rfl

/-- An MC command's cells are those of one macroblock. -/
theorem mcCells_spec {i : Instr} {ref : RefTag} (h : mcTag i = some ref) (s : State) (d : RefDesc) :
    ∃ luma chroma, CellsOf (mcCells i s d) luma chroma := by
  cases i <;> simp only [mcTag, reduceCtorEq] at h
  · exact ⟨_, _, predictCells_spec s d⟩
  · exact ⟨_, _, splitCells_spec s d⟩

/-- Everything an MC command can do (R150, R152, R154, R155, R88). -/
theorem exec_mc_cases {i : Instr} {ref : RefTag} (h : mcTag i = some ref) (s : State) :
    (ref = .intra ∧ exec i s = .next (s.raise .illegalOperand (encode i)))
    ∨ ∃ t, frameOf ref = some t ∧
      (((s.refs.get t).valid = false ∧ exec i s = .next s.missingFill)
      ∨ ((s.refs.get t).valid = true ∧ (s.refs.get t).wellFormed s.config.chromaEdge = false
          ∧ exec i s = .next (s.raise .badRefDesc (encode i)))
      ∨ ((s.refs.get t).valid = true ∧ (s.refs.get t).wellFormed s.config.chromaEdge = true
          ∧ exec i s = .next (s.writeWs (mcCells i s (s.refs.get t))))) := by
  rw [exec_mc h]
  cases ref
  · exact .inl ⟨rfl, rfl⟩
  all_goals
    refine .inr ⟨_, rfl, ?_⟩
    simp only [mcCommand, frameOf]
    split
    · rename_i hv
      split
      · rename_i hw
        exact .inr (.inr ⟨hv, hw, rfl⟩)
      · rename_i hw
        exact .inr (.inl ⟨hv, by simpa using hw, rfl⟩)
    · rename_i hv
      exact .inl ⟨by simpa using hv, rfl⟩

/-- States alike in the parameters, the operand registers and the samples of a descriptor write the same cells. -/
theorem mcCells_congr {s t : State} {d : RefDesc} (i : Instr) (hc : t.config = s.config) (hp : t.mbPos = s.mbPos)
    (hm : t.mbmv = s.mbmv) (hs : t.submv = s.submv) (hl : ∀ x y, lumaSample t d x y = lumaSample s d x y)
    (hch : ∀ p x y, chromaSample t d p x y = chromaSample s d p x y) : mcCells i t d = mcCells i s d := by
  have h1 : lumaPixel t d = lumaPixel s d := by
    funext px py vx vy i j
    simp only [lumaPixel, luma6_congr hc hl]
  have h2 : chromaPixel t d = chromaPixel s d := by
    funext p px py vx vy g i j
    simp only [chromaPixel, bil_congr (hch p)]
  have hb : lumaBlock t d = lumaBlock s d := by
    funext px py vx vy r0 c0 n
    rw [lumaBlock, lumaBlock, h1]
  have hcb : chromaBlock t d = chromaBlock s d := by
    funext qx qy vx vy r0 c0 n g
    rw [chromaBlock, chromaBlock, h2]
  have hx : t.mbx = s.mbx := by rw [State.mbx, State.mbx, hp]
  have hy : t.mby = s.mby := by rw [State.mby, State.mby, hp]
  have hsub : t.submvWord = s.submvWord := by
    funext b
    rw [State.submvWord, State.submvWord, hs]
  have hsl : splitLumaCells t d = splitLumaCells s d := by
    funext b
    rw [splitLumaCells, splitLumaCells, hb, hx, hy, hsub]
  have hsc : splitChroma t = splitChroma s := by
    funext f ci cj
    rw [splitChroma, splitChroma, quadrantSum, quadrantSum, hsub]
  have hscc : splitChromaCells t d = splitChromaCells s d := by
    funext ci cj
    rw [splitChromaCells, splitChromaCells, hcb, hx, hy, hsc]
  have hg : chromaGate t = chromaGate s := by
    funext vx vy
    rw [chromaGate, chromaGate, hc]
  cases i with
  | mcPredict r =>
    rw [mcCells, mcCells, predictCells, predictCells, hb, hcb, hx, hy, hm, hg]
  | mcPredictSplit r => rw [mcCells, mcCells, splitCells, splitCells, hsl, hscc]
  | _ => rfl

/-- An MC command on a VALID, well-formed descriptor writes its cells to WS and nothing else (R152, R154). -/
theorem exec_mc_ok {i : Instr} {ref : RefTag} {t : FrameTag} {s : State} (h : mcTag i = some ref) (hf : frameOf ref = some t)
    (hv : (s.refs.get t).valid = true) (hw : (s.refs.get t).wellFormed s.config.chromaEdge = true) :
    exec i s = .next { s with ws := s.ws.writeAll (mcCells i s (s.refs.get t)) } := by
  rw [exec_mc h]
  simp only [mcCommand, hf, hv, hw, if_true, State.writeWs]

/-- WS with cells written, said either way. -/
theorem State.withWs_writeAll (s : State) (cells : List Host.Cell) (k : Nat) :
    (s.withWs (s.ws.writeAll cells)).wsByte k = (s.writeWs cells).wsByte k := rfl

end Sys2Proof.Machine
end

