-- ==== Sys2Proof/Laws/MvDecoder.lean ====
section
/-! SUPPORT. What the MV-component decoder's operations do: how many bools each reads, and the range of its value
(spec/41_mv_decoder.md R123 to R128, R133). -/

namespace Sys2Proof.Machine

/-! ### The number of reads -/

/-- The short tree reads three bools (R123). -/
theorem Reads.shortTree (s : State) (p : Vector Byte 19) : Reads s 3 (shortTree s p) := by
  have h := (Reads.readBit s p[2]).bind (m := 2) (g := fun b0 b =>
    if b0 then (Machine.readBit s p[6] b).bind fun r1 =>
      (Machine.readBit s (if r1.1 then p[8] else p[7]) r1.2).bind fun r2 =>
        .ok (4 + 2 * r1.1.toNat + r2.1.toNat, r2.2)
    else (Machine.readBit s p[3] b).bind fun r1 =>
      (Machine.readBit s (if r1.1 then p[5] else p[4]) r1.2).bind fun r2 =>
        .ok (2 * r1.1.toNat + r2.1.toNat, r2.2)) (fun b0 => ?_)
  · exact h
  · cases b0
    · exact (Reads.readBit s p[3]).bind fun b1 =>
        (Reads.readBit s (if b1 then p[5] else p[4])).bind fun b2 => Reads.pure s (2 * b1.toNat + b2.toNat)
    · exact (Reads.readBit s p[6]).bind fun b1 =>
        (Reads.readBit s (if b1 then p[8] else p[7])).bind fun b2 => Reads.pure s (4 + 2 * b1.toNat + b2.toNat)

/-- A weighted read reads one bool per entry. -/
theorem Reads.readWeighted (s : State) (l : List (Byte × Nat)) : Reads s l.length (readWeighted s l) := by
  induction l with
  | nil => exact Reads.pure s 0
  | cons e l ih =>
    obtain ⟨p, weight⟩ := e
    have h := (Reads.readBit s p).bind fun bit => ih.bind fun sum => Reads.pure s (bit.toNat * weight + sum)
    exact h.mono (by simp only [List.length_cons]; omega)

/-- The DOC long path reads ten bools (R124). -/
theorem Reads.longDoc (s : State) (p : Vector Byte 19) : Reads s 10 (longDoc s p) :=
  (Reads.readWeighted s (docBits p)).bind fun l => Reads.pure s (l + 8)

/-- The RFC long path reads at most ten bools (R125). -/
theorem Reads.longRfc (s : State) (p : Vector Byte 19) : Reads s 10 (longRfc s p) := by
  have h := (Reads.readWeighted s (rfcBits p)).bind (m := 1) (g := fun a b =>
    if a &&& 0xFFF0 = 0 then .ok (a + 8, b)
    else (Machine.readBit s p[12] b).bind fun r => .ok (a + 8 * r.1.toNat, r.2)) (fun a => ?_)
  · exact h
  · by_cases ha : a &&& 0xFFF0 = 0
    · simp only [ha, if_true]
      exact (Reads.pure s (a + 8)).mono (by omega)
    · simp only [ha, if_false]
      exact (Reads.readBit s p[12]).bind fun bit => Reads.pure s (a + 8 * bit.toNat)

/-- The magnitude takes at most eleven bools (R126). -/
theorem Reads.readMagnitude (s : State) (p : Vector Byte 19) : Reads s 11 (readMagnitude s p) := by
  have h := (Reads.readBit s p[0]).bind (m := 10) (g := fun isLong b =>
    if isLong then
      match s.config.mvLongOrder with
      | .doc => Machine.longDoc s p b
      | .rfc => Machine.longRfc s p b
    else Machine.shortTree s p b) (fun isLong => ?_)
  · exact h
  · cases isLong
    · simpa using (Reads.shortTree s p).mono (by omega)
    · cases ho : s.config.mvLongOrder
      · simpa [ho] using Reads.longDoc s p
      · simpa [ho] using Reads.longRfc s p

/-- A component takes at most twelve bools (R126). -/
theorem Reads.readComponent (s : State) (c : Comp) : Reads s 12 (readComponent s c) := by
  have h := (Reads.readMagnitude s (s.mvp.vec c)).bind (m := 1) (g := fun a b =>
    if a = 0 then .ok ((0 : Int), b)
    else (Machine.readBit s (s.mvp.vec c)[1] b).bind fun r => .ok (if r.1 then -(a : Int) else (a : Int), r.2))
    (fun a => ?_)
  · exact h
  · by_cases ha : a = 0
    · simp only [ha, if_true]
      exact (Reads.pure s 0).mono (by omega)
    · simp only [ha, if_false]
      exact (Reads.readBit s _).bind fun neg => Reads.pure s (if neg then -(a : Int) else (a : Int))

/-- An entry of the probability update takes at most eight bools (R128). -/
theorem Reads.readEntry (s : State) (c : Comp) (j : Fin 19) : Reads s 8 (readEntry s c j) := by
  have h := (Reads.readBit s (s.config.mvpUpdProb.get c j)).bind (m := 7) (g := fun flag b =>
    if flag then (Machine.readUint s 128 7 b).bind fun r => .ok (some (promote r.1), r.2) else .ok (none, b))
    (fun flag => ?_)
  · exact h
  · cases flag
    · simpa using (Reads.pure s (none : Option Byte)).mono (by omega : 0 ≤ 7)
    · simp only [if_true]
      exact (Reads.readUint s 128 7).bind fun x => Reads.pure s (some (promote x))

/-! ### Values -/

/-- The short tree gives 0..7 (R123, R133). -/
theorem shortTree_le {s : State} {p : Vector Byte 19} {b e : Bd} {a : Nat} (h : shortTree s p b = .ok (a, e)) : a ≤ 7 := by
  unfold shortTree at h
  cases h0 : readBit s p[2] b with
  | error x => simp [h0, Bind.bind, Except.bind] at h
  | ok r0 =>
    obtain ⟨b0, d0⟩ := r0
    cases b0 <;> simp only [h0, Bind.bind, Except.bind, Bool.false_eq_true, if_false, if_true] at h
    · cases h1 : readBit s p[3] d0 with
      | error x => simp [h1] at h
      | ok r1 =>
        obtain ⟨b1, d1⟩ := r1
        simp only [h1] at h
        cases h2 : readBit s (if b1 then p[5] else p[4]) d1 with
        | error x => simp [h2] at h
        | ok r2 =>
          obtain ⟨b2, d2⟩ := r2
          simp only [h2, Pure.pure, Except.pure, Except.ok.injEq, Prod.mk.injEq] at h
          cases b1 <;> cases b2 <;> simp at h <;> omega
    · cases h1 : readBit s p[6] d0 with
      | error x => simp [h1] at h
      | ok r1 =>
        obtain ⟨b1, d1⟩ := r1
        simp only [h1] at h
        cases h2 : readBit s (if b1 then p[8] else p[7]) d1 with
        | error x => simp [h2] at h
        | ok r2 =>
          obtain ⟨b2, d2⟩ := r2
          simp only [h2, Pure.pure, Except.pure, Except.ok.injEq, Prod.mk.injEq] at h
          cases b1 <;> cases b2 <;> simp at h <;> omega

/-- A weighted read gives at most the sum of the weights. -/
theorem readWeighted_le {s : State} {l : List (Byte × Nat)} {b e : Bd} {a : Nat} (h : readWeighted s l b = .ok (a, e)) :
    a ≤ (l.map (·.2)).sum := by
  induction l generalizing b a e with
  | nil =>
    simp only [readWeighted, Except.ok.injEq, Prod.mk.injEq] at h
    omega
  | cons x l ih =>
    obtain ⟨p, weight⟩ := x
    unfold readWeighted at h
    cases h1 : readBit s p b with
    | error y => simp [h1, Bind.bind, Except.bind] at h
    | ok r =>
      obtain ⟨bit, b1⟩ := r
      cases h2 : readWeighted s l b1 with
      | error y => simp [h1, h2, Bind.bind, Except.bind] at h
      | ok r2 =>
        obtain ⟨sum, b2⟩ := r2
        simp only [h1, h2, Bind.bind, Except.bind, Pure.pure, Except.pure, Except.ok.injEq, Prod.mk.injEq] at h
        have := ih h2
        simp only [List.map_cons, List.sum_cons]
        cases bit <;> simp only [Bool.toNat_true, Bool.toNat_false] at h <;> omega

/-- The DOC long path gives 8..1031 (R124). -/
theorem longDoc_bounds {s : State} {p : Vector Byte 19} {b e : Bd} {a : Nat} (h : longDoc s p b = .ok (a, e)) :
    8 ≤ a ∧ a ≤ 1031 := by
  unfold longDoc at h
  simp only [Bind.bind, Except.bind] at h
  split at h
  · simp at h
  · rename_i r hr
    simp only [Pure.pure, Except.pure, Except.ok.injEq, Prod.mk.injEq] at h
    have := readWeighted_le (a := r.1) (e := r.2) hr
    simp only [docBits, List.map_cons, List.map_nil, List.sum_cons, List.sum_nil] at this
    omega

/-- A number with a bit at or above bit 4 is at least 16. -/
theorem le_of_masked {a : Nat} (h : ¬ a &&& 0xFFF0 = 0) : 16 ≤ a := by
  have key : ∀ a : Fin 16, a.val &&& 0xFFF0 = 0 := by decide
  by_contra hlt
  exact h (key ⟨a, by omega⟩)

/-- The RFC long path gives 8..1023 (R125). -/
theorem longRfc_bounds {s : State} {p : Vector Byte 19} {b e : Bd} {a : Nat} (h : longRfc s p b = .ok (a, e)) :
    8 ≤ a ∧ a ≤ 1023 := by
  unfold longRfc at h
  simp only [Bind.bind, Except.bind] at h
  split at h
  · simp at h
  · rename_i r hr
    have hle := readWeighted_le (a := r.1) (e := r.2) hr
    simp only [rfcBits, List.map_cons, List.map_nil, List.sum_cons, List.sum_nil] at hle
    split at h
    · simp only [Pure.pure, Except.pure, Except.ok.injEq, Prod.mk.injEq] at h
      omega
    · rename_i hm
      have := le_of_masked hm
      split at h
      · simp at h
      · rename_i r2 hr2
        simp only [Pure.pure, Except.pure, Except.ok.injEq, Prod.mk.injEq] at h
        cases hb : r2.1 <;> simp only [hb, Bool.toNat_true, Bool.toNat_false] at h <;> omega

/-- The largest magnitude of each long-path order (R126, R133). -/
def maxMagnitude (o : MvLongOrder) : Nat :=
  match o with
  | .doc => 1031
  | .rfc => 1023

/-- A magnitude is at most 1031 (DOC) or 1023 (RFC). -/
theorem readMagnitude_le {s : State} {p : Vector Byte 19} {b e : Bd} {a : Nat} (h : readMagnitude s p b = .ok (a, e)) :
    a ≤ maxMagnitude s.config.mvLongOrder := by
  unfold readMagnitude at h
  cases h0 : readBit s p[0] b with
  | error x => simp [h0, Bind.bind, Except.bind] at h
  | ok r =>
    obtain ⟨isLong, d⟩ := r
    cases ho : s.config.mvLongOrder <;> cases isLong <;>
      simp only [h0, ho, Bind.bind, Except.bind, Bool.false_eq_true, if_false, if_true] at h <;>
      simp only [maxMagnitude]
    · have := shortTree_le h
      omega
    · exact (longDoc_bounds h).2
    · have := shortTree_le h
      omega
    · exact (longRfc_bounds h).2

/-- A component lies in [-1031, 1031] (DOC) or [-1023, 1023] (RFC) (R126). -/
theorem readComponent_abs_le {s : State} {c : Comp} {b e : Bd} {a : Int} (h : readComponent s c b = .ok (a, e)) :
    -(maxMagnitude s.config.mvLongOrder : Int) ≤ a ∧ a ≤ maxMagnitude s.config.mvLongOrder := by
  unfold readComponent at h
  simp only [Bind.bind, Except.bind] at h
  split at h
  · simp at h
  · rename_i r hr
    have hle := readMagnitude_le (a := r.1) (e := r.2) hr
    split at h
    · simp only [Pure.pure, Except.pure, Except.ok.injEq, Prod.mk.injEq] at h
      omega
    · split at h
      · simp at h
      · simp only [Pure.pure, Except.pure, Except.ok.injEq, Prod.mk.injEq] at h
        obtain ⟨h, -⟩ := h
        split at h <;> omega

/-! ### MVP_UPDATE -/

/-- A promoted value is 1 or 2x for x in 1..127, never 0 (R128, R132). -/
theorem promote_ne_zero (x : Nat) (h : x < 128) : promote x ≠ 0 := by
  have key : ∀ x : Fin 128, promote x.val ≠ 0 := by decide
  exact key ⟨x, h⟩

/-- An entry's new value is a promoted 7-bit value (R128). -/
theorem readEntry_value {s : State} {c : Comp} {j : Fin 19} {b e : Bd} {v : Byte}
    (h : readEntry s c j b = .ok (some v, e)) : ∃ x < 128, v = promote x := by
  unfold readEntry at h
  simp only [Bind.bind, Except.bind] at h
  split at h
  · simp at h
  · split at h
    · split at h
      · simp at h
      · rename_i r hr
        simp only [Pure.pure, Except.pure, Except.ok.injEq, Prod.mk.injEq, Option.some.injEq] at h
        exact ⟨r.1, readUint_lt (u := r.1) (e := r.2) hr, h.1.symm⟩
    · simp [Pure.pure, Except.pure] at h

/-- Reading an entry of the file after replacing one. -/
theorem MvpFile.get_set (f : MvpFile) (c c' : Comp) (j j' : Fin 19) (v : Byte) :
    (f.set c j v).get c' j' = if c = c' ∧ j = j' then v else f.get c' j' := by
  cases c <;> cases c' <;>
    simp [MvpFile.set, MvpFile.get, MvpFile.vec, Vector.get_eq_getElem, Vector.getElem_set, Fin.ext_iff]

/-- Every entry the loop leaves is the old one or a promoted 7-bit value, and only listed entries change (R128). -/
theorem updateEntries_get (s : State) (l : List (Comp × Fin 19)) (f : MvpFile) (b : Bd) (c : Comp) (j : Fin 19) :
    (updateEntries s l f b).1.get c j = f.get c j ∨
      ((c, j) ∈ l ∧ ∃ x < 128, (updateEntries s l f b).1.get c j = promote x) := by
  induction l generalizing f b with
  | nil => exact .inl rfl
  | cons a l ih =>
    obtain ⟨c0, j0⟩ := a
    unfold updateEntries
    split
    · exact .inl rfl
    · rcases ih f _ with h | ⟨h1, h2⟩
      · exact .inl h
      · exact .inr ⟨by simp [h1], h2⟩
    · rename_i v b' hv
      rcases ih (f.set c0 j0 v) b' with h | ⟨h1, h2⟩
      · rw [h, MvpFile.get_set]
        split
        · rename_i heq
          obtain ⟨rfl, rfl⟩ := heq
          obtain ⟨x, hx, rfl⟩ := readEntry_value hv
          exact .inr ⟨by simp, x, hx, rfl⟩
        · exact .inl rfl
      · exact .inr ⟨by simp [h1], h2⟩

/-- The loop from a decoder in its ranges: it leaves one, or stops with TRUNCATED when eight fetches an entry are more than the
buffer holds. -/
theorem updateEntries_reads (s : State) (l : List (Comp × Fin 19)) (f : MvpFile) (b : Bd) (h : b.Ok) :
    (∃ e, (updateEntries s l f b).2 = .ok e ∧ e.Ok ∧ e.endAddr = b.endAddr ∧ b.pos ≤ e.pos ∧ e.pos ≤ b.pos + 8 * l.length) ∨
      ((updateEntries s l f b).2 = .error .truncated ∧ b.endAddr < b.pos + 8 * l.length ∧ s.config.bdTail = .fault) := by
  induction l generalizing f b with
  | nil => exact .inl ⟨b, rfl, h, rfl, Nat.le_refl _, Nat.le_refl _⟩
  | cons a l ih =>
    obtain ⟨c0, j0⟩ := a
    have step : ∀ g o b', readEntry s c0 j0 b = .ok (o, b') →
        (∃ e, (updateEntries s l g b').2 = .ok e ∧ e.Ok ∧ e.endAddr = b.endAddr ∧ b.pos ≤ e.pos
          ∧ e.pos ≤ b.pos + 8 * (l.length + 1)) ∨
        ((updateEntries s l g b').2 = .error .truncated ∧ b.endAddr < b.pos + 8 * (l.length + 1)
          ∧ s.config.bdTail = .fault) := by
      intro g o b' hb
      obtain ⟨h1, h2, h3, h4⟩ := (Reads.readEntry s c0 j0).ok h hb
      rcases ih g b' h1 with ⟨e, k1, k2, k3, k4, k5⟩ | ⟨k1, k2, k3⟩
      · exact .inl ⟨e, k1, k2, k3.trans h2, h3.trans k4, by omega⟩
      · exact .inr ⟨k1, by omega, k3⟩
    unfold updateEntries
    simp only [List.length_cons]
    split
    · rename_i x hx
      obtain ⟨rfl, h2, h3⟩ := (Reads.readEntry s c0 j0).error h hx
      exact .inr ⟨rfl, by omega, h3⟩
    · rename_i b' hb
      exact step _ _ b' hb
    · rename_i v b' hb
      exact step _ _ b' hb

/-- From any decoder the loop is TRUNCATED only under BD_TAIL = FAULT. -/
theorem updateEntries_tail {s : State} {l : List (Comp × Fin 19)} {f : MvpFile} {b : Bd}
    (h : (updateEntries s l f b).2 = .error .truncated) : s.config.bdTail = .fault := by
  induction l generalizing f b with
  | nil => simp [updateEntries] at h
  | cons a l ih =>
    obtain ⟨c0, j0⟩ := a
    unfold updateEntries at h
    split at h
    · rename_i x hx
      simp only [Except.error.injEq] at h
      exact (Reads.readEntry s c0 j0).tail (h ▸ hx)
    · exact ih h
    · exact ih h

end Sys2Proof.Machine
end

