-- ==== Sys2Proof/Laws/Commands.lean ====
section
/-! SUPPORT. Everything a command can do, said once (spec/43_control.md R181): the outcomes of `exec`, each with what makes it
happen. -/

namespace Sys2Proof.Machine

/-- The outcomes of the command `i` at the state `s`. -/
inductive Effect (i : Instr) (s : State) : Host.Outcome State Fault Refusal → Prop
  /-- R88 -/
  | badOperand (h : i.wf = false) : Effect i s (.next (s.raise .illegalOperand (encode i)))
  /-- R102 -/
  | badBuffer (h : i = .bdInit) (hb : 2 ^ 32 ≤ s.bdSrcBase.toNat + s.bdSrcLen.toNat) :
      Effect i s (.next (s.raise .illegalOperand (encode i)))
  /-- R100 -/
  | notReady (h : readsStream i = true) (hw : i.wf = true) (hr : s.bdReady = false) :
      Effect i s (.next (s.raise .bdNotReady (encode i)))
  /-- R155 -/
  | badDesc (ref : RefTag) (t : FrameTag) (h : mcTag i = some ref) (hf : frameOf ref = some t)
      (hv : (s.refs.get t).valid = true) (hw : (s.refs.get t).wellFormed s.config.chromaEdge = false) :
      Effect i s (.next (s.raise .badRefDesc (encode i)))
  /-- R101, R102, R210 -/
  | truncated (f : MvpFile) (h : i = .bdInit ∨ readsStream i = true ∧ s.bdReady = true) (ht : s.config.bdTail = .fault)
      (hm : i ≠ .mvpUpdate → f = s.mvp) (hp : mvpPositive s.mvp → mvpPositive f) :
      Effect i s (.next (State.raise .truncated (encode i) { s with mvp := f }))
  /-- R102 -/
  | badStream (h : i = .bdInit) : Effect i s (.next (s.raise .badStream (encode i)))
  /-- Log entry 13 -/
  | diverges (h : readsStream i = true) (hr : s.bdReady = true) (hb : ¬ s.bd.Bound) : Effect i s (.fault .normaliseDiverges)
  /-- R180 -/
  | nop (h : i = .nop) : Effect i s (.next s)
  /-- R102 -/
  | bound (b : Bd) (h : i = .bdInit) (hb : b.Ok) : Effect i s (.next { s with bd := b.toRegs, bdReady := true })
  /-- R127 -/
  | defaults (h : i = .mvpLoadDefault) : Effect i s (.next { s with mvp := s.config.mvpDefault })
  /-- R105, R106, R129, R130 -/
  | read (v : Word) (b : Bd) (h : returnsValue i = true) (hr : s.bdReady = true) (hb : s.bd.Bound → b.Ok) :
      Effect i s (.next (s.finishRead v b.toRegs))
  /-- R128 -/
  | updated (f : MvpFile) (b : Bd) (h : i = .mvpUpdate) (hr : s.bdReady = true) (hb : s.bd.Bound → b.Ok)
      (hp : mvpPositive s.mvp → mvpPositive f) : Effect i s (.next { s with mvp := f, bd := b.toRegs })
  /-- R150 -/
  | filled (ref : RefTag) (h : mcTag i = some ref) : Effect i s (.next s.missingFill)
  /-- R152, R154 -/
  | predicted (ref : RefTag) (cells : List Host.Cell) (luma : Nat → Nat → Byte) (chroma : Plane → Nat → Nat → Byte)
      (h : mcTag i = some ref) (hc : CellsOf cells luma chroma) : Effect i s (.next (s.writeWs cells))

/-- The outcomes of a command that returns a value and is built from one reader. -/
theorem bdCommand_effect {α : Type} (i : Instr) (s : State) {n : Nat} {f : Bd → Except BdStop (α × Bd)} (g : α → Word)
    (hi : returnsValue i = true) (hrs : readsStream i = true) (hw : i.wf = true) (hf : Reads s n f) :
    Effect i s (bdCommand i s fun b => (f b).map fun r => s.finishRead (g r.1) r.2.toRegs) := by
  unfold bdCommand
  split
  · rename_i hr
    cases hfb : f s.bd.toBd with
    | ok r =>
      simp only [hfb, Except.map]
      exact .read _ _ hi hr fun hb => (hf.ok (BdRegs.ok_of_bound _ hb) hfb).1
    | error x =>
      simp only [hfb, Except.map]
      cases x with
      | truncated => exact .truncated s.mvp (.inr ⟨hrs, hr⟩) (hf.tail hfb) (fun _ => rfl) id
      | diverges =>
        refine .diverges hrs hr fun hb => ?_
        simpa using (hf.error (BdRegs.ok_of_bound _ hb) hfb).1
  · rename_i hr
    exact .notReady hrs hw (by simpa using hr)

/-- A buffer inside the address space, once its two bytes are read, is a decoder in its ranges (R102, R107). -/
theorem bindBuffer_ok {s : State} {base len : Nat} {b : Bd} (hlt : base + len < 2 ^ 32)
    (h : bindBuffer s base len = .ok b) (hv : b.value < 255 * 256) : b.Ok := by
  unfold bindBuffer at h
  simp only [fetchByte_eq] at h
  cases h0 : fetchAt s base (base + len) with
  | error x => simp [h0, Except.map, Bind.bind, Except.bind] at h
  | ok r0 =>
    obtain ⟨b0, p0⟩ := r0
    cases h1 : fetchAt s p0 (base + len) with
    | error x => simp [h0, h1, Except.map, Bind.bind, Except.bind] at h
    | ok r1 =>
      obtain ⟨b1, p1⟩ := r1
      simp only [h0, h1, Except.map, Bind.bind, Except.bind, Pure.pure, Except.pure, Except.ok.injEq] at h
      subst h
      have k0 := (fetchAt_ok h0).2.2.2 (by omega)
      have k1 := (fetchAt_ok h1).2.2.2 k0
      exact ⟨by simp, by simp, hv, by simp, by simp, k1, hlt⟩

/-- Binding a buffer stops only with TRUNCATED, under BD_TAIL = FAULT. -/
theorem bindBuffer_error {s : State} {base len : Nat} {x : BdStop} (h : bindBuffer s base len = .error x) :
    x = .truncated ∧ s.config.bdTail = .fault := by
  unfold bindBuffer at h
  simp only [fetchByte_eq] at h
  cases h0 : fetchAt s base (base + len) with
  | error y =>
    simp only [h0, Except.map, Bind.bind, Except.bind, Except.error.injEq] at h
    subst h
    exact ⟨(fetchAt_error h0).1, (fetchAt_error h0).2.2⟩
  | ok r0 =>
    obtain ⟨b0, p0⟩ := r0
    cases h1 : fetchAt s p0 (base + len) with
    | error y =>
      simp only [h0, h1, Except.map, Bind.bind, Except.bind, Except.error.injEq] at h
      subst h
      exact ⟨(fetchAt_error h1).1, (fetchAt_error h1).2.2⟩
    | ok r1 => simp [h0, h1, Except.map, Bind.bind, Except.bind, Pure.pure, Except.pure] at h

/-- The loop of MVP_UPDATE keeps every entry positive (R132). -/
theorem updateEntries_positive (s : State) (l : List (Comp × Fin 19)) (f : MvpFile) (b : Bd) (h : mvpPositive f) :
    mvpPositive (updateEntries s l f b).1 := by
  have key : ∀ c j, f.get c j ≠ 0 → (updateEntries s l f b).1.get c j ≠ 0 := by
    intro c j hf
    rcases updateEntries_get s l f b c j with h | ⟨-, x, hx, h⟩
    · rwa [h]
    · rw [h]
      exact promote_ne_zero x hx
  exact ⟨fun j => key _ _ (h.1 j), fun j => key _ _ (h.2 j)⟩

/-- Every command, at every state, has one of these outcomes. -/
theorem exec_effect (i : Instr) (s : State) : Effect i s (exec i s) := by
  cases i with
  | nop => exact .nop rfl
  | bdInit =>
    simp only [exec, execBdInit]
    split
    · rename_i h
      exact .badBuffer rfl h
    · rename_i hlt
      split
      · rename_i h
        exact .truncated s.mvp (.inl rfl) (bindBuffer_error h).2 (fun _ => rfl) id
      · rename_i h
        simpa using (bindBuffer_error h).1
      · rename_i b hb
        split
        · exact .badStream rfl
        · rename_i hv
          exact .bound b rfl (bindBuffer_ok (by omega) hb (by omega))
  | bdReadBit prob =>
    have h := bdCommand_effect (.bdReadBit prob) s (fun bit : Bool => BitVec.ofNat 32 bit.toNat) rfl rfl rfl
      (Reads.readBit s prob)
    refine cast ?_ h
    congr 1
  | bdReadUint prob n =>
    simp only [exec, execBdReadUint]
    split
    · rename_i hn
      exact .badOperand (by simpa [Instr.wf] using hn)
    · rename_i hn
      have h := bdCommand_effect (.bdReadUint prob n) s (fun u : Nat => BitVec.ofNat 32 u) rfl rfl
        (by simpa [Instr.wf] using hn) (Reads.readUint s prob n.toNat)
      exact h
  | mvpLoadDefault => exact .defaults rfl
  | mvpUpdate =>
    simp only [exec, execMvpUpdate]
    have hpos := updateEntries_positive s mvpEntries s.mvp s.bd.toBd
    have htail := @updateEntries_tail s mvpEntries s.mvp s.bd.toBd
    have hreads := updateEntries_reads s mvpEntries s.mvp s.bd.toBd
    split
    · rename_i hr
      split
      · rename_i f b hu
        rw [hu] at hpos hreads
        refine .updated f b rfl hr (fun hb => ?_) hpos
        rcases hreads (BdRegs.ok_of_bound _ hb) with ⟨e, he, hok, -⟩ | ⟨he, -⟩
        · simp only [Except.ok.injEq] at he
          exact he ▸ hok
        · simp at he
      · rename_i f hu
        rw [hu] at hpos htail
        exact .truncated f (.inr ⟨rfl, hr⟩) (htail rfl) (fun h => absurd rfl h) hpos
      · rename_i f hu
        rw [hu] at hreads
        refine .diverges rfl hr fun hb => ?_
        rcases hreads (BdRegs.ok_of_bound _ hb) with ⟨e, he, -⟩ | ⟨he, -⟩
        · simp at he
        · simp at he
    · rename_i hr
      exact .notReady rfl rfl (by simpa using hr)
  | mvReadComponent comp =>
    have h := bdCommand_effect (.mvReadComponent comp) s (fun a : Int => BitVec.ofInt 32 a) rfl rfl rfl
      (Reads.readComponent s comp)
    exact h
  | mvRead =>
    have hf := (Reads.readComponent s .y).bind fun y => (Reads.readComponent s .x).bind fun x => Reads.pure s (y, x)
    have h := bdCommand_effect .mvRead s (fun r : Int × Int =>
      packPair (BitVec.ofInt 16 (r.1 * s.config.mvScale.factor)) (BitVec.ofInt 16 (r.2 * s.config.mvScale.factor)))
      rfl rfl rfl hf
    refine cast ?_ h
    congr 1
    simp only [exec, execMvRead]
    congr 1
    funext b
    cases hy : readComponent s .y b with
    | error x => simp [Bind.bind, Except.bind, Except.map]
    | ok r =>
      cases hx : readComponent s .x r.2 <;>
        simp [Bind.bind, Except.bind, Except.map, Pure.pure, Except.pure, hx]
  | mcPredict ref =>
    rcases exec_mc_cases (i := .mcPredict ref) (ref := ref) rfl s with ⟨rfl, h⟩ | ⟨t, hf, ⟨-, h⟩ | ⟨hv, hw, h⟩ | ⟨-, -, h⟩⟩ <;> rw [h]
    · exact .badOperand rfl
    · exact .filled ref rfl
    · exact .badDesc ref t rfl hf hv hw
    · exact .predicted ref _ _ _ rfl (predictCells_spec s _)
  | mcPredictSplit ref =>
    rcases exec_mc_cases (i := .mcPredictSplit ref) (ref := ref) rfl s with ⟨rfl, h⟩ | ⟨t, hf, ⟨-, h⟩ | ⟨hv, hw, h⟩ | ⟨-, -, h⟩⟩ <;> rw [h]
    · exact .badOperand rfl
    · exact .filled ref rfl
    · exact .badDesc ref t rfl hf hv hw
    · exact .predicted ref _ _ _ rfl (splitCells_spec s _)

/-! ### The read commands on a bound decoder -/

/-- What a command that returns a value answers from what its reads answered. -/
def readOutcome {α : Type} (i : Instr) (s : State) (g : α → Word) :
    Except BdStop (α × Bd) → Host.Outcome State Fault Refusal
  | .ok r => .next (s.finishRead (g r.1) r.2.toRegs)
  | .error .truncated => .next (s.raise .truncated (encode i))
  | .error .diverges => .fault .normaliseDiverges

theorem exec_bdReadBit (prob : Byte) (s : State) (hr : s.bdReady = true) :
    exec (.bdReadBit prob) s =
      readOutcome (.bdReadBit prob) s (fun bit => BitVec.ofNat 32 bit.toNat) (readBit s prob s.bd.toBd) := by
  simp only [exec, execBdReadBit, bdCommand, hr, if_true]
  cases readBit s prob s.bd.toBd with
  | ok r => rfl
  | error x => cases x <;> rfl

theorem exec_bdReadUint (prob : Byte) (n : BitVec 6) (s : State) (hn : n.toNat ≤ 32) (hr : s.bdReady = true) :
    exec (.bdReadUint prob n) s =
      readOutcome (.bdReadUint prob n) s (fun u => BitVec.ofNat 32 u) (readUint s prob n.toNat s.bd.toBd) := by
  have : ¬ 32 < n.toNat := by omega
  simp only [exec, execBdReadUint, this, if_false, bdCommand, hr, if_true]
  cases readUint s prob n.toNat s.bd.toBd with
  | ok r => rfl
  | error x => cases x <;> rfl

theorem exec_mvReadComponent (comp : Comp) (s : State) (hr : s.bdReady = true) :
    exec (.mvReadComponent comp) s =
      readOutcome (.mvReadComponent comp) s (fun a => BitVec.ofInt 32 a) (readComponent s comp s.bd.toBd) := by
  simp only [exec, execMvReadComponent, bdCommand, hr, if_true]
  cases readComponent s comp s.bd.toBd with
  | ok r => rfl
  | error x => cases x <;> rfl

theorem exec_mvRead (s : State) (hr : s.bdReady = true) :
    exec .mvRead s =
      readOutcome .mvRead s
        (fun r : Int × Int =>
          packPair (BitVec.ofInt 16 (r.1 * s.config.mvScale.factor)) (BitVec.ofInt 16 (r.2 * s.config.mvScale.factor)))
        ((readComponent s .y s.bd.toBd).bind fun y => (readComponent s .x y.2).bind fun x => .ok ((y.1, x.1), x.2)) := by
  simp only [exec, execMvRead, bdCommand, hr, if_true]
  cases hy : readComponent s .y s.bd.toBd with
  | error x => cases x <;> simp [Bind.bind, Except.bind, readOutcome]
  | ok y =>
    cases hx : readComponent s .x y.2 with
    | error x => cases x <;> simp [Bind.bind, Except.bind, readOutcome, hx]
    | ok x => simp [Bind.bind, Except.bind, Pure.pure, Except.pure, readOutcome, hx]

/-- What MVP_UPDATE answers from what its loop left (R128, R210). -/
def updateOutcome (s : State) : MvpFile × Except BdStop Bd → Host.Outcome State Fault Refusal
  | (f, .ok b) => .next { s with mvp := f, bd := b.toRegs }
  | (f, .error .truncated) => .next (State.raise .truncated (encode .mvpUpdate) { s with mvp := f })
  | (_, .error .diverges) => .fault .normaliseDiverges

theorem exec_mvpUpdate (s : State) (hr : s.bdReady = true) :
    exec .mvpUpdate s = updateOutcome s (updateEntries s mvpEntries s.mvp s.bd.toBd) := by
  simp only [exec, execMvpUpdate, hr, if_true]
  rcases updateEntries s mvpEntries s.mvp s.bd.toBd with ⟨f, x | b⟩
  · cases x <;> simp only [updateOutcome, ← hr]
  · simp only [updateOutcome, ← hr]

/-- A read command that leaves BD_READY = 1 has completed its reads. -/
theorem readOutcome_ready {α : Type} {i : Instr} {s t : State} {g : α → Word} {o : Except BdStop (α × Bd)}
    (h : readOutcome i s g o = .next t) (hr : t.bdReady = true) :
    ∃ a e, o = .ok (a, e) ∧ t = s.finishRead (g a) e.toRegs := by
  unfold readOutcome at h
  split at h
  · rename_i r
    simp only [Host.Outcome.next.injEq] at h
    exact ⟨r.1, r.2, rfl, h.symm⟩
  · simp only [Host.Outcome.next.injEq] at h
    subst h
    simp [State.raise, State.sideEffects] at hr
  · simp at h

end Sys2Proof.Machine
end

