-- ==== Sys2Proof/Laws/Decode.lean ====
section
/-! SUPPORT. The fixed bits of a command word as arithmetic, and the decoder row by row (spec/30_encoding.md R81 to R87). -/

namespace Sys2Proof

/-- The opcode is the top byte (R81). -/
theorem opcodeField_toNat (w : Word) : (opcodeField w).toNat = w.toNat / 2 ^ 24 := by
  have := w.isLt
  simp only [opcodeField, BitVec.extractLsb'_toNat, Nat.shiftRight_eq_div_pow]
  omega

/-- Keeping the bits from k upward. -/
theorem and_highMask (w : Word) (k : Nat) (hk : k ≤ 32) : w.toNat &&& (2 ^ 32 - 2 ^ k) = w.toNat / 2 ^ k * 2 ^ k := by
  apply Nat.eq_of_testBit_eq
  intro i
  have hw := w.isLt
  have h : 2 ^ 32 - 2 ^ k = (2 ^ (32 - k) - 1) * 2 ^ k := by
    rw [Nat.sub_mul, ← Nat.pow_add, Nat.one_mul, Nat.sub_add_cancel hk]
  rw [Nat.testBit_and, h, Nat.testBit_mul_two_pow, Nat.testBit_mul_two_pow, Nat.testBit_two_pow_sub_one,
    Nat.testBit_div_two_pow]
  by_cases hi : k ≤ i
  · rw [Nat.sub_add_cancel hi]
    by_cases h2 : i < 32
    · have : i - k < 32 - k := by omega
      simp [hi, this]
    · have hb : w.toNat.testBit i = false :=
        Nat.testBit_lt_two_pow (Nat.lt_of_lt_of_le hw (Nat.pow_le_pow_right (by omega) (by omega)))
      rw [hb]
      simp
  · simp [hi]

/-- A word has the fixed bits of a row with opcode `op` and `k` operand bits iff its opcode is `op` and its low 24 bits are below
2^k (R86). -/
theorem fixed_bits_iff (w m c : Word) (op k : Nat) (hk : k ≤ 24) (hm : m.toNat = 2 ^ 32 - 2 ^ k) (hc : c.toNat = op * 2 ^ 24) :
    w &&& m = c ↔ w.toNat / 2 ^ 24 = op ∧ w.toNat % 2 ^ 24 < 2 ^ k := by
  rw [← BitVec.toNat_inj, BitVec.toNat_and, hm, and_highMask w k (by omega), hc]
  have hpow : (2 : Nat) ^ 24 = 2 ^ k * 2 ^ (24 - k) := by
    rw [← Nat.pow_add]
    congr 1
    omega
  have hpos : 0 < 2 ^ k := by positivity
  have hsplit := Nat.div_add_mod w.toNat (2 ^ 24)
  have hmodlt := Nat.mod_lt w.toNat (show 2 ^ 24 > 0 by decide)
  have hdm := Nat.div_add_mod w.toNat (2 ^ k)
  have hlt := Nat.mod_lt w.toNat hpos
  constructor
  · intro h
    have hop : w.toNat / 2 ^ k = op * 2 ^ (24 - k) := by
      apply Nat.eq_of_mul_eq_mul_right hpos
      rw [h, hpow]
      ring
    have hle : 2 ^ k ≤ 2 ^ 24 := Nat.pow_le_pow_right (by decide) hk
    have hw : w.toNat = op * 2 ^ 24 + w.toNat % 2 ^ k := by
      rw [Nat.mul_comm, h] at hdm
      exact hdm.symm
    have hd : w.toNat / 2 ^ 24 = op := by
      rw [hw]
      rw [Nat.mul_comm, Nat.mul_add_div (by decide), Nat.div_eq_of_lt (by omega), Nat.add_zero]
    refine ⟨hd, ?_⟩
    rw [hd] at hsplit
    omega
  · rintro ⟨h1, h2⟩
    rw [h1] at hsplit
    have : w.toNat = 2 ^ k * (2 ^ (24 - k) * op) + w.toNat % 2 ^ 24 := by
      rw [← Nat.mul_assoc, ← hpow]
      exact hsplit.symm
    rw [this, Nat.mul_add_div hpos, Nat.div_eq_of_lt h2, Nat.add_zero, hpow]
    ring

/-- The number of operand bits of an opcode's row (R82 to R86); none where the opcode is unassigned. -/
def operandBits : Nat → Option Nat
  | 0x00 => some 0
  | 0x01 => some 0
  | 0x02 => some 8
  | 0x03 => some 14
  | 0x10 => some 0
  | 0x11 => some 0
  | 0x12 => some 1
  | 0x13 => some 0
  | 0x20 => some 2
  | 0x21 => some 2
  | _ => none

/-- Where the row of an opcode is found. -/
theorem find_row (o : Byte) :
    opcodeMap.find? (fun r => r.op == o) = none ∧ operandBits o.toNat = none
      ∨ ∃ r ∈ opcodeMap, opcodeMap.find? (fun r => r.op == o) = some r ∧ r.op = o := by
  cases h : opcodeMap.find? (fun r => r.op == o) with
  | some r =>
    have h1 := List.find?_some h
    exact .inr ⟨r, List.mem_of_find?_eq_some h, rfl, by simpa using h1⟩
  | none =>
    refine .inl ⟨rfl, ?_⟩
    simp only [List.find?_eq_none, opcodeMap, List.mem_cons, List.not_mem_nil, or_false, forall_eq_or_imp, forall_eq,
      beq_iff_eq] at h
    unfold operandBits
    split <;> first | rfl | (exfalso; bv_omega)

/-- Every row's mask keeps all but its operand bits, and its fixed bits are its opcode (R86). -/
theorem row_spec : ∀ r ∈ opcodeMap, ∃ k ≤ 24, operandBits r.op.toNat = some k ∧ r.mask.toNat = 2 ^ 32 - 2 ^ k
    ∧ r.matchBits.toNat = r.op.toNat * 2 ^ 24 := by
  intro r hr
  simp only [opcodeMap, List.mem_cons, List.not_mem_nil, or_false] at hr
  rcases hr with rfl | rfl | rfl | rfl | rfl | rfl | rfl | rfl | rfl | rfl
  all_goals exact ⟨_, by decide, rfl, by decide, by decide⟩

/-- The decoder, by the opcode and the low 24 bits (R87). -/
theorem decode_cases (w : Word) :
    (operandBits (w.toNat / 2 ^ 24) = none ∧ decode w = .illegalOpcode)
    ∨ ∃ k, operandBits (w.toNat / 2 ^ 24) = some k ∧
      ((2 ^ k ≤ w.toNat % 2 ^ 24 ∧ decode w = .illegalOperand)
      ∨ (w.toNat % 2 ^ 24 < 2 ^ k
        ∧ ∃ r ∈ opcodeMap, r.op.toNat = w.toNat / 2 ^ 24 ∧ w &&& r.mask = r.matchBits ∧ decode w = .instr (r.make w))) := by
  rw [← opcodeField_toNat]
  rcases find_row (opcodeField w) with ⟨h1, h2⟩ | ⟨r, hr, h1, h2⟩
  · exact .inl ⟨h2, by simp [decode, h1]⟩
  · right
    obtain ⟨k, hk, hb, hm, hc⟩ := row_spec r hr
    have hfix := fixed_bits_iff w r.mask r.matchBits r.op.toNat k hk hm hc
    have ho : w.toNat / 2 ^ 24 = r.op.toNat := by rw [h2, opcodeField_toNat]
    refine ⟨k, by rw [← h2]; exact hb, ?_⟩
    simp only [decode, h1]
    by_cases hw : w &&& r.mask = r.matchBits
    · exact .inr ⟨(hfix.1 hw).2, r, hr, by rw [h2], hw, by simp [hw]⟩
    · refine .inl ⟨?_, by simp [hw]⟩
      by_contra hlt
      exact hw (hfix.2 ⟨ho, by omega⟩)

/-- Appending fields, as arithmetic. -/
theorem toNat_append_eq {n m : Nat} (x : BitVec n) (y : BitVec m) : (x ++ y).toNat = x.toNat * 2 ^ m + y.toNat := by
  rw [BitVec.toNat_append, ← Nat.shiftLeft_add_eq_or_of_lt y.isLt, Nat.shiftLeft_eq]

/-- The operand bits of a command, as a number (R82 to R85). -/
def operandValue : Instr → Nat
  | .bdReadBit prob => prob.toNat
  | .bdReadUint prob n => n.toNat * 256 + prob.toNat
  | .mvReadComponent comp => comp.bits.toNat
  | .mcPredict ref => ref.bits.toNat
  | .mcPredictSplit ref => ref.bits.toNat
  | .nop => 0
  | .bdInit => 0
  | .mvpLoadDefault => 0
  | .mvpUpdate => 0
  | .mvRead => 0

/-- The opcode of a command (R86). -/
def opcodeOf : Instr → Nat
  | .nop => 0x00
  | .bdInit => 0x01
  | .bdReadBit _ => 0x02
  | .bdReadUint _ _ => 0x03
  | .mvpLoadDefault => 0x10
  | .mvpUpdate => 0x11
  | .mvReadComponent _ => 0x12
  | .mvRead => 0x13
  | .mcPredict _ => 0x20
  | .mcPredictSplit _ => 0x21

/-- A command word is its opcode and its operand bits. -/
theorem encode_toNat (i : Instr) : (encode i).toNat = opcodeOf i * 2 ^ 24 + operandValue i := by
  cases i with
  | bdReadUint prob n =>
    simp only [encode, toNat_append_eq, opcodeOf, operandValue]
    simp
    omega
  | mvReadComponent c => cases c <;> rfl
  | mcPredict r => cases r <;> rfl
  | mcPredictSplit r => cases r <;> rfl
  | bdReadBit prob =>
    simp only [encode, toNat_append_eq, opcodeOf, operandValue]
    simp
  | _ => rfl

/-- The operand bits a row's command takes from a word (R82 to R85). -/
theorem make_spec (w : Word) : ∀ r ∈ opcodeMap, w &&& r.mask = r.matchBits →
    opcodeOf (r.make w) = w.toNat / 2 ^ 24 ∧ operandValue (r.make w) = w.toNat % 2 ^ 24 := by
  intro r hr hw
  obtain ⟨k, hk, hb, hm, hc⟩ := row_spec r hr
  obtain ⟨h1, h2⟩ := (fixed_bits_iff w r.mask r.matchBits r.op.toNat k hk hm hc).1 hw
  have hwl := w.isLt
  have b0 : w.getLsbD 0 = decide (w.toNat % 2 = 1) := by simp [BitVec.getLsbD, Nat.testBit_zero]
  have b1 : w.getLsbD 1 = decide (w.toNat / 2 % 2 = 1) := by simp [BitVec.getLsbD, Nat.testBit_succ, Nat.testBit_zero]
  rw [h1]
  simp only [opcodeMap, List.mem_cons, List.not_mem_nil, or_false] at hr
  rcases hr with rfl | rfl | rfl | rfl | rfl | rfl | rfl | rfl | rfl | rfl
  all_goals
    simp only [BitVec.reduceToNat, operandBits, Option.some.injEq] at hb h1
    subst hb
    refine ⟨rfl, ?_⟩
    simp only [operandValue, probField, nField, compField, refField, BitVec.extractLsb'_toNat, Nat.shiftRight_eq_div_pow, b0, b1]
  all_goals try omega
  · by_cases h : w.toNat % 2 = 1
    · simp [h, Comp.bits]; omega
    · simp [h, Comp.bits]; omega
  all_goals
    by_cases h : w.toNat % 2 = 1 <;> by_cases h' : w.toNat / 2 % 2 = 1 <;> simp [h, h', RefTag.bits] <;> omega

/-- A matching word is the encoding of its row's command (R82 to R86). -/
theorem encode_make (w : Word) (r : OpcodeRow) (hr : r ∈ opcodeMap) (hw : w &&& r.mask = r.matchBits) :
    encode (r.make w) = w := by
  obtain ⟨h1, h2⟩ := make_spec w r hr hw
  apply BitVec.eq_of_toNat_eq
  rw [encode_toNat, h1, h2]
  omega

end Sys2Proof
end

