-- ==== Sys2Proof/Laws/HostPort.lean ====
section
/-! SUPPORT. What the host's ports do: the CSR map, the fields a CSR write leaves, reset, and the cases of a step
(spec/10_state.md R22 to R42, spec/60_exceptions.md R211, R224, spec/70_reset_and_hazards.md R230). -/

namespace Sys2Proof.Machine

/-- STATUS is at address 0 alone (Table 1). -/
theorem csrAt_eq_status : ∀ addr : Byte, csrAt addr = some .status ↔ addr = 0 := by decide +kernel

/-- The stored value of an MVP entry is never 0 (R38). -/
theorem mvpStored_ne_zero (v : Word) : mvpStored v ≠ 0 := by
  simp only [mvpStored]
  split <;> simp_all

/-- Reading the descriptor of a tag after replacing one. -/
theorem RefFile.get_set (f : RefFile) (t t' : FrameTag) (d : RefDesc) :
    (f.set t d).get t' = if t = t' then d else f.get t' := by
  cases t <;> cases t' <;> rfl

/-- A descriptor field after writing one. -/
theorem RefDesc.readField_writeField (d : RefDesc) (f f' : RefField) (v : Word) (h : f ≠ f') :
    (d.writeField f v).readField f' = d.readField f' := by
  cases f <;> cases f' <;> simp only [ne_eq, not_true_eq_false, reduceCtorEq, not_false_eq_true] at h <;> rfl

/-- The two halves of a word, packed, are the word (R65). -/
theorem packPair_halves (v : Word) : packPair (hiHalf v) (loHalf v) = v := by
  apply BitVec.eq_of_toNat_eq
  have := v.isLt
  rw [packPair, toNat_append_eq]
  simp only [hiHalf, loHalf, BitVec.extractLsb'_toNat, Nat.shiftRight_eq_div_pow]
  omega

/-- The upper half of a packed pair (R65). -/
theorem hiHalf_packPair (y x : BitVec 16) : hiHalf (packPair y x) = y := BitVec.extractLsb'_append_eq_left

/-- The lower half of a packed pair (R65). -/
theorem loHalf_packPair (y x : BitVec 16) : loHalf (packPair y x) = x := BitVec.extractLsb'_append_eq_right

/-- A write of a CSR leaves MEM, WS, the parameters and the decoder as they are. -/
theorem State.writeCsr_keeps (s : State) (r : Csr) (v : Word) :
    (s.writeCsr r v).mem = s.mem ∧ (s.writeCsr r v).ws = s.ws ∧ (s.writeCsr r v).wsDraw = s.wsDraw
      ∧ (s.writeCsr r v).config = s.config ∧ (s.writeCsr r v).pending = s.pending
      ∧ (s.writeCsr r v).hostRead = s.hostRead ∧ (s.writeCsr r v).bd = s.bd ∧ (s.writeCsr r v).bdReady = s.bdReady
      ∧ (s.writeCsr r v).draws = s.draws := by
  cases r with
  | status =>
    simp only [State.writeCsr, State.writeStatus]
    split <;> simp
  | _ => simp [State.writeCsr]

/-- A write of a CSR keeps the MVP file positive (R38, R132). -/
theorem State.writeCsr_positive (s : State) (r : Csr) (v : Word) (h : mvpPositive s.mvp) :
    mvpPositive (s.writeCsr r v).mvp := by
  cases r with
  | mvp c j =>
    simp only [State.writeCsr]
    refine ⟨fun k => ?_, fun k => ?_⟩ <;> rw [MvpFile.get_set] <;> split
    · exact mvpStored_ne_zero v
    · exact h.1 k
    · exact mvpStored_ne_zero v
    · exact h.2 k
  | status =>
    simp only [State.writeCsr, State.writeStatus]
    split <;> exact h
  | _ => exact h

/-- The invariant at a state that agrees on the fields it is about. -/
theorem Invariant.of_eq {s t : State} (h : Invariant s) (hm : t.mem = s.mem) (hw : t.ws = s.ws) (hc : t.config = s.config)
    (hp : t.mvp = s.mvp) (hr : t.bdReady = s.bdReady) (hb : t.bd = s.bd) : Invariant t where
  mem := by rw [hm]; exact h.mem
  ws := by rw [hw]; exact h.ws
  config := by rw [hc]; exact h.config
  mvp := by rw [hp]; exact h.mvp
  bd := by rw [hr, hb]; exact h.bd

/-- Reset's memories are in canonical form. -/
theorem reset_memories_wf : Memory.wf memSize State.reset.mem ∧ Memory.wf wsSize State.reset.ws := by decide

/-- The cases of a step that goes on: idle, or a host action performed (R223, R224). -/
theorem step_cases {s t : State} (h : step s = .next t) :
    (s.pending = [] ∧ t = s) ∨ ∃ a rest, s.pending = a :: rest ∧ hostAct a { s with pending := rest } = .next t := by
  unfold step at h
  cases hp : s.pending with
  | nil =>
    rw [hp] at h
    simp only [Host.Outcome.next.injEq] at h
    exact .inl ⟨rfl, h.symm⟩
  | cons a rest =>
    rw [hp] at h
    exact .inr ⟨a, rest, rfl, h⟩

/-- What the command step does with a word (R181): dropped, rejected by the decoder, or the meaning of its command. -/
theorem command_cases (w : Word) (s : State) :
    (s.cause.isSome = true ∧ command w s = .next s)
    ∨ (s.cause = none ∧
      ((decode w = .illegalOpcode ∧ command w s = .next (s.raise .illegalOpcode w))
      ∨ (decode w = .illegalOperand ∧ command w s = .next (s.raise .illegalOperand w))
      ∨ ∃ i, decode w = .instr i ∧ encode i = w ∧ command w s = exec i s)) := by
  unfold command
  cases hc : s.cause with
  | some c => exact .inl ⟨rfl, rfl⟩
  | none =>
    refine .inr ⟨rfl, ?_⟩
    simp only [Option.isSome_none, Bool.false_eq_true, if_false]
    cases hd : decode w with
    | illegalOpcode => exact .inl ⟨rfl, rfl⟩
    | illegalOperand => exact .inr (.inl ⟨rfl, rfl⟩)
    | instr i =>
      refine .inr (.inr ⟨i, rfl, ?_, rfl⟩)
      rcases decode_cases w with ⟨-, h2⟩ | ⟨k, -, ⟨-, h2⟩ | ⟨-, r, hr, -, hw, h2⟩⟩
      · simp [hd] at h2
      · simp [hd] at h2
      · rw [hd] at h2
        simp only [Decoded.instr.injEq] at h2
        rw [h2]
        exact encode_make w r hr hw

end Sys2Proof.Machine
end

