-- ==== Sys2Proof/Laws/Locality.lean ====
section
/-! SUPPORT. What a read sees: the parameters, the MVP file and the bytes of MEM from BD_POS up to BD_END, nothing else of the
state (spec/10_state.md R46, spec/20_memory.md R72). -/

namespace Sys2Proof.Machine

/-- Two states alike in all that the reads from the decoder `b` can see. -/
structure Ahead (s t : State) (b : Bd) : Prop where
  config : t.config = s.config
  mvp : t.mvp = s.mvp
  mem : ∀ a, b.pos ≤ a → a < b.endAddr → t.memByte a = s.memByte a

/-- The reader `g` at `t` does what the reader `f` at `s` does, from every decoder whose bytes ahead are the same, and the bytes
ahead of the decoder it leaves are the same too. -/
structure Agree {α : Type} (s t : State) (f g : Bd → Except BdStop (α × Bd)) : Prop where
  eq : ∀ {b}, Ahead s t b → g b = f b
  next : ∀ {b a e}, Ahead s t b → f b = .ok (a, e) → Ahead s t e

/-- States alike in their parameters, MVP file and MEM are alike ahead of every decoder. -/
theorem Ahead.of_mem {s t : State} (hc : t.config = s.config) (hv : t.mvp = s.mvp) (hm : t.mem = s.mem) (b : Bd) :
    Ahead s t b := ⟨hc, hv, fun a _ _ => by simp only [State.memByte, hm]⟩

/-- A completed read changes nothing the next reads see but the decoder. -/
theorem Ahead.finishRead (s : State) (r : Word) (d : BdRegs) (b : Bd) : Ahead s (s.finishRead r d) b :=
  Ahead.of_mem (State.finishRead_config s r d) (State.finishRead_mvp s r d) (State.finishRead_mem s r d) b

/-- A decoder further on in the same buffer sees less. -/
theorem Ahead.mono {s t : State} {b e : Bd} (h : Ahead s t b) (hp : b.pos ≤ e.pos) (he : e.endAddr = b.endAddr) : Ahead s t e :=
  ⟨h.config, h.mvp, fun a h1 h2 => h.mem a (hp.trans h1) (he ▸ h2)⟩

theorem fetchAt_ahead {s t : State} {b : Bd} (h : Ahead s t b) : fetchAt t b.pos b.endAddr = fetchAt s b.pos b.endAddr := by
  unfold fetchAt
  rw [h.config]
  split
  · rfl
  · rw [h.mem b.pos (Nat.le_refl _) (by omega)]

/-- One pass of the normalisation. -/
theorem shiftOnce_ahead {s t : State} {b : Bd} (h : Ahead s t b) :
    shiftOnce t b = shiftOnce s b ∧ ∀ e, shiftOnce s b = .ok e → Ahead s t e := by
  unfold shiftOnce
  by_cases h8 : b.count + 1 = 8
  · simp only [h8, if_true, fetchByte_eq, fetchAt_ahead h, true_and]
    intro e he
    cases hf : fetchAt s b.pos b.endAddr with
    | error x => simp [hf, Except.map, Bind.bind, Except.bind] at he
    | ok r =>
      simp only [hf, Except.map, Bind.bind, Except.bind, Pure.pure, Except.pure, Except.ok.injEq] at he
      subst he
      exact h.mono (fetchAt_ok (byte := r.1) (next := r.2) hf).2.1 rfl
  · simp only [h8, if_false, Except.ok.injEq, true_and]
    rintro e rfl
    exact h.mono (Nat.le_refl _) rfl

/-- The normalisation. -/
theorem normalise_ahead {s t : State} (fuel : Nat) {b : Bd} (h : Ahead s t b) :
    normalise t fuel b = normalise s fuel b ∧ ∀ e, normalise s fuel b = .ok e → Ahead s t e := by
  induction fuel generalizing b with
  | zero =>
    refine ⟨rfl, fun e he => ?_⟩
    unfold normalise at he
    split at he
    · simp at he
    · simp only [Except.ok.injEq] at he
      exact he ▸ h
  | succ fuel ih =>
    obtain ⟨h1, h2⟩ := shiftOnce_ahead h
    unfold normalise
    split
    · rw [h1]
      cases hs : shiftOnce s b with
      | error x => exact ⟨rfl, fun e he => by simp [Bind.bind, Except.bind] at he⟩
      | ok d => exact ih (h2 d hs)
    · exact ⟨rfl, fun e he => by simp only [Except.ok.injEq] at he; exact he ▸ h⟩

/-- One bool. -/
theorem Agree.readBit (s t : State) (prob : Byte) : Agree s t (readBit s prob) (readBit t prob) := by
  have key : ∀ {b}, Ahead s t b → Ahead s t (decided prob b).2 := by
    intro b h
    refine h.mono ?_ ?_ <;> (simp only [decided]; split <;> simp)
  constructor
  · intro b h
    rw [readBit_eq, readBit_eq, (normalise_ahead 7 (key h)).1]
  · intro b a e h he
    rw [readBit_eq] at he
    cases hn : normalise s 7 (decided prob b).2 with
    | error x => simp [hn, Except.map] at he
    | ok d =>
      simp only [hn, Except.map, Except.ok.injEq, Prod.mk.injEq] at he
      exact he.2 ▸ (normalise_ahead 7 (key h)).2 d hn

/-- No read. -/
theorem Agree.pure {α : Type} (s t : State) (a : α) : Agree s t (fun b => .ok (a, b)) (fun b => .ok (a, b)) where
  eq _ := rfl
  next h he := by
    simp only [Except.ok.injEq, Prod.mk.injEq] at he
    exact he.2 ▸ h

/-- Two readers in sequence. -/
theorem Agree.bind {α β : Type} {s t : State} {f f' : Bd → Except BdStop (α × Bd)} {g g' : α → Bd → Except BdStop (β × Bd)}
    (hf : Agree s t f f') (hg : ∀ a, Agree s t (g a) (g' a)) :
    Agree s t (fun b => (f b).bind fun r => g r.1 r.2) (fun b => (f' b).bind fun r => g' r.1 r.2) where
  eq {b} h := by
    simp only [hf.eq h]
    cases hfb : f b with
    | error x => rfl
    | ok r => exact (hg r.1).eq (hf.next h hfb)
  next {b a e} h he := by
    cases hfb : f b with
    | error x => simp [hfb, Except.bind] at he
    | ok r =>
      simp only [hfb, Except.bind] at he
      exact (hg r.1).next (hf.next h hfb) he

/-- A choice both make alike. -/
theorem Agree.ite {α : Type} {s t : State} {c : Prop} [Decidable c] {f f' g g' : Bd → Except BdStop (α × Bd)}
    (hf : Agree s t f f') (hg : Agree s t g g') :
    Agree s t (fun b => if c then f b else g b) (fun b => if c then f' b else g' b) := by
  by_cases h : c
  · simpa [h] using hf
  · simpa [h] using hg

/-- Readers that agree whenever the parameters and the MVP file are the same agree. -/
theorem Agree.of_regs {α : Type} {s t : State} {f g : Bd → Except BdStop (α × Bd)}
    (h : t.config = s.config → t.mvp = s.mvp → Agree s t f g) : Agree s t f g where
  eq ha := (h ha.config ha.mvp).eq ha
  next ha := (h ha.config ha.mvp).next ha

/-- A literal. -/
theorem Agree.readUint (s t : State) (prob : Byte) (n : Nat) : Agree s t (readUint s prob n) (readUint t prob n) := by
  induction n with
  | zero => exact Agree.pure s t 0
  | succ k ih =>
    exact (Agree.readBit s t prob).bind fun bit => ih.bind fun u => Agree.pure s t (bit.toNat * 2 ^ k + u)

/-- The short tree. -/
theorem Agree.shortTree (s t : State) (p : Vector Byte 19) : Agree s t (shortTree s p) (shortTree t p) := by
  have h := (Agree.readBit s t p[2]).bind
    (g := fun b0 b =>
      if b0 then (Machine.readBit s p[6] b).bind fun r1 =>
        (Machine.readBit s (if r1.1 then p[8] else p[7]) r1.2).bind fun r2 => .ok (4 + 2 * r1.1.toNat + r2.1.toNat, r2.2)
      else (Machine.readBit s p[3] b).bind fun r1 =>
        (Machine.readBit s (if r1.1 then p[5] else p[4]) r1.2).bind fun r2 => .ok (2 * r1.1.toNat + r2.1.toNat, r2.2))
    (g' := fun b0 b =>
      if b0 then (Machine.readBit t p[6] b).bind fun r1 =>
        (Machine.readBit t (if r1.1 then p[8] else p[7]) r1.2).bind fun r2 => .ok (4 + 2 * r1.1.toNat + r2.1.toNat, r2.2)
      else (Machine.readBit t p[3] b).bind fun r1 =>
        (Machine.readBit t (if r1.1 then p[5] else p[4]) r1.2).bind fun r2 => .ok (2 * r1.1.toNat + r2.1.toNat, r2.2))
    fun b0 => Agree.ite (c := b0 = true)
      ((Agree.readBit s t p[6]).bind fun b1 =>
        (Agree.readBit s t (if b1 then p[8] else p[7])).bind fun b2 => Agree.pure s t (4 + 2 * b1.toNat + b2.toNat))
      ((Agree.readBit s t p[3]).bind fun b1 =>
        (Agree.readBit s t (if b1 then p[5] else p[4])).bind fun b2 => Agree.pure s t (2 * b1.toNat + b2.toNat))
  exact h

/-- A weighted read. -/
theorem Agree.readWeighted (s t : State) (l : List (Byte × Nat)) : Agree s t (readWeighted s l) (readWeighted t l) := by
  induction l with
  | nil => exact Agree.pure s t 0
  | cons e l ih =>
    exact (Agree.readBit s t e.1).bind fun bit => ih.bind fun sum => Agree.pure s t (bit.toNat * e.2 + sum)

/-- The DOC long path. -/
theorem Agree.longDoc (s t : State) (p : Vector Byte 19) : Agree s t (longDoc s p) (longDoc t p) :=
  (Agree.readWeighted s t (docBits p)).bind fun l => Agree.pure s t (l + 8)

/-- The RFC long path. -/
theorem Agree.longRfc (s t : State) (p : Vector Byte 19) : Agree s t (longRfc s p) (longRfc t p) :=
  (Agree.readWeighted s t (rfcBits p)).bind
    (g := fun a b => if a &&& 0xFFF0 = 0 then .ok (a + 8, b)
      else (Machine.readBit s p[12] b).bind fun r => .ok (a + 8 * r.1.toNat, r.2))
    (g' := fun a b => if a &&& 0xFFF0 = 0 then .ok (a + 8, b)
      else (Machine.readBit t p[12] b).bind fun r => .ok (a + 8 * r.1.toNat, r.2))
    fun a => Agree.ite (Agree.pure s t (a + 8))
      ((Agree.readBit s t p[12]).bind fun bit => Agree.pure s t (a + 8 * bit.toNat))

/-- The magnitude. -/
theorem Agree.readMagnitude (s t : State) (p : Vector Byte 19) : Agree s t (readMagnitude s p) (readMagnitude t p) := by
  refine Agree.of_regs fun hc _ => ?_
  refine (Agree.readBit s t p[0]).bind
    (g := fun isLong b => if isLong then
        match s.config.mvLongOrder with
        | .doc => Machine.longDoc s p b
        | .rfc => Machine.longRfc s p b
      else Machine.shortTree s p b)
    (g' := fun isLong b => if isLong then
        match t.config.mvLongOrder with
        | .doc => Machine.longDoc t p b
        | .rfc => Machine.longRfc t p b
      else Machine.shortTree t p b)
    fun _ => Agree.ite ?_ (Agree.shortTree s t p)
  rw [hc]
  cases s.config.mvLongOrder
  · exact Agree.longDoc s t p
  · exact Agree.longRfc s t p

/-- One component. -/
theorem Agree.readComponent (s t : State) (c : Comp) : Agree s t (readComponent s c) (readComponent t c) := by
  refine Agree.of_regs fun _ hv => ?_
  have hs : ∀ a : Nat, Agree s t
      (fun b => (Machine.readBit s (s.mvp.vec c)[1] b).bind fun r => .ok (if r.1 then -(a : Int) else (a : Int), r.2))
      (fun b => (Machine.readBit t (s.mvp.vec c)[1] b).bind fun r => .ok (if r.1 then -(a : Int) else (a : Int), r.2)) :=
    fun a => (Agree.readBit s t (s.mvp.vec c)[1]).bind fun neg => Agree.pure s t (if neg then -(a : Int) else (a : Int))
  have hm : ∀ a : Nat, Agree s t
      (fun b => if a = 0 then .ok ((0 : Int), b)
        else (Machine.readBit s (s.mvp.vec c)[1] b).bind fun r => .ok (if r.1 then -(a : Int) else (a : Int), r.2))
      (fun b => if a = 0 then .ok ((0 : Int), b)
        else (Machine.readBit t (s.mvp.vec c)[1] b).bind fun r => .ok (if r.1 then -(a : Int) else (a : Int), r.2)) :=
    fun a => Agree.ite (Agree.pure s t (0 : Int)) (hs a)
  have h := (Agree.readMagnitude s t (s.mvp.vec c)).bind hm
  have et : Machine.readComponent t c = fun b => (Machine.readMagnitude t (s.mvp.vec c) b).bind fun r =>
      if r.1 = 0 then .ok ((0 : Int), r.2)
      else (Machine.readBit t (s.mvp.vec c)[1] r.2).bind fun q => .ok (if q.1 then -(r.1 : Int) else (r.1 : Int), q.2) := by
    funext b
    unfold Machine.readComponent
    rw [hv]
    rfl
  rw [et]
  exact h

/-- One entry of the probability update. -/
theorem Agree.readEntry (s t : State) (c : Comp) (j : Fin 19) : Agree s t (readEntry s c j) (readEntry t c j) := by
  refine Agree.of_regs fun hc _ => ?_
  have h := (Agree.readBit s t (s.config.mvpUpdProb.get c j)).bind
    (g := fun flag b => if flag then (Machine.readUint s 128 7 b).bind fun r => .ok (some (promote r.1), r.2)
      else .ok (none, b))
    (g' := fun flag b => if flag then (Machine.readUint t 128 7 b).bind fun r => .ok (some (promote r.1), r.2)
      else .ok (none, b))
    fun _ => Agree.ite ((Agree.readUint s t 128 7).bind fun x => Agree.pure s t (some (promote x))) (Agree.pure s t none)
  have et : Machine.readEntry t c j = fun b => (Machine.readBit t (s.config.mvpUpdProb.get c j) b).bind fun r =>
      if r.1 then (Machine.readUint t 128 7 r.2).bind fun q => .ok (some (promote q.1), q.2) else .ok (none, r.2) := by
    funext b
    unfold Machine.readEntry
    rw [hc]
    rfl
  rw [et]
  exact h

/-- The loop of MVP_UPDATE. -/
theorem updateEntries_ahead {s t : State} (l : List (Comp × Fin 19)) (f : MvpFile) {b : Bd} (h : Ahead s t b) :
    updateEntries t l f b = updateEntries s l f b := by
  induction l generalizing f b with
  | nil => rfl
  | cons a l ih =>
    obtain ⟨c, j⟩ := a
    have he := (Agree.readEntry s t c j).eq h
    have hn := @(Agree.readEntry s t c j).next b
    unfold updateEntries
    rw [he]
    cases hr : readEntry s c j b with
    | error x => rfl
    | ok r =>
      obtain ⟨o, b'⟩ := r
      cases o with
      | none => exact ih f (hn h hr)
      | some v => exact ih _ (hn h hr)

end Sys2Proof.Machine
end

