-- ==== Sys2Proof/Laws/PerInstr.lean ====
section
/-! SUPPORT. Facts said of every command as syntax, one lemma per constructor: the family TableRow, the row of the opcode map
(spec/30_encoding.md R86) a command's word belongs to. -/

namespace Sys2Proof.Laws

/-- The word of the command is its opcode and, below it, its operand bits, fewer than its row allows to be set. -/
def TableRow.Statement (i : Instr) : Prop :=
  (encode i).toNat = opcodeOf i * 2 ^ 24 + operandValue i
    ∧ ∃ k ≤ 14, operandBits (opcodeOf i) = some k ∧ operandValue i < 2 ^ k

theorem TableRow.nop : TableRow.Statement .nop := ⟨encode_toNat _, 0, by decide, rfl, by decide⟩

theorem TableRow.bdInit : TableRow.Statement .bdInit := ⟨encode_toNat _, 0, by decide, rfl, by decide⟩

theorem TableRow.bdReadBit (prob : Byte) : TableRow.Statement (.bdReadBit prob) :=
  ⟨encode_toNat _, 8, by decide, rfl, prob.isLt⟩

theorem TableRow.bdReadUint (prob : Byte) (n : BitVec 6) : TableRow.Statement (.bdReadUint prob n) := by
  refine ⟨encode_toNat _, 14, by decide, rfl, ?_⟩
  have := prob.isLt
  have := n.isLt
  simp only [operandValue]
  omega

theorem TableRow.mvpLoadDefault : TableRow.Statement .mvpLoadDefault := ⟨encode_toNat _, 0, by decide, rfl, by decide⟩

theorem TableRow.mvpUpdate : TableRow.Statement .mvpUpdate := ⟨encode_toNat _, 0, by decide, rfl, by decide⟩

theorem TableRow.mvReadComponent (comp : Comp) : TableRow.Statement (.mvReadComponent comp) :=
  ⟨encode_toNat _, 1, by decide, rfl, comp.bits.isLt⟩

theorem TableRow.mvRead : TableRow.Statement .mvRead := ⟨encode_toNat _, 0, by decide, rfl, by decide⟩

theorem TableRow.mcPredict (ref : RefTag) : TableRow.Statement (.mcPredict ref) :=
  ⟨encode_toNat _, 2, by decide, rfl, ref.bits.isLt⟩

theorem TableRow.mcPredictSplit (ref : RefTag) : TableRow.Statement (.mcPredictSplit ref) :=
  ⟨encode_toNat _, 2, by decide, rfl, ref.bits.isLt⟩

end Sys2Proof.Laws
end

