-- ==== Sys2Proof/Tests/Slice0.lean ====
section
/-! SUPPORT. Tests of the model against spec/95_test_vectors.md and the examples of the command rules, the WellFormed smoke tests,
and the decoding of words written out from spec/30_encoding.md. -/

namespace Sys2Proof.Tests

open Sys2Proof.Machine

-- One theorem at a time: each waits for the kernel, and a waiting thread keeps its stack.
set_option Elab.async false

/-! ### Helpers -/

/-- The cells of consecutive bytes. -/
def memAt (base : Nat) (bytes : List Byte) : Memory := bytes.mapIdx fun k b => (base + k, b)

/-- Reset, with a stream in MEM at 0x1000 and its buffer named. -/
def withStream (bytes : List Byte) : State :=
  { State.reset with mem := memAt 0x1000 bytes, bdSrcBase := 0x1000, bdSrcLen := BitVec.ofNat 24 bytes.length }

/-- Whether an outcome is a next state. -/
def goesOn : Host.Outcome State Fault Refusal → Bool
  | .next _ => true
  | _ => false

/-- The next state of an outcome that has one. -/
def landing : Host.Outcome State Fault Refusal → State
  | .next s => s
  | _ => State.reset

theorem eq_landing {o : Host.Outcome State Fault Refusal} (h : goesOn o = true) : o = .next (landing o) := by
  cases o <;> simp_all [goesOn, landing]

/-- The state after command words, each run by the command step. -/
def runWords (ws : List Word) (s : State) : State := ws.foldl (fun s w => landing (command w s)) s

/-- A stream with BD_INIT done. -/
def bound (bytes : List Byte) : State := runWords [0x01000000] (withStream bytes)

/-- RESULT, BD_VALUE, BD_RANGE, BD_COUNT, BD_POS. -/
def bdView (s : State) : Word × BitVec 16 × BitVec 8 × BitVec 3 × Word :=
  (s.result, s.bd.value, s.bd.range, s.bd.count, s.bd.pos)

/-- V-CTL-16's descriptor, a 1 x 1 frame at 0x10, 0x20, 0x30. -/
def tinyDesc : RefDesc := ⟨true, 1, 1, 0x10, 1, 0x20, 0x30, 1⟩

/-- Reset, with V-CTL-16's frame registered as LAST, samples 77, 88 and 99. -/
def withTiny : State :=
  { State.reset with
    mem := [(0x10, 77), (0x20, 88), (0x30, 99)]
    refs := ⟨tinyDesc, RefDesc.zero, RefDesc.zero⟩ }

/-- Reset, with V-MC-W1's 8 x 8 luma plane at 0x100 and 4 x 4 chroma planes of one value each. -/
def withRows : State :=
  { State.reset with
    mem := memAt 0x100 (List.replicate 8 ([255, 0, 255, 255, 0, 255, 255, 255] : List Byte)).flatten
      ++ memAt 0x200 (List.replicate 16 10) ++ memAt 0x300 (List.replicate 16 20)
    refs := ⟨⟨true, 8, 8, 0x100, 8, 0x200, 0x300, 4⟩, RefDesc.zero, RefDesc.zero⟩ }

/-- The corner of F0 of V-MC-0 that its first pixels read: 4 x 4 luma samples 8x + 2y, and 2 x 2 chroma samples. -/
def withCorner : State :=
  { State.reset with
    mem := memAt 0x100 [0, 8, 16, 24, 2, 10, 18, 26, 4, 12, 20, 28, 6, 14, 22, 30]
      ++ memAt 0x200 [0, 16, 1, 17] ++ memAt 0x300 [255, 254, 239, 238]
    refs := ⟨⟨true, 4, 4, 0x100, 4, 0x200, 0x300, 2⟩, RefDesc.zero, RefDesc.zero⟩ }

/-! ### WellFormed: an ill-formed term for each check (R88) -/

theorem test_wf_refuses_n_33 : (Instr.bdReadUint 128 33).wf = false ∧ (Instr.bdReadUint 128 32).wf = true := by decide

theorem test_wf_refuses_predict_intra : (Instr.mcPredict .intra).wf = false ∧ (Instr.mcPredict .altref).wf = true := by decide

theorem test_wf_refuses_split_intra : (Instr.mcPredictSplit .intra).wf = false ∧ (Instr.mcPredictSplit .last).wf = true := by
  decide

/-! ### Decoding words written out from the formats (R82 to R86) -/

theorem test_decode_nop : decode 0b00000000000000000000000000000000 = .instr .nop := by decide

theorem test_decode_bdInit : decode 0b00000001000000000000000000000000 = .instr .bdInit := by decide

theorem test_decode_bdReadBit : decode 0b00000010000000000000000011001000 = .instr (.bdReadBit 200) := by decide

theorem test_decode_bdReadUint : decode 0b00000011000000000000100011001000 = .instr (.bdReadUint 200 8) := by decide

theorem test_decode_mvpLoadDefault : decode 0b00010000000000000000000000000000 = .instr .mvpLoadDefault := by decide

theorem test_decode_mvpUpdate : decode 0b00010001000000000000000000000000 = .instr .mvpUpdate := by decide

theorem test_decode_mvReadComponent : decode 0b00010010000000000000000000000001 = .instr (.mvReadComponent .x) := by decide

theorem test_decode_mvRead : decode 0b00010011000000000000000000000000 = .instr .mvRead := by decide

theorem test_decode_mcPredict : decode 0b00100000000000000000000000000011 = .instr (.mcPredict .altref) := by decide

theorem test_decode_mcPredictSplit : decode 0b00100001000000000000000000000010 = .instr (.mcPredictSplit .golden) := by decide

/-- V-CTL-6 to V-CTL-9 and V-CTL-12: the two rejections. -/
theorem test_decode_rejects :
    decode 0x05000000 = .illegalOpcode ∧ decode 0xFF000000 = .illegalOpcode ∧ decode 0x00000001 = .illegalOperand
      ∧ decode 0x02010080 = .illegalOperand ∧ decode 0x12000002 = .illegalOperand := by decide

/-- A command runs as the first step after reset, and is the decoder's (R181). -/
theorem test_withFetchWord :
    decodeTableWord 32 0x12000001 = some (.mvReadComponent .x)
      ∧ (landing (step (State.reset.withFetchWord 32 0x12000001))).statusWord = 0x51 := by decide

/-! ### The Boolean decoder (V-BD) -/

/-- The example of R102. -/
theorem test_bdInit :
    bdView (bound [0xB5, 0x8C, 0x10, 0x00]) = (0, 0xB58C, 255, 0, 0x1002)
      ∧ (bound [0xB5, 0x8C, 0x10, 0x00]).bd.endAddr = 0x1004 ∧ (bound [0xB5, 0x8C, 0x10, 0x00]).statusWord = 2 := by
  decide +kernel

/-- V-BD-2: a first byte 0xFF is BAD_STREAM. -/
theorem test_bdInit_badStream :
    (bound [0xFF, 0xFF, 0x00, 0x00]).statusWord = 0x21 ∧ (bound [0xFF, 0xFF, 0x00, 0x00]).faultCmd = 0x01000000 := by
  decide +kernel

/-- V-BD-3, commands 1 to 4. -/
theorem test_bdReadBit :
    bdView (runWords [0x02000080, 0x02000080, 0x020000C8, 0x0200000A] (bound [0xB2, 0x0F, 0x01, 0x80, 0x00]))
      = (0, 0x8F01, 144, 0, 0x1003) := by decide +kernel

/-- V-BD-5: the ninth bool is TRUNCATED and RESULT keeps the eighth. -/
theorem test_bdReadBit_truncated :
    (runWords (List.replicate 9 0x02000080) (bound [0x12, 0x34])).statusWord = 0x11
      ∧ (runWords (List.replicate 9 0x02000080) (bound [0x12, 0x34])).result = 0 := by decide +kernel

/-- V-BD-4. -/
theorem test_bdReadUint :
    bdView (runWords [0x03000780] (bound [0xB5, 0x8C, 0x10, 0x00])) = (0x5A, 0xFA00, 254, 7, 0x1002)
      ∧ bdView (runWords [0x03000780, 0x02000080, 0x030008C8] (bound [0xB5, 0x8C, 0x10, 0x00]))
        = (0xC3, 0, 224, 2, 0x1004) := by decide +kernel

/-- V-CTL-10: n = 33 on a bound decoder. -/
theorem test_bdReadUint_n33 :
    (runWords [0x03002180] (bound [0xB5, 0x8C, 0x10, 0x00])).statusWord = 0x43
      ∧ (runWords [0x03002180] (bound [0xB5, 0x8C, 0x10, 0x00])).bd.value = 0xB58C := by decide +kernel

/-! ### The MV-component decoder (V-MVP, V-MV) -/

/-- V-MVP-2. -/
theorem test_mvpUpdate :
    let s := runWords [0x11000000] (bound [0xEC, 0x22, 0xB2, 0x8F, 0xFC, 0x00])
    (s.mvp.get .y 0, s.mvp.get .y 5, s.mvp.get .x 18, s.bd.range, s.bd.count, s.bd.pos) = (1, 100, 126, 128, 5, 0x1006) := by
  decide +kernel

/-- V-MVP-3: the entry replaced before TRUNCATED keeps its new value. -/
theorem test_mvpUpdate_truncated :
    let s := runWords [0x11000000] (bound [0xEC, 0x22, 0xB2])
    (s.statusWord, s.mvp.get .y 0, s.mvp.get .y 5) = (0x11, 1, 147) := by decide +kernel

/-- V-MVP-4. -/
theorem test_mvpLoadDefault :
    let s := runWords [0x11000000, 0x10000000] (bound [0xEC, 0x22, 0xB2, 0x8F, 0xFC, 0x00])
    (s.mvp.get .y 0, s.mvp.get .y 5, s.mvp.get .x 18) = (162, 147, 254) := by decide +kernel

/-- V-MV-T1. -/
theorem test_mvReadComponent : bdView (runWords [0x12000000] (bound [0x8F, 0xA0, 0x00, 0x00])) = (5, 0, 224, 5, 0x1002) := by
  decide +kernel

/-- V-MV-P4's stream with `mv.comp 0`, `mv.comp 1`: 12 and then -40, unscaled. -/
theorem test_mvReadComponent_pair :
    (runWords [0x12000000] (bound [0xA2, 0x16, 0x56, 0xD8])).result = 12
      ∧ (runWords [0x12000000, 0x12000001] (bound [0xA2, 0x16, 0x56, 0xD8])).result = 0xFFFFFFD8 := by decide +kernel

/-- V-MV-P4. -/
theorem test_mvRead :
    let s := runWords [0x13000000] (bound [0xA2, 0x16, 0x56, 0xD8])
    (s.result, s.bd.range, s.bd.count, s.bd.pos) = (0x0030FF60, 230, 6, 0x1004) := by decide +kernel

/-! ### Motion compensation (V-MC, V-CTL) -/

/-- V-CTL-16 with an MV: every byte of a region is the single sample of its plane. -/
theorem test_mcPredict_one_sample :
    let s := runWords [0x20000001] { withTiny with mbmv := 0x0003FFFF }
    (s.wsByte (wsIndex 1 8), s.wsByte (wsIndex 16 23), s.wsByte (wsIndex 18 8), s.wsByte (wsIndex 25 31), s.statusWord)
      = (77, 77, 88, 99, 0) := by decide +kernel

/-- V-MC-W1: the DOC filter keeps 40800 exactly, and wraps it under TEMP_WRAP16. -/
theorem test_mcPredict_wrap16 :
    (luma6 withRows (withRows.refs.get .last) 2 2 4 4,
      luma6 { withRows with config := { defaultConfig with tempWrap16 := true } } (withRows.refs.get .last) 2 2 4 4,
      luma6 { withRows with config := { defaultConfig with tempWrap16 := true } } (withRows.refs.get .last) 2 2 4 0)
      = (255, 0, 0) := by decide +kernel

/-- The first pixels of V-MC-4 (row 2) and V-MC-5 (rows 4 and 6), luma, Cb and Cr. -/
theorem test_mcPredict_taps :
    let d := withCorner.refs.get .last
    (luma6 withCorner d 0 0 2 0, luma6 withCorner d 0 0 4 6, bil withCorner d .cb 0 0 1 0, bil withCorner d .cr 0 0 2 3)
      = (1, 5, 2, 249) := by decide +kernel

/-- V-CTL-14: VALID = 0 fills with 128 and counts. -/
theorem test_mcPredictSplit_missing :
    let s := runWords [0x21000002] withTiny
    (s.wsByte (wsIndex 1 8), s.wsByte (wsIndex 25 31), s.missref, s.statusWord) = (128, 128, 1, 0) := by decide +kernel

/-- V-CTL-17: the 1 x 1 frame is not well-formed under FLOOR_HALF. -/
theorem test_mcPredictSplit_badDesc :
    let s := runWords [0x21000001] { withTiny with config := { defaultConfig with chromaEdge := .floorHalf } }
    (s.statusWord, s.faultCmd, s.ws, s.missref) = (0x61, 0x21000001, [], 0) := by decide +kernel

/-- V-MC-S2: the sums -5, 5, -6, -2, 2, 6, -16 and their means. -/
theorem test_splitChroma_rounding :
    ([-5, 5, -6, -2, 2, 6, -16] : List Int).map (fun sum => shr (sum + 2) 2) = [-1, 1, -1, 0, 1, 2, -4] := by decide

/-! ### Control and the host's ports (V-CTL, V-CSR) -/

/-- V-CTL-1: `nop` with STATUS = 0 changes nothing. -/
theorem test_nop : runWords [0x00000000] withTiny = withTiny := by decide +kernel

/-- V-CTL-2 to V-CTL-5: a fault, a dropped command, a write that clears nothing, and the clear. -/
theorem test_fault_and_clear :
    let s := runWords [0x02000080, 0x01000000] (withStream [0xB5, 0x8C, 0x10, 0x00])
    (s.statusWord, s.faultCmd, (s.writeCsrAddr 0 0).statusWord, (s.writeCsrAddr 0 1).statusWord,
      (s.writeCsrAddr 0 1).faultCmd) = (0x51, 0x02000080, 0x51, 0, 0x02000080) := by decide +kernel

/-- V-CSR-1 to V-CSR-4, V-CSR-6, V-CSR-7. -/
theorem test_csr_read_back :
    ((State.reset.writeCsrAddr 0x20 0).readCsrAddr 0x20, (State.reset.writeCsrAddr 0x20 0x1FF).readCsrAddr 0x20,
      (State.reset.writeCsrAddr 0x52 0x80).readCsrAddr 0x52, (State.reset.writeCsrAddr 0x06 0x12345678).readCsrAddr 0x06,
      (State.reset.writeCsrAddr 0x60 0xFFFFFFFF).readCsrAddr 0x60, (State.reset.writeCsrAddr 0x09 0xFF000010).readCsrAddr 0x09)
      = (1, 0xFF, 0x80, 0, 1, 0x10) := by decide +kernel

/-- V-CTL-18: reset after a fault. -/
theorem test_reset_clears :
    let s := (runWords [0x05000000] State.reset).resetBlock
    (s.statusWord, s.faultCmd, s.mvp.get .y 0) = (0, 0, 162) := by decide +kernel

end Sys2Proof.Tests
end

