-- ==== Sys2Proof/Tests/Witnesses.lean ====
section
/-! SUPPORT. One witness theorem for each statement of Certificates/Slice0/Obligations.lean that has hypotheses: a concrete state
and operands that meet all of them together, and one for each clause where a statement has several. -/

namespace Sys2Proof.Tests

open Sys2Proof.Machine

-- One theorem at a time: each waits for the kernel, and a waiting thread keeps its stack.
set_option Elab.async false

/-! ### Concrete states -/

/-- A bound decoder with four bytes. -/
def s4 : State := bound [0xB5, 0x8C, 0x10, 0x00]

/-- V-BD-5's decoder after eight bools: the next shift fetches at BD_END. -/
def sEnd : State := runWords (List.replicate 8 0x02000080) (bound [0x12, 0x34])

/-- The same under BD_TAIL = ZERO_FILL. -/
def sEndZero : State := { sEnd with config := { defaultConfig with bdTail := .zeroFill } }

/-- A bound decoder under BD_TAIL = ZERO_FILL. -/
def sZero : State := { s4 with config := { defaultConfig with bdTail := .zeroFill } }

/-- V-MVP-3's decoder, whose update is TRUNCATED. -/
def sCut : State := bound [0xEC, 0x22, 0xB2]

/-- A halted state. -/
def sHalted : State := runWords [0x05000000] State.reset

/-- The 1 x 1 frame, with equal MVs everywhere. -/
def tinyMv : State := { withTiny with mbmv := 0x00040008, submv := Vector.replicate 16 0x00040008 }

/-- The 1 x 1 frame under FLOOR_HALF, which is not well-formed. -/
def tinyBad : State := { withTiny with config := { defaultConfig with chromaEdge := .floorHalf } }

/-- The state with a host action waiting. -/
def waiting (s : State) (a : HostAction) : State := { s with pending := [a] }

theorem reset_invariant : Invariant State.reset := ⟨by decide, by decide, by decide, by decide, by decide⟩

theorem s4_invariant : Invariant s4 := ⟨by decide +kernel, by decide +kernel, by decide +kernel, by decide +kernel, by decide +kernel⟩

/-- The invariant does not look at the host's actions. -/
theorem waiting_invariant {s : State} (h : Invariant s) (a : HostAction) : Invariant (waiting s a) :=
  ⟨h.mem, h.ws, h.config, h.mvp, h.bd⟩

/-! ### Reset and invariants -/

theorem witness_ResetActionRestoresTable2 : (waiting sHalted .reset).pending = .reset :: [] := rfl

theorem witness_StepKeepsInvariant :
    Invariant (waiting s4 (.cmd 0x02000080))
      ∧ ∃ t, step (waiting s4 (.cmd 0x02000080)) = .next t ∧ t.result = 1 :=
  ⟨waiting_invariant s4_invariant _, _, eq_landing (by decide +kernel), by decide +kernel⟩

theorem witness_RunNeverStops :
    Invariant (waiting s4 (.cmd 0x02000080))
      ∧ ∀ a ∈ (waiting s4 (.cmd 0x02000080)).pending, a.supported = true :=
  ⟨waiting_invariant s4_invariant _, by decide +kernel⟩

theorem witness_StepStopsOnlyOnNarrowCsrAccess :
    Invariant (waiting State.reset (.csrOtherWidth 0 8))
      ∧ (waiting State.reset (.csrOtherWidth 0 8)).pending = .csrOtherWidth 0 8 :: [] :=
  ⟨waiting_invariant reset_invariant _, rfl⟩

/-! ### Encoding -/

theorem witness_DecodeOfEncode : decode 0x03002080 = .instr (.bdReadUint 128 32) := by decide

theorem witness_AssemblyGivesCommandWord :
    (Instr.bdReadUint 255 32).wf = true ∧ (Instr.mcPredict .last).wf = true ∧ (Instr.mcPredictSplit .altref).wf = true := by
  decide

/-! ### The command step and the faults -/

theorem witness_StepRunsDecodedCommand :
    (waiting s4 (.cmd 0x02000080)).pending = .cmd 0x02000080 :: []
      ∧ (waiting s4 (.cmd 0x02000080)).cause = none ∧ decode 0x02000080 = .instr (.bdReadBit 128) :=
  ⟨rfl, by decide +kernel, by decide⟩

theorem witness_IllegalWordRaises :
    ((waiting State.reset (.cmd 0xFF000000)).pending = .cmd 0xFF000000 :: [] ∧ State.reset.cause = none
      ∧ decode 0xFF000000 = .illegalOpcode)
    ∧ (waiting State.reset (.cmd 0x00000001)).pending = .cmd 0x00000001 :: [] ∧ decode 0x00000001 = .illegalOperand :=
  ⟨⟨rfl, rfl, by decide⟩, rfl, by decide⟩

theorem witness_BadOperandValueRaises :
    (Instr.bdReadUint 0 33).wf = false ∧ (Instr.mcPredict .intra).wf = false ∧ (Instr.mcPredictSplit .intra).wf = false := by
  decide

theorem witness_ReadBeforeInitRaises :
    readsStream (.bdReadUint 128 32) = true ∧ (Instr.bdReadUint 128 32).wf = true ∧ State.reset.bdReady = false := by decide

theorem witness_HaltedCommandDropped :
    Halted (waiting sHalted (.cmd 0x01000000)) ∧ (waiting sHalted (.cmd 0x01000000)).pending = .cmd 0x01000000 :: [] :=
  ⟨by decide +kernel, rfl⟩

theorem witness_StatusWriteClearsFault :
    (Halted (waiting sHalted (.csrWrite 0 1)) ∧ (waiting sHalted (.csrWrite 0 1)).pending = .csrWrite 0 1 :: []
      ∧ (1 : Word).getLsbD 0 = true)
    ∧ ((waiting sHalted (.csrWrite 0 0xFFFFFFFE)).pending = .csrWrite 0 0xFFFFFFFE :: []
      ∧ (0xFFFFFFFE : Word).getLsbD 0 = false)
    ∧ (waiting sHalted .reset).pending = .reset :: [] :=
  ⟨⟨by decide +kernel, rfl, by decide⟩, ⟨rfl, by decide⟩, rfl⟩

theorem witness_FaultPersistsUntilCleared :
    (waiting sHalted (.cmd 0x01000000)).cause = some .illegalOpcode
      ∧ ∃ t, step (waiting sHalted (.cmd 0x01000000)) = .next t ∧ t.cause = some .illegalOpcode :=
  ⟨by decide +kernel, _, eq_landing (by decide +kernel), by decide +kernel⟩

theorem witness_FaultingCommandEffects :
    (sCut.cause = none ∧ ∃ t, exec .mvpUpdate sCut = .next t ∧ t.cause = some .truncated)
    ∧ (State.reset.cause = none ∧ ∃ t, exec .mvRead State.reset = .next t ∧ t.cause = some .bdNotReady)
    ∧ ∃ t, exec .bdInit (withStream [0xFF, 0x00]) = .next t ∧ t.cause = some .badStream :=
  ⟨⟨by decide +kernel, _, eq_landing (by decide +kernel), by decide +kernel⟩,
    ⟨rfl, _, eq_landing (by decide +kernel), by decide +kernel⟩, _, eq_landing (by decide +kernel), by decide +kernel⟩

theorem witness_CausesRaisedByTheirCommands :
    (sEnd.cause = none ∧ ∃ t, exec (.bdReadBit 128) sEnd = .next t ∧ t.cause = some .truncated)
    ∧ (withStream [0xFF, 0x00]).cause = none
    ∧ (∃ t, exec .bdInit (withStream [0xFF, 0x00]) = .next t ∧ t.cause = some .badStream)
    ∧ (∃ t, exec .mvRead State.reset = .next t ∧ t.cause = some .bdNotReady)
    ∧ tinyBad.cause = none ∧ ∃ t, exec (.mcPredict .last) tinyBad = .next t ∧ t.cause = some .badRefDesc :=
  ⟨⟨by decide +kernel, _, eq_landing (by decide +kernel), by decide +kernel⟩, rfl,
    ⟨_, eq_landing (by decide +kernel), by decide +kernel⟩, ⟨_, eq_landing (by decide +kernel), by decide +kernel⟩,
    rfl, _, eq_landing (by decide +kernel), by decide +kernel⟩

/-! ### Frames of all commands -/

theorem witness_CommandsKeepHostRegisters : ∃ t, exec (.bdReadUint 128 7) s4 = .next t ∧ t.result = 0x5A :=
  ⟨_, eq_landing (by decide +kernel), by decide +kernel⟩

theorem witness_RegisterWriters :
    (∃ t, exec .mvpUpdate s4 = .next t ∧ returnsValue .mvpUpdate = false ∧ mcTag .mvpUpdate = none ∧ t.bdReady = true)
    ∧ (∃ t, exec (.bdReadBit 128) s4 = .next t ∧ Instr.bdReadBit 128 ≠ .mvpUpdate ∧ Instr.bdReadBit 128 ≠ .mvpLoadDefault
      ∧ Instr.bdReadBit 128 ≠ .bdInit ∧ t.bdReady = true)
    ∧ ∃ t, exec .nop s4 = .next t ∧ Instr.nop ≠ .bdInit ∧ readsStream .nop = false ∧ s4.cause = none ∧ t.cause = none :=
  ⟨⟨_, eq_landing (by decide +kernel), by decide, by decide, by decide +kernel⟩,
    ⟨_, eq_landing (by decide +kernel), by decide, by decide, by decide, by decide +kernel⟩,
    ⟨_, eq_landing (by decide +kernel), by decide, by decide, by decide +kernel, by decide +kernel⟩⟩

theorem witness_WorkspaceFrame :
    (∃ t, exec (.mcPredict .golden) withTiny = .next t ∧ inRegions 0 = false)
      ∧ ∃ t, exec (.bdReadBit 128) s4 = .next t ∧ mcTag (.bdReadBit 128) = none :=
  ⟨⟨_, eq_landing (by decide +kernel), by decide⟩, _, eq_landing (by decide +kernel), rfl⟩

/-! ### NOP and the Boolean decoder -/

theorem witness_NopChangesNothing : (0x00000001 : Word).toNat / 2 ^ 24 = 0 ∧ (0x00000001 : Word).toNat ≠ 0 := by decide

theorem witness_BdInitBindsBuffer :
    let s := withStream [0xB5, 0x8C]
    let z := { withStream [0xB5] with config := { defaultConfig with bdTail := .zeroFill } }
    (s.bdSrcBase.toNat + s.bdSrcLen.toNat < 2 ^ 32 ∧ (2 ≤ s.bdSrcLen.toNat ∨ s.config.bdTail = .zeroFill) ∧ bufferByte s 0 ≠ 0xFF)
      ∧ z.bdSrcBase.toNat + z.bdSrcLen.toNat < 2 ^ 32 ∧ (2 ≤ z.bdSrcLen.toNat ∨ z.config.bdTail = .zeroFill)
      ∧ bufferByte z 0 ≠ 0xFF := by decide +kernel

theorem witness_BdInitFaults :
    2 ^ 32 ≤ ({ State.reset with bdSrcBase := 0xFFFFFFF0, bdSrcLen := 16 } : State).bdSrcBase.toNat
        + ({ State.reset with bdSrcBase := 0xFFFFFFF0, bdSrcLen := 16 } : State).bdSrcLen.toNat
    ∧ ((withStream [0xB5]).bdSrcBase.toNat + (withStream [0xB5]).bdSrcLen.toNat < 2 ^ 32
      ∧ (withStream [0xB5]).bdSrcLen.toNat < 2 ∧ (withStream [0xB5]).config.bdTail = .fault)
    ∧ (withStream [0xFF, 0x00]).bdSrcBase.toNat + (withStream [0xFF, 0x00]).bdSrcLen.toNat < 2 ^ 32
    ∧ 2 ≤ (withStream [0xFF, 0x00]).bdSrcLen.toNat ∧ bufferByte (withStream [0xFF, 0x00]) 0 = 0xFF := by decide +kernel

/-- The four clauses: no fetch; a fetch inside the buffer; at its end, zero-filled and TRUNCATED. -/
theorem witness_ReadBitDecodesOneBool :
    (s4.bdReady = true ∧ s4.bd.Bound ∧ s4.bd.count.toNat = 0)
    ∧ (let s := runWords [0x03000780] s4
      s.bdReady = true ∧ s.bd.Bound ∧ s.bd.count.toNat = 7 ∧ s.bd.pos.toNat < s.bd.endAddr.toNat
        ∧ (runWords [0x02000080] s).bd.pos = s.bd.pos + 1)
    ∧ (sEndZero.bdReady = true ∧ sEndZero.bd.Bound ∧ sEndZero.bd.endAddr.toNat ≤ sEndZero.bd.pos.toNat
      ∧ sEndZero.bd.count.toNat = 7 ∧ sEndZero.config.bdTail = .zeroFill)
    ∧ (sEnd.bdReady = true ∧ sEnd.bd.Bound ∧ sEnd.bd.endAddr.toNat ≤ sEnd.bd.pos.toNat ∧ sEnd.config.bdTail = .fault
      ∧ (runWords [0x02000080] sEnd).cause = some .truncated) := by decide +kernel

theorem witness_SplitIsAlwaysValid : 128 ≤ 128 ∧ 128 ≤ 255 ∧ 255 ≤ 255 := by decide

/-- k = 0, and the greatest literal, k = 31. -/
theorem witness_ReadUintIsReadBits :
    sZero.bdReady = true ∧ sZero.bd.Bound
    ∧ (∃ t u, exec (.bdReadBit 128) sZero = .next t ∧ t.bdReady = true
      ∧ exec (.bdReadUint 128 (BitVec.ofNat 6 0)) t = .next u ∧ u.bdReady = true)
    ∧ ∃ t u, exec (.bdReadBit 128) sZero = .next t ∧ t.bdReady = true
      ∧ exec (.bdReadUint 128 (BitVec.ofNat 6 31)) t = .next u ∧ u.bdReady = true :=
  ⟨by decide +kernel, by decide +kernel,
    ⟨_, _, eq_landing (by decide +kernel), by decide +kernel, eq_landing (by decide +kernel), by decide +kernel⟩,
    ⟨_, _, eq_landing (by decide +kernel), by decide +kernel, eq_landing (by decide +kernel), by decide +kernel⟩⟩

theorem witness_ReadUintCompletes :
    (sZero.bdReady = true ∧ sZero.bd.Bound ∧ (32 : BitVec 6).toNat ≤ 32 ∧ CanFetch sZero sZero.bd.toBd (32 : BitVec 6).toNat)
      ∧ s4.bdReady = true ∧ s4.bd.Bound ∧ (2 : BitVec 6).toNat ≤ 32 ∧ CanFetch s4 s4.bd.toBd (2 : BitVec 6).toNat := by
  decide +kernel

/-- MEM changed below BD_POS and from BD_END on. -/
theorem witness_ReadsSeeOnlyBufferAhead :
    readsStream (.bdReadBit 128) = true
      ∧ (∀ a, s4.bd.pos.toNat ≤ a → a < s4.bd.endAddr.toNat →
        (s4.withMem (memAt 0x1000 [0, 0, 0x10, 0x00, 0x77])).memByte a = s4.memByte a) := by
  have hp : s4.bd.pos.toNat = 0x1002 := by decide +kernel
  have he : s4.bd.endAddr.toNat = 0x1004 := by decide +kernel
  refine ⟨rfl, fun a h1 h2 => ?_⟩
  rcases (by omega : a = 0x1002 ∨ a = 0x1003) with rfl | rfl <;> decide +kernel

/-! ### The MV-component decoder -/

theorem witness_MvpLoadDefaultLoadsTable :
    (∃ t, exec .mvpLoadDefault (withStream []) = .next t)
      ∧ (0x10000001 : Word).toNat / 2 ^ 24 = 0x10 ∧ (0x10000001 : Word).toNat % 2 ^ 24 ≠ 0 :=
  ⟨⟨_, rfl⟩, by decide, by decide⟩

theorem witness_MvpUpdateCompletes : sZero.bdReady = true ∧ sZero.bd.Bound ∧ CanFetch sZero sZero.bd.toBd 304 := by
  decide +kernel

theorem witness_MvpUpdateIsEntryCommands :
    let s := bound [0xEC, 0x22, 0xB2, 0x8F, 0xFC, 0x00]
    s.bdReady = true ∧ s.bd.Bound ∧ (updateByCommands mvpEntries s).isSome = true := by decide +kernel

theorem witness_TruncatedUpdateKeepsPrefix :
    sCut.bdReady = true ∧ sCut.bd.Bound ∧ sCut.cause = none
      ∧ ∃ t, exec .mvpUpdate sCut = .next t ∧ t.cause = some .truncated :=
  ⟨by decide +kernel, by decide +kernel, by decide +kernel, _, eq_landing (by decide +kernel), by decide +kernel⟩

theorem witness_MvReadComponentReturnsComponent :
    sZero.bdReady = true ∧ sZero.bd.Bound ∧ CanFetch sZero sZero.bd.toBd 12 := by decide +kernel

theorem witness_MvReadIsTwoComponents :
    let s := bound [0xA2, 0x16, 0x56, 0xD8]
    s.bdReady = true ∧ s.bd.Bound
      ∧ ∃ t u, exec (.mvReadComponent .y) s = .next t ∧ t.bdReady = true ∧ exec (.mvReadComponent .x) t = .next u
        ∧ u.bdReady = true :=
  ⟨by decide +kernel, by decide +kernel, _, _, eq_landing (by decide +kernel), by decide +kernel,
    eq_landing (by decide +kernel), by decide +kernel⟩

theorem witness_MvReadFieldsAreExact :
    sZero.bdReady = true ∧ sZero.bd.Bound ∧ CanFetch sZero sZero.bd.toBd 24 ∧ sZero.config.mvScale = .four := by
  decide +kernel

/-! ### Motion compensation -/

theorem witness_MissingReferenceFills :
    mcTag (.mcPredictSplit .golden) = some .golden ∧ frameOf .golden = some .golden
      ∧ (withTiny.refs.get .golden).valid = false := by decide

theorem witness_BadDescriptorRaises :
    mcTag (.mcPredict .last) = some .last ∧ frameOf .last = some .last ∧ (tinyBad.refs.get .last).valid = true
      ∧ (tinyBad.refs.get .last).wellFormed tinyBad.config.chromaEdge = false := by decide

theorem witness_McPredictWritesPrediction :
    frameOf .last = some .last ∧ (tinyMv.refs.get .last).valid = true
      ∧ (tinyMv.refs.get .last).wellFormed tinyMv.config.chromaEdge = true := by decide +kernel

theorem witness_McSplitWritesPrediction :
    frameOf .last = some .last ∧ (withRows.refs.get .last).valid = true
      ∧ (withRows.refs.get .last).wellFormed withRows.config.chromaEdge = true := by decide +kernel

theorem witness_SplitChromaMvIsRoundedMean : (1 : Nat) < 2 ∧ (0 : Nat) < 2 := by decide

theorem witness_PhaseZeroIsIdentity : (0 : Nat) < 6 ∧ (5 : Nat) < 6 := by decide

/-- MBMV = (x 8, y 4): luma fractions 0; the chroma phase in y is 4, copied under LUMA_GATED; with y 8 both are 0. -/
theorem witness_IntegerMvCopies :
    frameOf .last = some .last ∧ (tinyMv.refs.get .last).valid = true
      ∧ (tinyMv.refs.get .last).wellFormed tinyMv.config.chromaEdge = true ∧ mvX tinyMv.mbmv % 4 = 0 ∧ mvY tinyMv.mbmv % 4 = 0
      ∧ mvY tinyMv.mbmv % 8 = 4 ∧ mvX 0x00080008 % 8 = 0 ∧ mvY 0x00080008 % 8 = 0 := by decide +kernel

theorem witness_EqualSplitMvsArePredict :
    frameOf .last = some .last ∧ (tinyMv.refs.get .last).valid = true
      ∧ (tinyMv.refs.get .last).wellFormed tinyMv.config.chromaEdge = true ∧ tinyMv.config.chromaFastpath = .exact
      ∧ ∀ b : Fin 16, tinyMv.submv[b] = tinyMv.mbmv := by decide +kernel

/-- The second clause under RFC_TWO_PASS, at the greatest filter index. -/
theorem witness_RoundingsAgreeOnOneAxis :
    (withRows.config.tempWrap16 = false ∧ 7 < 8)
      ∧ 6 ∈ [0, 2, 4, 6] ∧ ({ withRows.config with lumaRounding := .rfcTwoPass } : Config).lumaRounding = .rfcTwoPass := by decide

theorem witness_LumaIntermediateBounds :
    withRows.config.lumaRounding = .doc ∧ (0 : Nat) ∈ [0, 2, 4, 6] ∧ (6 : Nat) ∈ [0, 2, 4, 6] ∧ (2 : Nat) ∈ [2, 4, 6] := by decide

theorem witness_BilinearStaysInByteRange : (0 : Int) ≤ 7 ∧ (7 : Int) ≤ 7 ∧ (0 : Int) ≤ 0 ∧ (0 : Int) ≤ 7 := by decide

theorem witness_SamplesStayInsidePlanes : tinyDesc.wellFormed .ceilHalf = true := by decide

/-- MEM changed outside the three planes. -/
theorem witness_McSeesOnlyItsPlanes :
    mcTag (.mcPredict .last) = some .last
      ∧ (∀ f, frameOf .last = some f → ∀ a, inPlanes tinyMv.config.chromaEdge (tinyMv.refs.get f) a →
        (tinyMv.withMem [(0x10, 77), (0x11, 5), (0x20, 88), (0x30, 99)]).memByte a = tinyMv.memByte a)
      ∧ ∃ t, exec (.mcPredict .last) tinyMv = .next t := by
  refine ⟨rfl, fun f hf a ha => ?_, _, eq_landing (by decide +kernel)⟩
  simp only [frameOf, Option.some.injEq] at hf
  subst hf
  have key : a = 0x10 ∨ a = 0x20 ∨ a = 0x30 := by
    have h1 : tinyMv.refs.get .last = tinyDesc := rfl
    have h2 : tinyMv.config.chromaEdge = .ceilHalf := rfl
    rw [h1, h2] at ha
    simp only [inPlanes, lastByte, tinyDesc, RefDesc.lumaW, RefDesc.lumaH, RefDesc.chromaW, RefDesc.chromaH, halfSize] at ha
    simp at ha
    omega
  rcases key with rfl | rfl | rfl <;> decide +kernel

theorem witness_EngineNeverReadsWorkspace :
    ∃ t, exec (.mcPredict .golden) withTiny = .next t ∧ (mcTag (.mcPredict .golden)).isSome = true ∧ withTiny.cause = none
      ∧ t.cause = none ∧ inRegions 40 = true :=
  ⟨_, eq_landing (by decide +kernel), by decide, rfl, by decide +kernel, by decide⟩

/-! ### The host's ports -/

theorem witness_CsrMapIsTable1 : csrAt 0x77 = none ∧ csrAt 0x78 = none ∧ csrAt 0x33 = none ∧ csrAt 0x5F = none := by decide

theorem witness_CsrWriteFrame :
    Csr.missref ≠ Csr.mbPos ∧ csrAt 0x06 = none ∧ csrAt 0x76 = some (.ref .altref .cStride)
      ∧ (waiting sHalted (.csrWrite 0x76 5)).pending = .csrWrite 0x76 5 :: [] := ⟨by decide, by decide, by decide, rfl⟩

theorem witness_HostReadsHaveNoEffect :
    (waiting sHalted (.csrRead 0)).pending = .csrRead 0 :: []
      ∧ (waiting sHalted (.wsRead 25 31)).pending = .wsRead 25 31 :: []
      ∧ (waiting s4 (.memRead 0x1000)).pending = .memRead 0x1000 :: [] := ⟨rfl, rfl, rfl⟩

theorem witness_HostWritesOneByte :
    (waiting sHalted (.wsWrite 25 31 0x1FF)).pending = .wsWrite 25 31 0x1FF :: []
      ∧ (waiting s4 (.memWrite 0xFFFFFFFF 7)).pending = .memWrite 0xFFFFFFFF 7 :: [] := ⟨rfl, rfl⟩

end Sys2Proof.Tests
end

section
/-! Which commands write which registers and which bytes of WS (spec/10_state.md R23 to R26, R38, R45). -/

namespace Sys2Proof.Machine

/-! ### The registers (R23 to R26, R38) -/

/-- A command that goes on has one of the outcomes of `exec_effect`. -/
theorem Effect.of_exec {i : Instr} {s t : State} (h : exec i s = .next t) : Effect i s (.next t) := h ▸ exec_effect i s

/-- RESULT is written by the commands that return a value (R25). -/
theorem exec_result {i : Instr} {s t : State} (h : exec i s = .next t) (hi : returnsValue i = false) :
    t.result = s.result := by
  cases Effect.of_exec h with
  | read v b hv => exact absurd hv (by simp [hi])
  | _ => simp

/-- MISSREF is written by the MC commands (R26). -/
theorem exec_missref {i : Instr} {s t : State} (h : exec i s = .next t) (hi : mcTag i = none) :
    t.missref = s.missref := by
  cases Effect.of_exec h with
  | filled ref hr => exact absurd hr (by simp [hi])
  | _ => simp

/-- The MVP file is written by MVP_UPDATE and MVP_LOAD_DEFAULT (R38). -/
theorem exec_mvp {i : Instr} {s t : State} (h : exec i s = .next t) (hu : i ≠ .mvpUpdate) (hd : i ≠ .mvpLoadDefault) :
    t.mvp = s.mvp := by
  cases Effect.of_exec h with
  | truncated f _ _ hf => simpa using hf hu
  | defaults hi => exact absurd hi hd
  | updated f b hi => exact absurd hi hu
  | _ => simp

/-- Only BD_INIT sets BD_READY (R23). -/
theorem exec_bdReady {i : Instr} {s t : State} (h : exec i s = .next t) (hi : i ≠ .bdInit) (ht : t.bdReady = true) :
    s.bdReady = true := by
  cases Effect.of_exec h with
  | bound b hb => exact absurd hb hi
  | badOperand | badBuffer | notReady | badDesc | badStream => exact (State.raise_bdReady _ _ _ ht).1
  | truncated f => exact (State.raise_bdReady _ _ _ ht).1
  | _ => simpa using ht

/-- The decoder's registers are left by every command that neither binds nor reads the stream. -/
theorem exec_bd {i : Instr} {s t : State} (h : exec i s = .next t) (hi : i ≠ .bdInit) (hr : readsStream i = false) :
    t.bd = s.bd ∧ t.bdReady = s.bdReady := by
  have hv : returnsValue i = false := by cases i <;> simp_all [readsStream, returnsValue]
  cases Effect.of_exec h with
  | badOperand | badDesc => simp [State.raise_plain]
  | nop | defaults | filled | predicted => simp
  | badBuffer hb | badStream hb | bound _ hb => exact absurd hb hi
  | notReady hs => exact absurd hs (by simp [hr])
  | truncated f hs => simp [hi, hr] at hs
  | read v b hs => exact absurd hs (by simp [hv])
  | updated f b hs => exact absurd hr (by simp [hs, readsStream])

/-- FAULT_CMD is written by a fault alone (R24). -/
theorem exec_faultCmd {i : Instr} {s t : State} (h : exec i s = .next t) (ht : t.cause = none) :
    t.faultCmd = s.faultCmd := by
  cases Effect.of_exec h with
  | nop | bound | defaults | read | updated | filled | predicted => simp
  | _ => simp at ht

/-- Settles O21: one lemma per register, each from the outcomes of `exec_effect`. -/
theorem registerWriters : Obligations.RegisterWriters := by
  intro i s t h
  exact ⟨exec_result h, exec_missref h, exec_mvp h, exec_bdReady h, exec_bd h, fun _ => exec_faultCmd h⟩

/-! ### The workspace (R44, R45) -/

/-- WS after a command: the bytes it had, or one macroblock written by an MC command (R44, R45). -/
theorem exec_wsByte {i : Instr} {s t : State} (h : exec i s = .next t) :
    (∀ k, t.wsByte k = s.wsByte k) ∨
      ∃ ref cells luma chroma, mcTag i = some ref ∧ CellsOf cells luma chroma
        ∧ ∀ k, t.wsByte k = (s.writeWs cells).wsByte k := by
  cases Effect.of_exec h with
  | filled ref hr => exact .inr ⟨ref, _, _, _, hr, missingCells_spec, s.missingFill_wsByte⟩
  | predicted ref cells luma chroma hr hc => exact .inr ⟨ref, cells, luma, chroma, hr, hc, fun _ => rfl⟩
  | _ => exact .inl fun k => by simp [State.wsByte]

/-- Settles O22: the cells of a macroblock all lie in the regions. -/
theorem workspaceFrame : Obligations.WorkspaceFrame := by
  intro i s t h
  rcases exec_wsByte h with hk | ⟨ref, cells, luma, chroma, hr, hc, hk⟩
  · exact ⟨fun k _ => hk k, fun _ => hk⟩
  · exact ⟨fun k hout => (hk k).trans (hc.wsByte_other s k hout), fun hn => absurd hr (by simp [hn])⟩

end Sys2Proof.Machine
end

section
/-! Noninterference: what no command sees of MEM and of WS (spec/10_state.md R44, R46; spec/20_memory.md R72). -/

namespace Sys2Proof.Machine

/-! ### Outcomes of a command under its conditions (R88, R100, R102, R150, R155) -/

/-- An operand value that R88 refuses raises ILLEGAL_OPERAND before anything else (R214). -/
theorem exec_of_not_wf {i : Instr} (h : i.wf = false) (s : State) :
    exec i s = .next (s.raise .illegalOperand (encode i)) := by
  cases i with
  | bdReadUint prob n =>
    have hn : 32 < n.toNat := by simpa [Instr.wf] using h
    simp only [exec, execBdReadUint, hn, if_true]
  | mcPredict ref | mcPredictSplit ref =>
    obtain rfl : ref = .intra := by simpa [Instr.wf] using h
    rfl
  | _ => simp [Instr.wf] at h

/-- A read command before BD_INIT raises BD_NOT_READY (R100). -/
theorem exec_of_not_ready {i : Instr} (hi : readsStream i = true) (hw : i.wf = true) {s : State} (hr : s.bdReady = false) :
    exec i s = .next (s.raise .bdNotReady (encode i)) := by
  cases i with
  | bdReadBit | mvpUpdate | mvReadComponent | mvRead =>
    simp only [exec, execBdReadBit, execMvpUpdate, execMvReadComponent, execMvRead, bdCommand, hr, Bool.false_eq_true,
      if_false]
  | bdReadUint prob n =>
    have hn : n.toNat ≤ 32 := by simpa [Instr.wf] using hw
    simp only [exec, execBdReadUint, Nat.not_lt.2 hn, if_false, bdCommand, hr, Bool.false_eq_true]
  | _ => simp [readsStream] at hi

/-- BD_INIT on a buffer that runs past the address space (R102). -/
theorem exec_bdInit_outside {s : State} (h : 2 ^ 32 ≤ s.bdSrcBase.toNat + s.bdSrcLen.toNat) :
    exec .bdInit s = .next (s.raise .illegalOperand (encode .bdInit)) := if_pos h

/-- What BD_INIT answers from what its two fetches answered (R102). -/
def initOutcome (s : State) : Except BdStop Bd → Host.Outcome State Fault Refusal
  | .error .truncated => .next (s.raise .truncated (encode .bdInit))
  | .error .diverges => .fault .normaliseDiverges
  | .ok b => if 255 * 256 ≤ b.value then .next (s.raise .badStream (encode .bdInit))
    else .next { s with bd := b.toRegs, bdReady := true }

/-- BD_INIT on a buffer inside the address space. -/
theorem exec_bdInit_inside {s : State} (h : ¬ 2 ^ 32 ≤ s.bdSrcBase.toNat + s.bdSrcLen.toNat) :
    exec .bdInit s = initOutcome s (bindBuffer s s.bdSrcBase.toNat s.bdSrcLen.toNat) := by
  rw [exec, execBdInit, if_neg h]
  rcases bindBuffer s s.bdSrcBase.toNat s.bdSrcLen.toNat with (_ | _) | b <;> rfl

section
variable {i : Instr} {ref : RefTag} {f : FrameTag} {s : State} (h : mcTag i = some ref) (hf : frameOf ref = some f)
include h hf

/-- An MC command on a reference that is not VALID fills (R150). -/
theorem exec_mc_missing (hv : (s.refs.get f).valid = false) : exec i s = .next s.missingFill := by
  simp only [exec_mc h, mcCommand, hf, hv, Bool.false_eq_true, if_false]

/-- An MC command on a descriptor that is not well-formed (R155). -/
theorem exec_mc_badDesc (hv : (s.refs.get f).valid = true) (hw : (s.refs.get f).wellFormed s.config.chromaEdge = false) :
    exec i s = .next (s.raise .badRefDesc (encode i)) := by
  simp only [exec_mc h, mcCommand, hf, hv, hw, Bool.false_eq_true, if_true, if_false]

end

/-! ### Edits that the read commands do not see -/

/-- An edit of the state that leaves the registers the read commands use and commutes with every update they make. -/
structure Unseen (g : State → State) : Prop where
  config : ∀ s, (g s).config = s.config
  mvp : ∀ s, (g s).mvp = s.mvp
  bd : ∀ s, (g s).bd = s.bd
  bdReady : ∀ s, (g s).bdReady = s.bdReady
  raise : ∀ s c w, (g s).raise c w = g (s.raise c w)
  finishRead : ∀ s v b, (g s).finishRead v b = g (s.finishRead v b)
  setMvp : ∀ s f, { g s with mvp := f } = g { s with mvp := f }
  update : ∀ s f b, { g s with mvp := f, bd := b } = g { s with mvp := f, bd := b }

/-- Other contents of MEM are such an edit: what the reads see of MEM is `Ahead`'s to say. -/
theorem Unseen.withMem (m : Memory) : Unseen (State.withMem · m) where
  config _ := rfl
  mvp _ := rfl
  bd _ := rfl
  bdReady _ := rfl
  raise s c w := by cases c <;> rfl
  finishRead _ _ _ := rfl
  setMvp _ _ := rfl
  update _ _ _ := rfl

/-- Other contents of WS are such an edit. -/
theorem Unseen.withWs (m : Memory) : Unseen (State.withWs · m) where
  config _ := rfl
  mvp _ := rfl
  bd _ := rfl
  bdReady _ := rfl
  raise s c w := by cases c <;> rfl
  finishRead _ _ _ := rfl
  setMvp _ _ := rfl
  update _ _ _ := rfl

/-- The outcome with its next state edited. -/
def onNext (g : State → State) : Host.Outcome State Fault Refusal → Host.Outcome State Fault Refusal
  | .next t => .next (g t)
  | .fault r => .fault r
  | .refused r => .refused r

section
variable {g : State → State} (hg : Unseen g)
include hg

/-- The outcome of a command that returns a value, after an unseen edit. -/
theorem Unseen.readOutcome {α : Type} (i : Instr) (s : State) (v : α → Word) (o : Except BdStop (α × Bd)) :
    readOutcome i (g s) v o = onNext g (readOutcome i s v o) := by
  rcases o with (_ | _) | r
  · exact congrArg _ (hg.raise s _ _)
  · rfl
  · exact congrArg _ (hg.finishRead s _ _)

/-- The outcome of MVP_UPDATE, after an unseen edit. -/
theorem Unseen.updateOutcome (s : State) (o : MvpFile × Except BdStop Bd) :
    updateOutcome (g s) o = onNext g (updateOutcome s o) := by
  rcases o with ⟨f, (_ | _) | b⟩
  · simp only [Machine.updateOutcome, onNext, hg.setMvp, hg.raise]
  · rfl
  · exact congrArg _ (hg.update s f b.toRegs)

/-- A read command does the same after an edit that keeps the bytes ahead of the decoder, and its next state is edited alike
(R46, R72). -/
theorem Unseen.exec_read {i : Instr} (hi : readsStream i = true) {s : State} (ha : Ahead s (g s) s.bd.toBd) :
    exec i (g s) = onNext g (exec i s) := by
  by_cases hw : i.wf = true
  case neg =>
    rw [exec_of_not_wf (by simpa using hw), exec_of_not_wf (by simpa using hw), hg.raise]
    rfl
  cases hr : s.bdReady with
  | false =>
    rw [exec_of_not_ready hi hw hr, exec_of_not_ready hi hw ((hg.bdReady s).trans hr), hg.raise]
    rfl
  | true =>
    have hr' : (g s).bdReady = true := (hg.bdReady s).trans hr
    cases i with
    | bdReadBit prob =>
      rw [exec_bdReadBit prob s hr, exec_bdReadBit prob _ hr', hg.bd, (Agree.readBit s (g s) prob).eq ha, hg.readOutcome]
    | bdReadUint prob n =>
      have hn : n.toNat ≤ 32 := by simpa [Instr.wf] using hw
      rw [exec_bdReadUint prob n s hn hr, exec_bdReadUint prob n _ hn hr', hg.bd, (Agree.readUint s (g s) prob _).eq ha,
        hg.readOutcome]
    | mvReadComponent comp =>
      rw [exec_mvReadComponent comp s hr, exec_mvReadComponent comp _ hr', hg.bd, (Agree.readComponent s (g s) comp).eq ha,
        hg.readOutcome]
    | mvRead =>
      have hc := ((Agree.readComponent s (g s) .y).bind fun y =>
        (Agree.readComponent s (g s) .x).bind fun x => Agree.pure s (g s) (y, x)).eq ha
      rw [exec_mvRead s hr, exec_mvRead _ hr', hg.bd, hg.config, hc, hg.readOutcome]
    | mvpUpdate =>
      rw [exec_mvpUpdate s hr, exec_mvpUpdate _ hr', hg.bd, hg.mvp, updateEntries_ahead _ _ ha, hg.updateOutcome]
    | _ => simp [readsStream] at hi

end

/-! ### MEM outside the buffer ahead (R46, R72) -/

/-- Settles O30: replacing MEM outside [BD_POS, BD_END) is an unseen edit. -/
theorem readsSeeOnlyBufferAhead : Obligations.ReadsSeeOnlyBufferAhead := by
  intro i s m hi hm
  have h : exec i (s.withMem m) = onNext (State.withMem · m) (exec i s) :=
    (Unseen.withMem m).exec_read hi ⟨rfl, rfl, hm⟩
  exact ⟨fun t ht => by rw [h, ht]; rfl, fun r hr => by rw [h, hr]; rfl⟩

/-! ### Other contents of WS (R44) -/

@[simp] theorem State.withWs_refs (s : State) (m : Memory) : (s.withWs m).refs = s.refs := rfl
@[simp] theorem State.withWs_bdSrcBase (s : State) (m : Memory) : (s.withWs m).bdSrcBase = s.bdSrcBase := rfl
@[simp] theorem State.withWs_bdSrcLen (s : State) (m : Memory) : (s.withWs m).bdSrcLen = s.bdSrcLen := rfl

/-- BD_INIT's two fetches read no byte of WS. -/
theorem bindBuffer_withWs (s : State) (m : Memory) (base len : Nat) :
    bindBuffer (s.withWs m) base len = bindBuffer s base len := rfl

/-- BD_INIT with other contents of WS. -/
theorem exec_bdInit_withWs (s : State) (m : Memory) :
    exec .bdInit (s.withWs m) = onNext (State.withWs · m) (exec .bdInit s) := by
  by_cases h : 2 ^ 32 ≤ s.bdSrcBase.toNat + s.bdSrcLen.toNat
  · rw [exec_bdInit_outside h, exec_bdInit_outside (s := s.withWs m) h]
    rfl
  · rw [exec_bdInit_inside h, exec_bdInit_inside (s := s.withWs m) h]
    simp only [bindBuffer_withWs, State.withWs_bdSrcBase, State.withWs_bdSrcLen]
    rcases bindBuffer s s.bdSrcBase.toNat s.bdSrcLen.toNat with (_ | _) | b
    · rfl
    · rfl
    · simp only [initOutcome]
      split <;> rfl

/-- A command that is not an MC command leaves other contents of WS in place and does the same (R44). -/
theorem exec_withWs {i : Instr} (hi : mcTag i = none) (s : State) (m : Memory) :
    exec i (s.withWs m) = onNext (State.withWs · m) (exec i s) := by
  cases i with
  | nop | mvpLoadDefault => rfl
  | bdInit => exact exec_bdInit_withWs s m
  | mcPredict | mcPredictSplit => simp [mcTag] at hi
  | _ => exact (Unseen.withWs m).exec_read rfl (Ahead.of_mem (s := s) (t := s.withWs m) rfl rfl rfl _)

/-- A byte of the regions after a macroblock is written does not depend on the state written to. -/
theorem CellsOf.wsByte_region {cells : List Host.Cell} {luma : Nat → Nat → Byte} {chroma : Plane → Nat → Nat → Byte}
    (h : CellsOf cells luma chroma) (s t : State) {k : Nat} (hk : inRegions k = true) :
    (s.writeWs cells).wsByte k = (t.writeWs cells).wsByte k := by
  rcases (inRegions_iff k).1 hk with ⟨i, hi, j, hj, rfl⟩ | ⟨p, i, hi, j, hj, rfl⟩
  · rw [h.wsByte_luma s i j hi hj, h.wsByte_luma t i j hi hj]
  · rw [h.wsByte_chroma s p i j hi hj, h.wsByte_chroma t p i j hi hj]

/-- The fill of a missing reference with other contents of WS. -/
theorem State.missingFill_withWs (s : State) (m : Memory) :
    (s.withWs m).missingFill = s.missingFill.withWs (m.writeAll missingCells) := by
  simp only [State.missingFill_eq, State.withWs]

/-- An MC command with other contents of WS: the same outcome, and the same bytes in the regions where it completes. -/
theorem exec_mc_withWs {i : Instr} {ref : RefTag} (h : mcTag i = some ref) {s t : State} (ht : exec i s = .next t)
    (m : Memory) :
    ∃ m', exec i (s.withWs m) = .next (t.withWs m')
      ∧ (t.cause = none → ∀ k, inRegions k = true → (t.withWs m').wsByte k = t.wsByte k) := by
  have hg := Unseen.withWs m
  rcases exec_mc_cases h s with ⟨rfl, he⟩ | ⟨f, hf, ⟨hv, he⟩ | ⟨hv, hw, he⟩ | ⟨hv, hw, he⟩⟩ <;>
    obtain rfl : _ = t := Host.Outcome.next.inj (he.symm.trans ht)
  · refine ⟨m, ?_, fun hc => by simp at hc⟩
    rw [exec_mc h]
    exact congrArg Host.Outcome.next (hg.raise s _ _)
  · have hfill := s.missingFill_withWs m
    refine ⟨m.writeAll missingCells, (exec_mc_missing (s := s.withWs m) h hf hv).trans (congrArg _ hfill), fun _ k hk => ?_⟩
    rw [← hfill, State.missingFill_wsByte, State.missingFill_wsByte]
    exact missingCells_spec.wsByte_region _ _ hk
  · refine ⟨m, ?_, fun hc => by simp at hc⟩
    rw [exec_mc_badDesc (s := s.withWs m) h hf hv hw]
    exact congrArg Host.Outcome.next (hg.raise s _ _)
  · obtain ⟨luma, chroma, hcells⟩ := mcCells_spec h s (s.refs.get f)
    have hsame : mcCells i (s.withWs m) (s.refs.get f) = mcCells i s (s.refs.get f) :=
      mcCells_congr i rfl rfl rfl rfl (fun _ _ => rfl) fun _ _ _ => rfl
    refine ⟨m.writeAll (mcCells i s (s.refs.get f)), ?_, fun _ k hk => hcells.wsByte_region (s.withWs m) s hk⟩
    rw [exec_mc_ok (s := s.withWs m) h hf hv hw, State.withWs_refs, hsame]
    rfl

/-- Settles O54: the MC commands write the same cells, every other command leaves WS in place. -/
theorem engineNeverReadsWorkspace : Obligations.EngineNeverReadsWorkspace := by
  intro i s t m ht
  cases h : mcTag i with
  | none => exact ⟨m, by rw [exec_withWs h, ht]; rfl, fun hi => by simp at hi⟩
  | some ref =>
    obtain ⟨m', he, hk⟩ := exec_mc_withWs h ht m
    exact ⟨m', he, fun _ _ hc k hr _ => hk hc k hr⟩

end Sys2Proof.Machine
end

section
/-! The CSR space: the map, the STATUS word, and what a register reads after a host write (spec/10_state.md R22 to R42). -/

namespace Sys2Proof.Machine

/-! ### The CSR map (Table 1) -/

/-- The register at an address has that address. -/
theorem Csr.addr_of_csrAt : ∀ addr : Byte, ∀ r ∈ csrAt addr, r.addr = addr.toNat := by decide +kernel

/-- The register at a register's address is that register. -/
theorem csrAt_addr (r : Csr) : csrAt (BitVec.ofNat 8 r.addr) = some r := by
  cases r with
  | submv b => revert b; decide
  | mvp c j => cases c <;> revert j <;> decide
  | ref t f => cases t <;> cases f <;> decide
  | _ => decide

theorem csrAt_eq_some_iff (addr : Byte) (r : Csr) : csrAt addr = some r ↔ r.addr = addr.toNat := by
  refine ⟨fun h => Csr.addr_of_csrAt addr r h, fun h => ?_⟩
  have := csrAt_addr r
  rwa [h, BitVec.ofNat_toNat, BitVec.setWidth_eq] at this

theorem csrAt_eq_none_iff : ∀ addr : Byte,
    csrAt addr = none ↔
      addr.toNat ∈ [0x06, 0x07, 0x0F, 0x67, 0x6F, 0x77]
        ∨ (0x33 ≤ addr.toNat ∧ addr.toNat ≤ 0x3F) ∨ (0x53 ≤ addr.toNat ∧ addr.toNat ≤ 0x5F) ∨ 0x78 ≤ addr.toNat := by
  decide +kernel

/-- Settles O55: the map and the addresses are inverse to each other, and the reserved addresses are listed. -/
theorem csrMapIsTable1 : Obligations.CsrMapIsTable1 :=
  fun addr => ⟨csrAt_eq_some_iff addr, csrAt_eq_none_iff addr⟩

/-! ### STATUS (R23, R201) -/

/-- A STATUS word from its fields (R23). -/
def statusBits (cause : BitVec 4) (ready fault : Bool) : Word :=
  0#24 ++ cause ++ 0#2 ++ BitVec.ofBool ready ++ BitVec.ofBool fault

theorem State.statusWord_eq (s : State) : s.statusWord = statusBits s.causeField s.bdReady s.faultBit := rfl

/-- The fields of a STATUS word, and its reserved bits. -/
theorem statusBits_fields : ∀ (cause : BitVec 4) (ready fault : Bool),
    (statusBits cause ready fault).getLsbD 0 = fault ∧ (statusBits cause ready fault).getLsbD 1 = ready
      ∧ statusBits cause ready fault &&& 0xFFFFFF0C = 0 ∧ (statusBits cause ready fault).toNat / 16 = cause.toNat := by
  decide

/-- The mask of BD_READY keeps it and drops FAULT and CAUSE. -/
theorem statusBits_and_two : ∀ (cause : BitVec 4) (ready fault : Bool),
    statusBits cause ready fault &&& 2 = statusBits 0 ready false := by decide

/-- No cause has code 0 (R201). -/
theorem State.causeField_eq_zero_iff (s : State) : s.causeField.toNat = 0 ↔ s.cause.isSome = false := by
  unfold State.causeField
  cases s.cause with
  | none => decide
  | some c => cases c <;> decide

/-- Settles O60: the layout holds for any fields, and CAUSE holds the code of the cause. -/
theorem statusWordLayout : Obligations.StatusWordLayout := by
  intro s
  obtain ⟨hfault, hready, hreserved, hcause⟩ := statusBits_fields s.causeField s.bdReady s.faultBit
  rw [← State.statusWord_eq] at hfault hready hreserved hcause
  refine ⟨hfault, hready, hreserved, ?_, ?_, hfault.symm⟩
  · rw [hcause, State.causeField]
    cases s.cause with
    | none => rfl
    | some c => cases c <;> rfl
  · rw [hcause, hfault]
    exact s.causeField_eq_zero_iff

/-- The fault clear leaves BD_READY alone in STATUS (R212). -/
theorem State.clearFault_statusWord (s : State) : s.clearFault.statusWord = s.statusWord &&& 2 :=
  (statusBits_and_two s.causeField s.bdReady s.faultBit).symm

/-! ### A register read back after a write of it (R22 to R42) -/

/-- The low bits of a word, as a field and as a mask. -/
theorem setWidth_extractLsb'_eq_and (v : Word) {k : Nat} (hk : k ≤ 32) :
    (v.extractLsb' 0 k).setWidth 32 = v &&& BitVec.ofNat 32 (2 ^ k - 1) := by
  apply BitVec.eq_of_toNat_eq
  have h1 : 2 ^ k ≤ 2 ^ 32 := Nat.pow_le_pow_right (by decide) hk
  have h2 : (2 ^ k - 1) % 2 ^ 32 = 2 ^ k - 1 := Nat.mod_eq_of_lt (by have := Nat.two_pow_pos k; omega)
  have h3 : v.toNat % 2 ^ k % 2 ^ 32 = v.toNat % 2 ^ k := Nat.mod_eq_of_lt ((Nat.mod_lt _ (Nat.two_pow_pos k)).trans_le h1)
  rw [BitVec.toNat_and, BitVec.toNat_ofNat, h2, Nat.and_two_pow_sub_one_eq_mod, BitVec.toNat_setWidth,
    BitVec.extractLsb'_toNat, Nat.shiftRight_zero, h3]

/-- What an MVP entry stores, `max(v[7:0], 1)` (R38). -/
theorem mvpStored_setWidth (v : Word) : (mvpStored v).setWidth 32 = if v &&& 0xFF = 0 then 1 else v &&& 0xFF := by
  have h : v &&& 0xFF = (v.extractLsb' 0 8).setWidth 32 :=
    (setWidth_extractLsb'_eq_and v (k := 8) (by decide)).symm
  have hz : ∀ b : Byte, b.setWidth 32 = 0 ↔ b = 0 := by decide
  simp only [h, hz, mvpStored]
  split <;> rfl

/-- A descriptor field reads the word written; REF_CTRL its bit 0 (R39 to R42). -/
theorem RefDesc.readField_writeField_same (d : RefDesc) (f : RefField) (v : Word) :
    (d.writeField f v).readField f = if f = .ctrl then v &&& 1 else v := by
  cases f with
  | ctrl =>
    have : BitVec.ofBool (v.getLsbD 0) = v.extractLsb' 0 1 := by
      ext i hi
      obtain rfl : i = 0 := by omega
      simp
    exact (congrArg _ this).trans (setWidth_extractLsb'_eq_and v (by decide))
  | size => exact packPair_halves v
  | _ => rfl

/-- Settles O56, register by register; the read-only ones and the full words read back by computation. -/
theorem csrReadsBackWrite : Obligations.CsrReadsBackWrite := by
  intro s r v
  cases r with
  | status =>
    simp only [State.writeCsr, State.writeStatus]
    split
    · exact s.clearFault_statusWord
    · rfl
  | bdSrcLen => exact setWidth_extractLsb'_eq_and v (by decide)
  | submv b => simp [State.writeCsr, State.readCsr, Vector.get_eq_getElem]
  | mvp c j => simp only [State.writeCsr, State.readCsr, MvpFile.get_set, and_self, if_true, mvpStored_setWidth]
  | ref t f =>
    have h := (s.refs.get t).readField_writeField_same f v
    simp only [State.writeCsr, State.readCsr, RefFile.get_set, if_true, h]
    cases f <;> rfl
  | _ => rfl

/-! ### A register read after a write of another (R22 to R42) -/

/-- The fault clear shows in STATUS alone. -/
theorem State.readCsr_clearFault (s : State) {r : Csr} (h : r ≠ .status) : s.clearFault.readCsr r = s.readCsr r := by
  cases r with
  | status => exact absurd rfl h
  | _ => rfl

/-- A write of a register leaves every other one: within a file of registers the index or the field differs. -/
theorem State.readCsr_writeCsr_other (s : State) {r r' : Csr} (v : Word) (h : r ≠ r') :
    (s.writeCsr r v).readCsr r' = s.readCsr r' := by
  cases r with
  | status =>
    simp only [State.writeCsr, State.writeStatus]
    split
    · exact s.readCsr_clearFault h.symm
    · rfl
  | submv b =>
    cases r' with
    | submv b' =>
      have : b.val ≠ b'.val := by simpa [Fin.ext_iff] using h
      simp [State.writeCsr, State.readCsr, Vector.get_eq_getElem, this]
    | _ => rfl
  | mvp c j =>
    cases r' with
    | mvp c' j' =>
      have : ¬ (c = c' ∧ j = j') := by simpa using h
      simp [State.writeCsr, State.readCsr, MvpFile.get_set, this]
    | _ => rfl
  | ref t f =>
    cases r' with
    | ref t' f' =>
      simp only [State.writeCsr, State.readCsr, RefFile.get_set]
      split
      next ht =>
        subst ht
        exact RefDesc.readField_writeField _ f f' v fun hf => h (hf ▸ rfl)
      next => rfl
    | _ => rfl
  | missref | mbPos | mbmv | bdSrcBase | bdSrcLen =>
    cases r' <;> simp_all [State.writeCsr, State.readCsr, State.statusWord, State.causeField, State.faultBit]
  | _ => rfl

/-- Settles O57 from the frame of a register write, at the registers and at the other fields of the state. -/
theorem csrWriteFrame : Obligations.CsrWriteFrame := by
  intro s v
  refine ⟨fun r r' h => s.readCsr_writeCsr_other v h, fun r => ?_, fun addr h => ?_, fun addr r h => ?_, fun addr rest h => ?_⟩
  · obtain ⟨hmem, hws, hdraw, hconfig, hpending, hread, -⟩ := s.writeCsr_keeps r v
    exact ⟨hmem, hws, hdraw, hconfig, hpending, hread⟩
  · simp only [State.writeCsrAddr, State.readCsrAddr, h, and_self]
  · simp only [State.writeCsrAddr, State.readCsrAddr, h, and_self]
  · simp only [step, h, hostAct]

end Sys2Proof.Machine
end

section
/-! MEM and the host's access to it (spec/20_memory.md): the steps that stop, what no command writes, where the samples of a
descriptor lie, what an MC command sees of MEM, and the host's reads and writes of single bytes. -/

namespace Sys2Proof.Machine

/-! ### Steps that stop (R67, I8) -/

/-- With the decoder bound whenever it is ready, every command goes on: the one outcome of `exec_effect` that stops needs a ready
decoder that is not bound. -/
theorem exec_next (i : Instr) {s : State} (hb : s.bdReady = true → s.bd.Bound) : ∃ t, exec i s = .next t := by
  cases ho : exec i s with
  | next t => exact ⟨t, rfl⟩
  | fault r =>
    cases ho ▸ exec_effect i s with
    | diverges _ hr hn => exact absurd (hb hr) hn
  | refused r => cases ho ▸ exec_effect i s

/-- Every word written to CMD goes on (R181, R211). -/
theorem command_next (w : Word) {s : State} (hb : s.bdReady = true → s.bd.Bound) : ∃ t, command w s = .next t := by
  rcases command_cases w s with ⟨-, h⟩ | ⟨-, ⟨-, h⟩ | ⟨-, h⟩ | ⟨i, -, -, h⟩⟩
  · exact ⟨_, h⟩
  · exact ⟨_, h⟩
  · exact ⟨_, h⟩
  · exact h ▸ exec_next i hb

/-- Every supported host action goes on (R224). -/
theorem hostAct_next {a : HostAction} (ha : a.supported = true) {s : State} (hb : s.bdReady = true → s.bd.Bound) :
    ∃ t, hostAct a s = .next t := by
  cases a with
  | cmd w => exact command_next w hb
  | csrOtherWidth addr bits => simp [HostAction.supported] at ha
  | _ => exact ⟨_, rfl⟩

/-- A step performs the next host action (R224). -/
theorem step_of_pending {s : State} {a : HostAction} {rest : List HostAction} (h : s.pending = a :: rest) :
    step s = hostAct a { s with pending := rest } := by
  simp only [step, h]

/-- A step goes on unless the next action is a CSR access of another width. -/
theorem step_next_or_csrOtherWidth {s : State} (hb : s.bdReady = true → s.bd.Bound) :
    (∃ t, step s = .next t) ∨ ∃ addr bits rest, s.pending = .csrOtherWidth addr bits :: rest := by
  cases hp : s.pending with
  | nil => exact .inl ⟨s, by simp only [step, hp]⟩
  | cons a rest =>
    cases a with
    | csrOtherWidth addr bits => exact .inr ⟨addr, bits, rest, rfl⟩
    | _ => exact .inl (step_of_pending hp ▸ hostAct_next rfl hb)

/-- Settles O6: a step that does not go on has a CSR access of another width pending, and that is refused. -/
theorem stepStopsOnlyOnNarrowCsrAccess : Obligations.StepStopsOnlyOnNarrowCsrAccess := by
  intro s hs
  have hwidth : ∀ r, r = .csrAccessWidth ∧ (∃ addr bits rest, s.pending = .csrOtherWidth addr bits :: rest) →
      step s = .refused r := by
    rintro _ ⟨rfl, addr, bits, rest, hp⟩
    exact step_of_pending hp
  rcases step_next_or_csrOtherWidth hs.bd with ⟨t, ht⟩ | hp
  · exact ⟨fun r => by simp [ht], fun r => ⟨fun h => by simp [ht] at h, hwidth r⟩⟩
  · have hr : step s = .refused .csrAccessWidth := hwidth _ ⟨rfl, hp⟩
    refine ⟨fun r => by simp [hr], fun r => ⟨fun h => ⟨?_, hp⟩, hwidth r⟩⟩
    exact (Host.Outcome.refused.inj (hr.symm.trans h)).symm

/-! ### What no command writes (R60, R27 to R31, R39) -/

/-- Settles O20: no outcome of `exec_effect` writes one of these fields. -/
theorem commandsKeepHostRegisters : Obligations.CommandsKeepHostRegisters := by
  intro i s t h
  cases Effect.of_exec h with
  | nop | bound | defaults | updated => exact ⟨rfl, rfl, rfl, rfl, rfl, rfl, rfl, rfl, rfl, rfl⟩
  | _ => simp

/-! ### Where the samples of a descriptor lie (R43, R63, R64) -/

section
variable {e : ChromaEdge} {d : RefDesc} (h : d.wellFormed e = true)
include h

/-- A chroma plane of a well-formed descriptor ends below 2^32 (R43). -/
theorem RefDesc.lastByte_chroma_lt (p : Plane) :
    lastByte (d.planeBase p).toNat d.cStride.toNat (d.chromaW e) (d.chromaH e) < 2 ^ 32 := by
  obtain ⟨-, -, -, -, -, -, -, hcb, hcr⟩ := (d.wellFormed_iff e).1 h
  cases p with
  | cb => exact hcb
  | cr => exact hcr

/-- A luma sample is read between the first and the last byte of its plane (R63). -/
theorem lumaAddr_bounds (x y : Int) :
    d.yBase.toNat ≤ lumaAddr d x y ∧ lumaAddr d x y ≤ lastByte d.yBase.toNat d.yStride.toNat d.lumaW d.lumaH := by
  obtain ⟨hw, hh, -⟩ := (d.wellFormed_iff e).1 h
  exact sampleAddr_bounds _ _ _ _ x y hw hh

/-- A chroma sample is read between the first and the last byte of its plane (R64). -/
theorem chromaAddr_bounds (p : Plane) (x y : Int) :
    (d.planeBase p).toNat ≤ chromaAddr e d p x y
      ∧ chromaAddr e d p x y ≤ lastByte (d.planeBase p).toNat d.cStride.toNat (d.chromaW e) (d.chromaH e) := by
  obtain ⟨-, -, hw, hh, -⟩ := (d.wellFormed_iff e).1 h
  exact sampleAddr_bounds _ _ _ _ x y hw hh

theorem lumaAddr_inPlanes (x y : Int) : inPlanes e d (lumaAddr d x y) := .inl (lumaAddr_bounds h x y)

theorem chromaAddr_inPlanes (p : Plane) (x y : Int) : inPlanes e d (chromaAddr e d p x y) := by
  have hp := chromaAddr_bounds h p x y
  cases p with
  | cb => exact .inr (.inl hp)
  | cr => exact .inr (.inr hp)

end

/-- Settles O52: each coordinate is clamped to its plane, and the plane ends below 2^32. -/
theorem samplesStayInsidePlanes : Obligations.SamplesStayInsidePlanes := by
  intro e d x y h
  obtain ⟨hw, hh, hcw, hch, -, -, hluma, -⟩ := (d.wellFormed_iff e).1 h
  obtain ⟨hfirst, hlast⟩ := lumaAddr_bounds h x y
  refine ⟨⟨hfirst, hlast, hlast.trans_lt hluma⟩, fun p => ?_, sampleAddr_eq_max_min _ _ _ _ x y hw hh,
    fun p => sampleAddr_eq_max_min _ _ _ _ x y hcw hch⟩
  obtain ⟨hfirst, hlast⟩ := chromaAddr_bounds h p x y
  exact ⟨hfirst, hlast, hlast.trans_lt (RefDesc.lastByte_chroma_lt h p)⟩

/-! ### MEM outside the planes of a descriptor (R61, R62, R73) -/

@[simp] theorem State.withMem_refs (s : State) (m : Memory) : (s.withMem m).refs = s.refs := rfl

/-- The fill of a missing reference reads no byte of MEM. -/
theorem State.missingFill_withMem (s : State) (m : Memory) : (s.withMem m).missingFill = s.missingFill.withMem m := by
  simp only [State.missingFill_eq, State.withMem]

/-- The cells of an MC command are the same where MEM has the same bytes inside the planes of its descriptor. -/
theorem mcCells_withMem (i : Instr) {s : State} {d : RefDesc} (hw : d.wellFormed s.config.chromaEdge = true) {m : Memory}
    (hm : ∀ a, inPlanes s.config.chromaEdge d a → (s.withMem m).memByte a = s.memByte a) :
    mcCells i (s.withMem m) d = mcCells i s d := by
  refine mcCells_congr i rfl rfl rfl rfl (fun x y => ?_) fun p x y => ?_
  · simp only [lumaSample, hm _ (lumaAddr_inPlanes hw x y)]
  · exact congrArg (fun b : Byte => (b.toNat : Int)) (hm _ (chromaAddr_inPlanes hw p x y))

/-- Settles O53: only the predicted cells read MEM, and every sample of theirs lies in a plane. -/
theorem mcSeesOnlyItsPlanes : Obligations.McSeesOnlyItsPlanes := by
  intro i ref s t m hi hm ht
  have hg := Unseen.withMem m
  rcases exec_mc_cases hi s with ⟨rfl, he⟩ | ⟨f, hf, ⟨hv, he⟩ | ⟨hv, hw, he⟩ | ⟨hv, hw, he⟩⟩ <;>
    obtain rfl : _ = t := Host.Outcome.next.inj (he.symm.trans ht)
  · rw [exec_mc hi]
    exact congrArg Host.Outcome.next (hg.raise s _ _)
  · rw [exec_mc_missing (s := s.withMem m) hi hf hv, State.missingFill_withMem]
  · rw [exec_mc_badDesc (s := s.withMem m) hi hf hv hw]
    exact congrArg Host.Outcome.next (hg.raise s _ _)
  · rw [exec_mc_ok (s := s.withMem m) hi hf hv hw, State.withMem_refs, mcCells_withMem i hw (hm f hf)]
    rfl

/-! ### The host's reads and writes of a byte (R68, R71, R224) -/

/-- WS as the host reads it after a write of one byte. -/
theorem State.wsByte_withWs_write (s : State) (k j : Nat) (v : Byte) :
    (s.withWs (s.ws.write k v)).wsByte j = if j = k then v else s.wsByte j := by
  rw [if_congr eq_comm rfl rfl]
  simp only [State.wsByte, State.withWs, Memory.read_write]
  split <;> rfl

/-- MEM as the host reads it after a write of one byte. -/
theorem State.memByte_withMem_write (s : State) (a b : Nat) (v : Byte) :
    (s.withMem (s.mem.write a v)).memByte b = if b = a then v else s.memByte b := by
  rw [if_congr eq_comm rfl rfl]
  exact Memory.memByte_write s a b v

/-- Settles O59: the store of the write, read back. -/
theorem hostWritesOneByte : Obligations.HostWritesOneByte := by
  refine fun s rest => ⟨fun row col v h => ?_, fun addr v h => ?_⟩
  · refine ⟨s.ws.write (wsIndex row col) (v.extractLsb' 0 8), step_of_pending h, fun k => ?_⟩
    exact s.wsByte_withWs_write (wsIndex row col) k (v.extractLsb' 0 8)
  · exact ⟨s.mem.write addr.toNat v, step_of_pending h, fun a => s.memByte_withMem_write addr.toNat a v⟩

/-- Settles O58: a read writes the value it returns to `hostRead` and nothing else. -/
theorem hostReadsHaveNoEffect : Obligations.HostReadsHaveNoEffect :=
  fun _ _ => ⟨fun _ h => step_of_pending h, fun _ _ h => step_of_pending h, fun _ h => step_of_pending h⟩

end Sys2Proof.Machine
end

section
/-! The encoding (spec/30_encoding.md R80 to R92): the decoder against the encoder, its two rejections, and the assembler. -/

namespace Sys2Proof.Machine

/-! ### Command words (R82 to R86) -/

/-- The facts of Laws/PerInstr.lean, for every command. -/
theorem tableRow : ∀ i : Instr, Laws.TableRow.Statement i
  | .nop => Laws.TableRow.nop
  | .bdInit => Laws.TableRow.bdInit
  | .bdReadBit prob => Laws.TableRow.bdReadBit prob
  | .bdReadUint prob n => Laws.TableRow.bdReadUint prob n
  | .mvpLoadDefault => Laws.TableRow.mvpLoadDefault
  | .mvpUpdate => Laws.TableRow.mvpUpdate
  | .mvReadComponent comp => Laws.TableRow.mvReadComponent comp
  | .mvRead => Laws.TableRow.mvRead
  | .mcPredict ref => Laws.TableRow.mcPredict ref
  | .mcPredictSplit ref => Laws.TableRow.mcPredictSplit ref

/-- The operand bits of a command lie below its opcode. -/
theorem operandValue_lt (i : Instr) : operandValue i < 2 ^ 24 := by
  obtain ⟨-, k, hk, -, hv⟩ := tableRow i
  exact hv.trans_le (Nat.pow_le_pow_right (by decide) (hk.trans (by decide)))

theorem encode_toNat_div (i : Instr) : (encode i).toNat / 2 ^ 24 = opcodeOf i := by
  have := operandValue_lt i
  have := encode_toNat i
  omega

theorem encode_toNat_mod (i : Instr) : (encode i).toNat % 2 ^ 24 = operandValue i := by
  have := operandValue_lt i
  have := encode_toNat i
  omega

theorem Comp.eq_of_bits : ∀ {c c' : Comp}, c.bits.toNat = c'.bits.toNat → c = c'
  | .y, .y, _ => rfl
  | .x, .x, _ => rfl

theorem RefTag.eq_of_bits : ∀ {r r' : RefTag}, r.bits.toNat = r'.bits.toNat → r = r'
  | .intra, .intra, _ => rfl
  | .last, .last, _ => rfl
  | .golden, .golden, _ => rfl
  | .altref, .altref, _ => rfl

/-- A command is given by its opcode and its operand bits: only the pairs of one constructor have equal opcodes. -/
theorem Instr.eq_of_fields : ∀ {i j : Instr}, opcodeOf i = opcodeOf j → operandValue i = operandValue j → i = j
  | .nop, .nop, _, _ => rfl
  | .bdInit, .bdInit, _, _ => rfl
  | .bdReadBit _, .bdReadBit _, _, hv => congrArg _ (BitVec.eq_of_toNat_eq hv)
  | .bdReadUint prob n, .bdReadUint prob' n', _, hv => by
    have hp := prob.isLt
    have hp' := prob'.isLt
    simp only [operandValue] at hv
    rw [show prob = prob' by bv_omega, show n = n' by bv_omega]
  | .mvpLoadDefault, .mvpLoadDefault, _, _ => rfl
  | .mvpUpdate, .mvpUpdate, _, _ => rfl
  | .mvReadComponent _, .mvReadComponent _, _, hv => congrArg _ (Comp.eq_of_bits hv)
  | .mvRead, .mvRead, _, _ => rfl
  | .mcPredict _, .mcPredict _, _, hv => congrArg _ (RefTag.eq_of_bits hv)
  | .mcPredictSplit _, .mcPredictSplit _, _, hv => congrArg _ (RefTag.eq_of_bits hv)

/-- No two commands have one word. -/
theorem encode_injective : Function.Injective encode := by
  intro i j h
  apply Instr.eq_of_fields
  · rw [← encode_toNat_div, h, encode_toNat_div]
  · rw [← encode_toNat_mod, h, encode_toNat_mod]

/-- A word that decodes to a command is that command's word. -/
theorem encode_of_decode {w : Word} {i : Instr} (h : decode w = .instr i) : encode i = w := by
  rcases decode_cases w with ⟨-, hd⟩ | ⟨k, -, ⟨-, hd⟩ | ⟨-, r, hr, -, hw, hd⟩⟩
  · simp [hd] at h
  · simp [hd] at h
  · obtain rfl : r.make w = i := Decoded.instr.inj (hd.symm.trans h)
    exact encode_make w r hr hw

/-- The decoder accepts every command word: its opcode is assigned and no bit above its row's operand bits is set. -/
theorem exists_decode_encode (i : Instr) : ∃ j, decode (encode i) = .instr j := by
  obtain ⟨-, k, -, hb, hv⟩ := tableRow i
  rcases decode_cases (encode i) with ⟨hn, -⟩ | ⟨k', hk, ⟨hle, -⟩ | ⟨-, r, -, -, -, hd⟩⟩
  · rw [encode_toNat_div, hb] at hn
    exact absurd hn (Option.some_ne_none k)
  · rw [encode_toNat_div, hb, Option.some.injEq] at hk
    rw [encode_toNat_mod, ← hk] at hle
    exact absurd hv hle.not_gt
  · exact ⟨_, hd⟩

theorem decode_encode (i : Instr) : decode (encode i) = .instr i := by
  obtain ⟨j, hj⟩ := exists_decode_encode i
  rw [hj, encode_injective (encode_of_decode hj)]

/-- Settles O7: the decoder accepts every command word, a word it accepts is the encoding of its command, and encodings differ. -/
theorem decodeOfEncode : Obligations.DecodeOfEncode :=
  ⟨decode_encode, fun _ _ => encode_of_decode⟩

/-- Settles O9, by evaluating the decoder on each word. -/
theorem specWordsDecode : Obligations.SpecWordsDecode := by
  unfold Obligations.SpecWordsDecode
  decide

/-! ### The rejections of the decoder and of R88 (R87, R88, R204, R205) -/

theorem decode_eq_illegalOpcode_iff (w : Word) :
    decode w = .illegalOpcode ↔ operandBits (w.toNat / 2 ^ 24) = none := by
  rcases decode_cases w with ⟨hb, hd⟩ | ⟨k, hb, ⟨-, hd⟩ | ⟨-, r, -, -, -, hd⟩⟩ <;> simp only [hb, hd, reduceCtorEq]

theorem decode_eq_illegalOperand_iff (w : Word) :
    decode w = .illegalOperand ↔ ∃ k ∈ operandBits (w.toNat / 2 ^ 24), 2 ^ k ≤ w.toNat % 2 ^ 24 := by
  rcases decode_cases w with ⟨hb, hd⟩ | ⟨k, hb, ⟨hk, hd⟩ | ⟨hk, r, -, -, -, hd⟩⟩ <;> rw [hb, hd]
  · simp
  · simpa using hk
  · simpa using hk

/-- The unassigned opcodes (R86). -/
theorem operandBits_eq_none_iff (op : Nat) :
    operandBits op = none ↔ op ∉ [0x00, 0x01, 0x02, 0x03, 0x10, 0x11, 0x12, 0x13, 0x20, 0x21] := by
  unfold operandBits
  split <;> simp_all

/-- The low bits `v` that reach beyond the operand bits of the opcode's row (R82 to R86). -/
theorem exists_operandBits_le_iff (op v : Nat) :
    (∃ k ∈ operandBits op, 2 ^ k ≤ v) ↔
      (op ∈ [0x00, 0x01, 0x10, 0x11, 0x13] ∧ v ≠ 0)
      ∨ (op = 0x02 ∧ 2 ^ 8 ≤ v) ∨ (op = 0x03 ∧ 2 ^ 14 ≤ v) ∨ (op = 0x12 ∧ 2 ≤ v) ∨ (op ∈ [0x20, 0x21] ∧ 4 ≤ v) := by
  unfold operandBits
  split <;> simp_all [Nat.one_le_iff_ne_zero]

/-- Settles O8: the decoder's rejections as conditions on the row's operand bits, the rows written out. -/
theorem decoderRejectsByName : Obligations.DecoderRejectsByName := fun w =>
  ⟨(decode_eq_illegalOpcode_iff w).trans (operandBits_eq_none_iff _),
    (decode_eq_illegalOperand_iff w).trans (exists_operandBits_le_iff _ _)⟩

/-- Settles O13: ILLEGAL_OPERAND is raised before anything else, and has no side effect. -/
theorem badOperandValueRaises : Obligations.BadOperandValueRaises := by
  intro i s h
  rw [exec_of_not_wf h, State.raise_plain .illegalOperand _ _ (by decide)]

/-! ### The assembler (R91, R92) -/

/-- The bits of `a` above the lowest `k` and a number below them, as the assembler joins fields. -/
theorem ofNat_shiftLeft_or_ofNat (a : Nat) {v k : Nat} (hv : v < 2 ^ k) :
    BitVec.ofNat 32 a <<< k ||| BitVec.ofNat 32 v = BitVec.ofNat 32 (a * 2 ^ k + v) := by
  have ha : BitVec.ofNat 32 a <<< k = BitVec.ofNat 32 (2 ^ k * a) := by
    apply BitVec.eq_of_toNat_eq
    rw [BitVec.toNat_shiftLeft, BitVec.toNat_ofNat, BitVec.toNat_ofNat, Nat.shiftLeft_eq, Nat.mul_comm, Nat.mul_mod_mod]
  rw [ha, ← BitVec.ofNat_or, ← Nat.two_pow_add_eq_or_of_lt hv, Nat.mul_comm]

/-- A command word as the assembler joins it from its opcode and its operand bits. -/
theorem encode_eq_or (i : Instr) :
    encode i = BitVec.ofNat 32 (opcodeOf i) <<< 24 ||| BitVec.ofNat 32 (operandValue i) := by
  rw [ofNat_shiftLeft_or_ofNat _ (operandValue_lt i), ← encode_toNat, BitVec.ofNat_toNat, BitVec.setWidth_eq]

/-- The word of BD_READ_BIT from its two fields (R83). -/
theorem encode_bdReadBit (prob : Byte) : encode (.bdReadBit prob) = 0x02000000#32 ||| BitVec.ofNat 32 prob.toNat := by
  rw [show 0x02000000#32 = 0x02#32 <<< 24 from rfl]
  exact encode_eq_or (.bdReadBit prob)

/-- The word of BD_READ_UINT from its three fields (R83). -/
theorem encode_bdReadUint (prob : Byte) (n : BitVec 6) :
    encode (.bdReadUint prob n) = 0x03000000#32 ||| BitVec.ofNat 32 n.toNat <<< 8 ||| BitVec.ofNat 32 prob.toNat := by
  rw [show 0x03000000#32 = 0x03#32 <<< 24 from rfl, BitVec.or_assoc, ofNat_shiftLeft_or_ofNat _ prob.isLt]
  exact encode_eq_or (.bdReadUint prob n)

/-- `bd.lit N` is the line `bd.uint 128, N` (R92). -/
theorem assemble_bdLit (n : Nat) : assemble "bd.lit" [.num n] = assemble "bd.uint" [.num 128, .num n] := by
  have hp : (128 : Nat) < 256 := by decide
  simp only [assemble, hp, true_and]
  rw [BitVec.or_assoc, BitVec.or_comm _ (BitVec.ofNat 32 128), ← BitVec.or_assoc]
  rfl

theorem assemble_bdReadUint (prob : Byte) (n : BitVec 6) :
    assemble "bd.uint" [.num prob.toNat, .num n.toNat] = some (encode (.bdReadUint prob n)) :=
  (if_pos ⟨prob.isLt, n.isLt⟩).trans (congrArg some (encode_bdReadUint prob n).symm)

/-- The line of a command with legal operand values gives the encoder's word; of the tags only INTRA has no name (R91). -/
theorem assemble_asmLine : ∀ i : Instr, i.wf = true → assemble (asmLine i).1 (asmLine i).2 = some (encode i)
  | .nop, _ => rfl
  | .bdInit, _ => rfl
  | .bdReadBit prob, _ => (if_pos prob.isLt).trans (congrArg some (encode_bdReadBit prob).symm)
  | .bdReadUint prob n, _ => assemble_bdReadUint prob n
  | .mvpLoadDefault, _ => rfl
  | .mvpUpdate, _ => rfl
  | .mvReadComponent .y, _ => rfl
  | .mvReadComponent .x, _ => rfl
  | .mvRead, _ => rfl
  | .mcPredict .last, _ => rfl
  | .mcPredict .golden, _ => rfl
  | .mcPredict .altref, _ => rfl
  | .mcPredictSplit .last, _ => rfl
  | .mcPredictSplit .golden, _ => rfl
  | .mcPredictSplit .altref, _ => rfl

/-- Settles O10: each line joins its command's fields, and `bd.lit` is a line of `bd.uint`. -/
theorem assemblyGivesCommandWord : Obligations.AssemblyGivesCommandWord :=
  ⟨assemble_asmLine, fun n => (assemble_bdLit n.toNat).trans (assemble_bdReadUint 128 n), rfl⟩

end Sys2Proof.Machine
end

section
/-! The invariant of every step (spec/10_state.md R38; spec/40_bool_decoder.md R108; spec/41_mv_decoder.md R132). -/

namespace Sys2Proof.Machine

/-! ### Commands -/

/-- Raising a fault keeps the invariant: it writes the fault record, and where it touches the decoder it also unbinds it. -/
theorem Invariant.raise {s : State} (h : Invariant s) (c : Cause) (w : Word) : Invariant (s.raise c w) where
  mem := by simpa using h.mem
  ws := by simpa using h.ws
  config := by simpa using h.config
  mvp := by simpa using h.mvp
  bd hr := by
    obtain ⟨hready, hbd⟩ := State.raise_bdReady c w s hr
    exact hbd ▸ h.bd hready

/-- A positive MVP file in place of the one there keeps the invariant (R132). -/
theorem Invariant.withMvp {s : State} (h : Invariant s) {f : MvpFile} (hf : mvpPositive f) :
    Invariant { s with mvp := f } :=
  ⟨h.mem, h.ws, h.config, hf, h.bd⟩

/-- Writing a macroblock keeps the invariant (R45). -/
theorem Invariant.writeWs {s : State} (h : Invariant s) {cells : List Host.Cell} {luma : Nat → Nat → Byte}
    {chroma : Plane → Nat → Nat → Byte} (hc : CellsOf cells luma chroma) : Invariant (s.writeWs cells) :=
  ⟨h.mem, hc.wf s.ws h.ws, h.config, h.mvp, h.bd⟩

/-- MISSREF is no part of the invariant. -/
theorem Invariant.countMissing {s : State} (h : Invariant s) : Invariant s.countMissing :=
  ⟨h.mem, h.ws, h.config, h.mvp, h.bd⟩

/-- Every command keeps the invariant: a fault by `Invariant.raise`, a new MVP file or decoder because its outcome in
`exec_effect` says that it is positive or in its ranges. -/
theorem Invariant.exec {i : Instr} {s t : State} (h : Invariant s) (ht : exec i s = .next t) : Invariant t := by
  cases Effect.of_exec ht with
  | badOperand | badBuffer | notReady | badDesc | badStream => exact h.raise _ _
  | truncated f _ _ _ hp => exact (h.withMvp (hp h.mvp)).raise _ _
  | nop => exact h
  | bound b _ hb => exact ⟨h.mem, h.ws, h.config, h.mvp, fun _ => b.bound_of_ok hb⟩
  | defaults => exact h.withMvp h.config
  | read v b _ hr hb => exact ⟨h.mem, h.ws, h.config, h.mvp, fun _ => b.bound_of_ok (hb (h.bd hr))⟩
  | updated f b _ hr hb hp => exact ⟨h.mem, h.ws, h.config, hp h.mvp, fun _ => b.bound_of_ok (hb (h.bd hr))⟩
  | filled => exact (h.writeWs missingCells_spec).countMissing
  | predicted ref cells luma chroma _ hc => exact h.writeWs hc

/-- Every word written to CMD keeps the invariant (R181, R211). -/
theorem Invariant.command {w : Word} {s t : State} (h : Invariant s) (ht : command w s = .next t) : Invariant t := by
  rcases command_cases w s with ⟨-, hc⟩ | ⟨-, ⟨-, hc⟩ | ⟨-, hc⟩ | ⟨i, -, -, hc⟩⟩ <;> rw [hc] at ht
  · exact Host.Outcome.next.inj ht ▸ h
  · exact Host.Outcome.next.inj ht ▸ h.raise _ _
  · exact Host.Outcome.next.inj ht ▸ h.raise _ _
  · exact h.exec ht

/-! ### Host actions -/

/-- A CSR write keeps the invariant: no register of the decoder is writable, and no MVP entry is stored as 0 (R37, R38). -/
theorem Invariant.writeCsr {s : State} (h : Invariant s) (r : Csr) (v : Word) : Invariant (s.writeCsr r v) := by
  obtain ⟨hmem, hws, -, hconfig, -, -, hbd, hready, -⟩ := s.writeCsr_keeps r v
  exact ⟨hmem ▸ h.mem, hws ▸ h.ws, hconfig ▸ h.config, s.writeCsr_positive r v h.mvp, by rw [hready, hbd]; exact h.bd⟩

/-- A write of a CSR address keeps the invariant. -/
theorem Invariant.writeCsrAddr {s : State} (h : Invariant s) (addr : Byte) (v : Word) :
    Invariant (s.writeCsrAddr addr v) := by
  rw [State.writeCsrAddr]
  split
  · exact h
  · exact h.writeCsr _ v

/-- A byte index of WS (R44). -/
theorem wsIndex_lt (row : Fin 26) (col : Fin 32) : wsIndex row col < wsSize := by
  simp only [wsIndex, wsSize]
  omega

/-- Every host action that goes on keeps the invariant (R224). -/
theorem Invariant.hostAct {a : HostAction} {s t : State} (h : Invariant s) (ht : hostAct a s = .next t) : Invariant t := by
  cases a with
  | cmd w => exact h.command ht
  | csrOtherWidth addr bits => cases ht
  | csrRead | wsRead | memRead => exact Host.Outcome.next.inj ht ▸ h.of_eq rfl rfl rfl rfl rfl rfl
  | csrWrite addr v => exact Host.Outcome.next.inj ht ▸ h.writeCsrAddr addr v
  | wsWrite row col v =>
    exact Host.Outcome.next.inj ht ▸ ⟨h.mem, Memory.write_wf _ _ _ _ (wsIndex_lt row col) h.ws, h.config, h.mvp, h.bd⟩
  | memWrite addr v =>
    exact Host.Outcome.next.inj ht ▸ ⟨Memory.write_wf _ _ _ _ addr.isLt h.mem, h.ws, h.config, h.mvp, h.bd⟩
  | reset =>
    exact Host.Outcome.next.inj ht ▸ ⟨h.mem, reset_memories_wf.2, h.config, h.config, fun hr => nomatch hr⟩

/-- Settles O4: a step is idle or performs one host action, and every action keeps the invariant. -/
theorem stepKeepsInvariant : Obligations.StepKeepsInvariant := by
  intro s t h ht
  rcases step_cases ht with ⟨-, rfl⟩ | ⟨a, rest, -, ha⟩
  · exact h
  · exact (h.of_eq (t := { s with pending := rest }) rfl rfl rfl rfl rfl rfl).hostAct ha

end Sys2Proof.Machine
end

section
/-! The Boolean decoder's commands (spec/40_bool_decoder.md R100 to R108): BD_INIT, BD_READ_BIT and BD_READ_UINT. -/

namespace Sys2Proof.Machine

/-! ### The byte fetch (R101) -/

/-- A fetch before the end of the buffer. -/
theorem fetchAt_inside (s : State) {pos endAddr : Nat} (h : pos < endAddr) :
    fetchAt s pos endAddr = .ok ((s.memByte pos).toNat, pos + 1) := if_neg (Nat.not_le.2 h)

/-- A fetch at the end of the buffer under BD_TAIL = ZERO_FILL. -/
theorem fetchAt_zeroFill {s : State} {pos endAddr : Nat} (h : endAddr ≤ pos) (ht : s.config.bdTail = .zeroFill) :
    fetchAt s pos endAddr = .ok (0, pos) := by
  rw [fetchAt, if_pos h, ht]

/-- A fetch at the end of the buffer under BD_TAIL = FAULT. -/
theorem fetchAt_truncated {s : State} {pos endAddr : Nat} (h : endAddr ≤ pos) (ht : s.config.bdTail = .fault) :
    fetchAt s pos endAddr = .error .truncated := by
  rw [fetchAt, if_pos h, ht]

/-! ### BD_INIT (R102) -/

/-- The fetch of byte `k` of the buffer BD_INIT binds, where it is there or zero-filled. -/
theorem fetchAt_bufferByte {s : State} {k : Nat} (h : k < s.bdSrcLen.toNat ∨ s.config.bdTail = .zeroFill) :
    fetchAt s (s.bdSrcBase.toNat + min k s.bdSrcLen.toNat) (s.bdSrcBase.toNat + s.bdSrcLen.toNat) =
      .ok (bufferByte s k, s.bdSrcBase.toNat + min (k + 1) s.bdSrcLen.toNat) := by
  rw [bufferByte]
  by_cases hk : k < s.bdSrcLen.toNat
  · rw [if_pos hk, Nat.min_eq_left hk.le, Nat.min_eq_left hk, fetchAt_inside s (by omega), Nat.add_assoc]
  · rw [if_neg hk, Nat.min_eq_right (by omega), Nat.min_eq_right (by omega),
      fetchAt_zeroFill (Nat.le_refl _) (h.resolve_left hk)]

/-- The decoder BD_INIT binds: the first two bytes of the buffer, range 255, count 0 (R102). -/
def boundBuffer (s : State) : Bd :=
  ⟨bufferByte s 0 * 256 + bufferByte s 1, 255, 0, s.bdSrcBase.toNat + min 2 s.bdSrcLen.toNat,
    s.bdSrcBase.toNat + s.bdSrcLen.toNat⟩

/-- The two fetches of BD_INIT from two bytes or zero fill. -/
theorem bindBuffer_eq {s : State} (h : 2 ≤ s.bdSrcLen.toNat ∨ s.config.bdTail = .zeroFill) :
    bindBuffer s s.bdSrcBase.toNat s.bdSrcLen.toNat = .ok (boundBuffer s) := by
  have h0 := fetchAt_bufferByte (k := 0) (h.imp_left fun h => by omega)
  have h1 := fetchAt_bufferByte (k := 1) (h.imp_left fun h => by omega)
  rw [Nat.zero_min, Nat.add_zero, Nat.zero_add] at h0
  simp only [bindBuffer, fetchByte_eq, h0, h1, Except.map, Bind.bind, Except.bind, Pure.pure, Except.pure, boundBuffer]

/-- The two fetches of BD_INIT from fewer than two bytes under BD_TAIL = FAULT. -/
theorem bindBuffer_truncated {s : State} (h : s.bdSrcLen.toNat < 2) (ht : s.config.bdTail = .fault) :
    bindBuffer s s.bdSrcBase.toNat s.bdSrcLen.toNat = .error .truncated := by
  by_cases h0 : s.bdSrcLen.toNat = 0
  · have h1 := fetchAt_truncated (s := s) (pos := s.bdSrcBase.toNat) (endAddr := s.bdSrcBase.toNat + 0) (by omega) ht
    simp only [bindBuffer, fetchByte_eq, h0, h1, Except.map, Bind.bind, Except.bind]
  · have hlen : s.bdSrcLen.toNat = 1 := by omega
    have h1 := fetchAt_inside s (pos := s.bdSrcBase.toNat) (endAddr := s.bdSrcBase.toNat + 1) (by omega)
    have h2 := fetchAt_truncated (s := s) (pos := s.bdSrcBase.toNat + 1) (Nat.le_refl _) ht
    simp only [bindBuffer, fetchByte_eq, hlen, h1, h2, Except.map, Bind.bind, Except.bind]

/-- A byte of the buffer is a byte. -/
theorem bufferByte_le (s : State) (k : Nat) : bufferByte s k ≤ 255 := by
  rw [bufferByte]
  split
  · exact Nat.le_of_lt_succ (s.memByte _).isLt
  · exact Nat.zero_le _

/-- The test for BAD_STREAM is whether the first byte is 0xFF. -/
theorem boundBuffer_value_ge_iff (s : State) : 255 * 256 ≤ (boundBuffer s).value ↔ bufferByte s 0 = 0xFF := by
  have h0 := bufferByte_le s 0
  have h1 := bufferByte_le s 1
  simp only [boundBuffer]
  omega

/-- The registers BD_INIT writes. -/
theorem boundBuffer_toRegs (s : State) : (boundBuffer s).toRegs =
    { value := BitVec.ofNat 16 (bufferByte s 0 * 256 + bufferByte s 1)
      range := 255
      count := 0
      pos := s.bdSrcBase + BitVec.ofNat 32 (min 2 s.bdSrcLen.toNat)
      endAddr := s.bdSrcBase + s.bdSrcLen.setWidth 32 } := by
  simp only [boundBuffer, Bd.toRegs, BitVec.ofNat_add, BitVec.ofNat_toNat, BitVec.setWidth_eq]
  rfl

/-- Settles O24: the two fetches answer with a value below the BAD_STREAM bound. -/
theorem bdInitBindsBuffer : Obligations.BdInitBindsBuffer := by
  intro s hin hlen hff
  rw [exec_bdInit_inside (Nat.not_le.2 hin), bindBuffer_eq hlen, initOutcome,
    if_neg (mt (boundBuffer_value_ge_iff s).1 hff), boundBuffer_toRegs]

/-- A fault that unbinds the decoder, without the values it leaves in the registers (R210). -/
theorem exists_raise_unbinds {c : Cause} (h : c = .truncated ∨ c = .badStream) (w : Word) (s : State) :
    ∃ r d, (Host.Outcome.next (s.raise c w) : Host.Outcome State Fault Refusal) = .next
      { s with cause := some c, faultCmd := w, bdReady := false, bd := r, draws := d } :=
  ⟨_, _, congrArg Host.Outcome.next (State.raise_unbinds c w s h)⟩

/-- Settles O25: the bound is tested first, then the two fetches answer, then their value is tested. -/
theorem bdInitFaults : Obligations.BdInitFaults := by
  refine fun s => ⟨fun hout => ?_, fun hin hlen ht => ?_, fun hin hlen hff => ?_⟩
  · rw [exec_bdInit_outside hout, State.raise_plain _ _ _ (by decide)]
    rfl
  · rw [exec_bdInit_inside (Nat.not_le.2 hin), bindBuffer_truncated hlen ht, initOutcome]
    exact exists_raise_unbinds (.inl rfl) (encode .bdInit) s
  · rw [exec_bdInit_inside (Nat.not_le.2 hin), bindBuffer_eq hlen, initOutcome,
      if_pos ((boundBuffer_value_ge_iff s).2 hff)]
    exact exists_raise_unbinds (.inr rfl) (encode .bdInit) s

/-! ### Before BD_INIT (R100) -/

/-- Settles O14: BD_NOT_READY has no side effect. -/
theorem readBeforeInitRaises : Obligations.ReadBeforeInitRaises := by
  intro i s hi hw hr
  rw [exec_of_not_ready hi hw hr, State.raise_plain _ _ _ (by decide)]

/-! ### One bool (R103, R105, R107) -/

/-- Settles O27: the bounds hold for every range from 128 on. -/
theorem splitIsAlwaysValid : Obligations.SplitIsAlwaysValid :=
  fun range prob h1 _ hp => splitOf_bounds range prob h1 hp

/-- Shifts that bring the count to less than 8 fetch no byte. -/
theorem shifted_of_lt (s : State) {b : Bd} {k : Nat} (h : b.count + k < 8) :
    shifted s b k = .ok ⟨b.value * 2 ^ k, b.range * 2 ^ k, b.count + k, b.pos, b.endAddr⟩ := if_pos h

/-- Shifts that bring the count to 8 or more fetch a byte. -/
theorem shifted_of_le (s : State) {b : Bd} {k : Nat} (h : 8 ≤ b.count + k) :
    shifted s b k = (fetchAt s b.pos b.endAddr).map fun r =>
      ⟨b.value * 2 ^ k + r.1 * 2 ^ (b.count + k - 8), b.range * 2 ^ k, b.count + k - 8, r.2, b.endAddr⟩ :=
  if_neg (Nat.not_lt.2 h)

/-- The decision of `readBit`, field by field (R103). -/
theorem decided_eq (prob : Byte) (b : Bd) :
    decided prob b =
      let split := splitOf b.range prob.toNat
      (decide (split * 256 ≤ b.value),
        { b with
          value := if split * 256 ≤ b.value then b.value - split * 256 else b.value
          range := if split * 256 ≤ b.value then b.range - split else split }) := by
  by_cases h : splitOf b.range prob.toNat * 256 ≤ b.value
  · simp only [decided, h, decide_true, if_true]
  · simp only [decided, h, decide_false, if_false]

/-- RESULT after one bool is 1 or 0 (R105). -/
theorem ofNat_toNat_decide (p : Prop) [Decidable p] : BitVec.ofNat 32 (decide p).toNat = if p then 1 else 0 := by
  by_cases h : p <;> simp [h]

/-- BD_READ_BIT where its bool is read: RESULT and the registers it leaves, BD_END as it was. -/
theorem exec_bdReadBit_next {prob : Byte} {s : State} (hr : s.bdReady = true) {bit : Bool} {v r c p : Nat} {q : Word}
    (h : readBit s prob s.bd.toBd = .ok (bit, ⟨v, r, c, p, s.bd.endAddr.toNat⟩)) (hq : BitVec.ofNat 32 p = q) :
    exec (.bdReadBit prob) s = .next
      { s with
        result := BitVec.ofNat 32 bit.toNat
        bd := ⟨BitVec.ofNat 16 v, BitVec.ofNat 8 r, BitVec.ofNat 3 c, q, s.bd.endAddr⟩ } := by
  rw [exec_bdReadBit prob s hr, h, readOutcome, Bd.toRegs, hq, BitVec.ofNat_toNat, BitVec.setWidth_eq]
  rfl

/-- Settles O26: the bool is decided, and the decoder is shifted with or without a fetch. -/
theorem readBitDecodesOneBool : Obligations.ReadBitDecodesOneBool := by
  intro prob s hr hb v r c split bit r' v'
  obtain ⟨k, hk, h1, h2, hread⟩ := readBit_cases s prob s.bd.toBd (s.bd.ok_of_bound hb)
  have hd : decided prob s.bd.toBd = (decide (split * 256 ≤ v), ⟨v', r', c, s.bd.pos.toNat, s.bd.endAddr.toNat⟩) :=
    decided_eq prob s.bd.toBd
  have hbit : BitVec.ofNat 32 (decide (split * 256 ≤ v)).toNat = bit := ofNat_toNat_decide (split * 256 ≤ v)
  have hpos : BitVec.ofNat 32 s.bd.pos.toNat = s.bd.pos := by simp
  rw [hd] at h1 h2 hread
  rw [← hbit]
  refine ⟨k, hk, h1, h2, fun hc => ?_, fun hc hp => ?_, fun hc hp ht => ?_, fun hc hp ht => ?_⟩
  · rw [shifted_of_lt s hc] at hread
    exact exec_bdReadBit_next hr hread hpos
  · rw [shifted_of_le s hc, fetchAt_inside s hp] at hread
    refine exec_bdReadBit_next hr hread ?_
    rw [BitVec.ofNat_add, hpos]
    rfl
  · rw [shifted_of_le s hc, fetchAt_zeroFill hp ht] at hread
    simp only [Except.map, Nat.zero_mul, Nat.add_zero] at hread
    exact exec_bdReadBit_next hr hread hpos
  · rw [exec_bdReadBit prob s hr, hread, shifted_of_le s hc, fetchAt_truncated hp ht]
    exact exists_raise_unbinds (.inl rfl) _ s

/-! ### Literals (R104, R106) -/

/-- A literal one bit longer, from its first bool and the rest (R104). -/
theorem readUint_succ {s : State} {prob : Byte} {k u : Nat} {bit : Bool} {b b1 e : Bd} (h1 : readBit s prob b = .ok (bit, b1))
    (h2 : readUint s prob k b1 = .ok (u, e)) : readUint s prob (k + 1) b = .ok (bit.toNat * 2 ^ k + u, e) := by
  simp only [readUint, h1, h2, Bind.bind, Except.bind, Pure.pure, Except.pure]

/-- BD_READ_UINT with n = 0 gives RESULT 0 and reads nothing. -/
theorem exec_bdReadUint_zero (prob : Byte) {s : State} (hr : s.bdReady = true) :
    exec (.bdReadUint prob 0) s = .next { s with result := 0 } := by
  rw [exec_bdReadUint prob 0 s (by decide) hr, show (0 : BitVec 6).toNat = 0 from rfl, readUint, readOutcome,
    BdRegs.toRegs_toBd]
  rfl

/-- The number of bits of a literal, as its field holds it. -/
theorem toNat_ofNat_six {n : Nat} (h : n ≤ 32) : (BitVec.ofNat 6 n).toNat = n :=
  (BitVec.toNat_ofNat n 6).trans (Nat.mod_eq_of_lt (by omega))

/-- Settles O28: what completed bit and rest leave in the states is what the readers answered, and the rest is read alike at
the state the bit leaves. -/
theorem readUintIsReadBits : Obligations.ReadUintIsReadBits := by
  intro prob s hr hb
  refine ⟨exec_bdReadUint_zero prob hr, fun k t u hk ht htr hu hur => ?_⟩
  rw [exec_bdReadBit prob s hr] at ht
  obtain ⟨bit, b1, h1, rfl⟩ := readOutcome_ready ht htr
  have hn := toNat_ofNat_six (n := k) (by omega)
  have hn1 := toNat_ofNat_six (n := k + 1) (by omega)
  rw [exec_bdReadUint prob _ _ (by omega) htr, hn] at hu
  obtain ⟨r, e, h2, rfl⟩ := readOutcome_ready hu hur
  have hb1 : b1.toRegs.toBd = b1 := b1.toBd_toRegs (readBit_ok (s.bd.ok_of_bound hb) h1).1
  rw [State.finishRead_bd, hb1, (Agree.readUint s _ prob k).eq (Ahead.finishRead ..)] at h2
  have hbit : (BitVec.ofNat 32 bit.toNat).toNat = bit.toNat := by cases bit <;> rfl
  have hres : (BitVec.ofNat 32 r).toNat = r := by
    have := readUint_lt h2
    have := Nat.pow_lt_pow_right (a := 2) (by omega) hk
    exact (BitVec.toNat_ofNat r 32).trans (Nat.mod_eq_of_lt (by omega))
  rw [exec_bdReadUint prob _ s (by omega) hr, hn1, readUint_succ h1 h2, State.finishRead_result, State.finishRead_result,
    hbit, hres]
  rfl

/-- Settles O29: n reads answer from a decoder that can feed n fetches. -/
theorem readUintCompletes : Obligations.ReadUintCompletes := by
  intro prob n s hr hb hn hc
  have hreads := Reads.readUint s prob n.toNat
  have hok := s.bd.ok_of_bound hb
  obtain ⟨u, e, hu, he⟩ := hreads.answers hok hc
  refine ⟨u, e.toRegs, ?_, readUint_lt hu, e.bound_of_ok he, ?_⟩
  · rw [exec_bdReadUint prob n s hn hr, hu]
    rfl
  · obtain ⟨-, hend, -⟩ := hreads.ok hok hu
    rw [Bd.toRegs, hend]
    exact BitVec.ofNat_toNat ..

end Sys2Proof.Machine
end

section
/-! The codes of a magnitude: what the short tree and the two long paths read for each value (spec/41_mv_decoder.md R123 to
R125). -/

namespace Sys2Proof.Machine

/-! ### Sequences of bools (R103) -/

/-- Two computations in sequence answer where both do. -/
theorem bind_eq_ok_iff {α β : Type} {x : Except BdStop α} {f : α → Except BdStop β} {r : β} :
    (x >>= f) = .ok r ↔ ∃ a, x = .ok a ∧ f a = .ok r := by
  cases x <;> simp [Bind.bind, Except.bind]

/-- A pure continuation answers its value. -/
theorem pure_eq_ok_iff {α : Type} {a r : α} : (pure a : Except BdStop α) = .ok r ↔ a = r :=
  Iff.of_eq (Except.ok.injEq a r)

theorem ReadsBits.append_iff {s : State} {l l' : List (Byte × Bool)} {b e : Bd} :
    ReadsBits s (l ++ l') b e ↔ ∃ d, ReadsBits s l b d ∧ ReadsBits s l' d e := by
  induction l generalizing b with
  | nil => simp [ReadsBits]
  | cons x l ih =>
    simp only [List.cons_append, ReadsBits, ih]
    exact ⟨fun ⟨b1, h1, d, h2, h3⟩ => ⟨d, ⟨b1, h1, h2⟩, h3⟩, fun ⟨d, ⟨b1, h1, h2⟩, h3⟩ => ⟨b1, h1, d, h2, h3⟩⟩

/-! ### The short tree (R123) -/

/-- The short tree as three reads, the probability of each chosen by the bools before it. -/
theorem shortTree_eq (s : State) (p : Vector Byte 19) (b : Bd) :
    shortTree s p b = do
      let (b0, b) ← readBit s p[2] b
      let (b1, b) ← readBit s (if b0 then p[6] else p[3]) b
      let (b2, b) ← readBit s (if b0 then (if b1 then p[8] else p[7]) else (if b1 then p[5] else p[4])) b
      return (4 * b0.toNat + 2 * b1.toNat + b2.toNat, b) := by
  unfold shortTree
  refine bind_congr fun ⟨b0, d⟩ => ?_
  cases b0 <;> simp

theorem shortTree_eq_ok_iff {s : State} {p : Vector Byte 19} {b e : Bd} {m : Nat} :
    shortTree s p b = .ok (m, e) ↔ ∃ b0 b1 b2 : Bool, m = 4 * b0.toNat + 2 * b1.toNat + b2.toNat ∧
      ReadsBits s
        [(p[2], b0), (if b0 then p[6] else p[3], b1),
          (if b0 then (if b1 then p[8] else p[7]) else (if b1 then p[5] else p[4]), b2)] b e := by
  simp only [shortTree_eq, bind_eq_ok_iff, pure_eq_ok_iff, Prod.exists, Prod.mk.injEq, ReadsBits]
  constructor
  · rintro ⟨b0, d0, h0, b1, d1, h1, b2, d2, h2, rfl, rfl⟩
    exact ⟨b0, b1, b2, rfl, d0, h0, d1, h1, d2, h2, rfl⟩
  · rintro ⟨b0, b1, b2, rfl, d0, h0, d1, h1, d2, h2, rfl⟩
    exact ⟨b0, d0, h0, b1, d1, h1, b2, d2, h2, rfl, rfl⟩

/-- A number is the sum of three weighted bits where it is below 8 and they are its bits. -/
theorem eq_three_bits_iff (m : Nat) (b0 b1 b2 : Bool) :
    m = 4 * b0.toNat + 2 * b1.toNat + b2.toNat ↔
      m < 8 ∧ m.testBit 2 = b0 ∧ m.testBit 1 = b1 ∧ m.testBit 0 = b2 := by
  have h0 := b0.toNat_le
  have h1 := b1.toNat_le
  have h2 := b2.toNat_le
  have hbit : ∀ b b' : Bool, b = b' ↔ b.toNat = b'.toNat := by decide
  simp only [hbit, Nat.toNat_testBit]
  omega

/-- Settles O35: three bools sum to the number they are the bits of. -/
theorem shortTreeCodesMagnitude : Obligations.ShortTreeCodesMagnitude := by
  intro s p b e m
  simp only [shortTree_eq_ok_iff, eq_three_bits_iff]
  constructor
  · rintro ⟨b0, b1, b2, ⟨hm, rfl, rfl, rfl⟩, h⟩
    exact ⟨hm, h⟩
  · rintro ⟨hm, h⟩
    exact ⟨_, _, _, ⟨hm, rfl, rfl, rfl⟩, h⟩

/-! ### One bit of a number -/

/-- Adding the weight of a clear bit sets that bit alone. -/
theorem testBit_add_two_pow {a i : Nat} (h : a.testBit i = false) (j : Nat) :
    (2 ^ i + a).testBit j = if j = i then true else a.testBit j := by
  split
  · subst j
    rw [Nat.testBit_two_pow_add_eq, h, Bool.not_false]
  · rename_i hj
    induction i generalizing a j with
    | zero =>
      obtain ⟨j, rfl⟩ := Nat.exists_eq_succ_of_ne_zero hj
      have ha : a % 2 = 0 := by simpa using h
      rw [Nat.testBit_succ, Nat.testBit_succ, show (2 ^ 0 + a) / 2 = a / 2 by omega]
    | succ i ih =>
      have hpow : 2 ^ (i + 1) = 2 * 2 ^ i := Nat.pow_succ'
      cases j with
      | zero => simp only [Nat.testBit_zero, hpow, Nat.mul_add_mod]
      | succ j =>
        rw [Nat.testBit_succ] at h
        rw [Nat.testBit_succ, Nat.testBit_succ, show (2 ^ (i + 1) + a) / 2 = 2 ^ i + a / 2 by omega]
        exact ih h j (by omega)

/-- Adding a bit at the place of a clear one. -/
theorem testBit_bit_add {a i : Nat} (h : a.testBit i = false) (bit : Bool) (j : Nat) :
    (bit.toNat * 2 ^ i + a).testBit j = if j = i then bit else a.testBit j := by
  cases bit with
  | true => rw [Bool.toNat_true, Nat.one_mul, testBit_add_two_pow h]
  | false =>
    rw [Bool.toNat_false, Nat.zero_mul, Nat.zero_add]
    split
    · rename_i hj
      rw [hj, h]
    · rfl

/-- Every number is one of its bits and a number where that bit is clear. -/
theorem exists_eq_bit_add (m i : Nat) : ∃ a, a.testBit i = false ∧ m = (m.testBit i).toNat * 2 ^ i + a := by
  cases h : m.testBit i with
  | false => exact ⟨m, h, by simp⟩
  | true =>
    have hle := Nat.ge_two_pow_of_testBit h
    have hbit := Nat.testBit_two_pow_add_eq (m - 2 ^ i) i
    rw [Nat.add_sub_cancel' hle, h] at hbit
    exact ⟨m - 2 ^ i, by simpa using hbit.symm, by rw [Bool.toNat_true]; omega⟩

/-! ### Weighted reads (R124, R125) -/

theorem readWeighted_cons_eq_ok_iff {s : State} {p : Byte} {weight a : Nat} {l : List (Byte × Nat)} {b e : Bd} :
    readWeighted s ((p, weight) :: l) b = .ok (a, e) ↔
      ∃ bit b1 sum, readBit s p b = .ok (bit, b1) ∧ readWeighted s l b1 = .ok (sum, e) ∧ a = bit.toNat * weight + sum := by
  simp only [readWeighted, bind_eq_ok_iff, pure_eq_ok_iff, Prod.exists, Prod.mk.injEq]
  constructor
  · rintro ⟨bit, b1, h1, sum, e, h2, rfl, rfl⟩
    exact ⟨bit, b1, sum, h1, h2, rfl⟩
  · rintro ⟨bit, b1, sum, h1, h2, rfl⟩
    exact ⟨bit, b1, h1, sum, e, h2, rfl, rfl⟩

/-- The (probability, weight) pairs of reads given as (probability, bit number). -/
def weights (l : List (Byte × Nat)) : List (Byte × Nat) := l.map fun x => (x.1, 2 ^ x.2)

/-- The bools that those reads give for the number `a`. -/
def bitsOf (l : List (Byte × Nat)) (a : Nat) : List (Byte × Bool) := l.map fun x => (x.1, a.testBit x.2)

theorem weights_cons (p : Byte) (i : Nat) (l : List (Byte × Nat)) : weights ((p, i) :: l) = (p, 2 ^ i) :: weights l := rfl

theorem bitsOf_cons (p : Byte) (i : Nat) (l : List (Byte × Nat)) (a : Nat) :
    bitsOf ((p, i) :: l) a = (p, a.testBit i) :: bitsOf l a := rfl

theorem bitsOf_congr {l : List (Byte × Nat)} {a a' : Nat} (h : ∀ i ∈ l.map Prod.snd, a.testBit i = a'.testBit i) :
    bitsOf l a = bitsOf l a' :=
  List.map_congr_left fun x hx => by rw [h x.2 (List.mem_map_of_mem hx)]

/-- Weighted reads of different bits code exactly the numbers that have no other bit, each by its bits. -/
theorem readWeighted_weights_eq_ok_iff {s : State} {l : List (Byte × Nat)} (hl : (l.map Prod.snd).Nodup) {b e : Bd}
    {a : Nat} : readWeighted s (weights l) b = .ok (a, e) ↔
      (∀ i, a.testBit i = true → i ∈ l.map Prod.snd) ∧ ReadsBits s (bitsOf l a) b e := by
  induction l generalizing a b with
  | nil =>
    have hz : (∀ i, a.testBit i = true → i ∈ ([] : List Nat)) ↔ 0 = a := by
      constructor
      · exact fun h => Nat.eq_of_testBit_eq fun i => by simpa using fun hi => h i hi
      · rintro rfl
        simp
    simp only [weights, bitsOf, List.map_nil, readWeighted, ReadsBits, Except.ok.injEq, Prod.mk.injEq, hz]
  | cons x l ih =>
    obtain ⟨p, i⟩ := x
    obtain ⟨hi, hl⟩ := List.nodup_cons.1 hl
    -- No later read is of bit `i`, so the later bools do not depend on it.
    have hrest : ∀ {sum : Nat} (bit : Bool), sum.testBit i = false →
        bitsOf l (bit.toNat * 2 ^ i + sum) = bitsOf l sum := fun bit hs =>
      bitsOf_congr fun j hj => by rw [testBit_bit_add hs, if_neg (ne_of_mem_of_not_mem hj hi)]
    rw [weights_cons, bitsOf_cons, readWeighted_cons_eq_ok_iff]
    constructor
    · rintro ⟨bit, b1, sum, h1, h2, rfl⟩
      obtain ⟨hmem, hr⟩ := (ih hl).1 h2
      have hs : sum.testBit i = false := by simpa using fun h => hi (hmem i h)
      refine ⟨fun j hj => ?_, b1, ?_, hrest bit hs ▸ hr⟩
      · rw [testBit_bit_add hs] at hj
        split at hj
        · rename_i hji
          exact hji ▸ List.mem_cons_self
        · exact List.mem_cons_of_mem _ (hmem j hj)
      · rwa [testBit_bit_add hs, if_pos rfl]
    · rintro ⟨hmem, b1, h1, hr⟩
      obtain ⟨sum, hs, ha⟩ := exists_eq_bit_add a i
      rw [ha, hrest _ hs] at hr
      refine ⟨a.testBit i, b1, sum, h1, (ih hl).2 ⟨fun j hj => ?_, hr⟩, ha⟩
      have hji : j ≠ i := fun h => by simp [h, hs] at hj
      have haj : a.testBit j = true := by rw [ha, testBit_bit_add hs, if_neg hji, hj]
      exact (List.mem_cons.1 (hmem j haj)).resolve_left hji

/-- The bits of the numbers below `2 ^ n` have numbers below `n`. -/
theorem forall_testBit_lt_iff (a n : Nat) : (∀ i, a.testBit i = true → i < n) ↔ a < 2 ^ n := by
  constructor
  · exact fun h => Nat.lt_pow_two_of_testBit a fun i hi => by simpa using mt (h i) (Nat.not_lt.2 hi)
  · exact fun h i hi => (Nat.pow_lt_pow_iff_right (by omega)).1 ((Nat.ge_two_pow_of_testBit hi).trans_lt h)

/-! ### The DOC long path (R124) -/

/-- The ten reads of the DOC order, by bit number. -/
def docReads (p : Vector Byte 19) : List (Byte × Nat) :=
  [(p[9], 9), (p[10], 8), (p[11], 7), (p[12], 6), (p[13], 5), (p[14], 4), (p[15], 3), (p[16], 2), (p[17], 1), (p[18], 0)]

theorem docBits_eq_weights (p : Vector Byte 19) : docBits p = weights (docReads p) := rfl

theorem mem_docReads_iff (p : Vector Byte 19) (i : Nat) : i ∈ (docReads p).map Prod.snd ↔ i < 10 := by
  simp only [docReads, List.map_cons, List.map_nil, List.mem_cons, List.not_mem_nil, or_false]
  omega

theorem readWeighted_docBits_eq_ok_iff {s : State} {p : Vector Byte 19} {b e : Bd} {a : Nat} :
    readWeighted s (docBits p) b = .ok (a, e) ↔ a < 2 ^ 10 ∧ ReadsBits s (bitsOf (docReads p) a) b e := by
  have hl : ((docReads p).map Prod.snd).Nodup := (by decide : [9, 8, 7, 6, 5, 4, 3, 2, 1, 0].Nodup)
  simp only [docBits_eq_weights, readWeighted_weights_eq_ok_iff hl, mem_docReads_iff, forall_testBit_lt_iff]

theorem longDoc_eq_ok_iff {s : State} {p : Vector Byte 19} {b e : Bd} {m : Nat} :
    longDoc s p b = .ok (m, e) ↔ ∃ a, readWeighted s (docBits p) b = .ok (a, e) ∧ m = a + 8 := by
  simp only [longDoc, bind_eq_ok_iff, pure_eq_ok_iff, Prod.exists, Prod.mk.injEq]
  exact ⟨fun ⟨a, _, h, hm, he⟩ => ⟨a, he ▸ h, hm.symm⟩, fun ⟨a, h, hm⟩ => ⟨a, e, h, hm.symm, rfl⟩⟩

/-- Settles O36: the ten reads code the numbers below 1024, and 8 is added. -/
theorem longDocCodesMagnitude : Obligations.LongDocCodesMagnitude := by
  intro s p b e m
  rw [longDoc_eq_ok_iff]
  constructor
  · rintro ⟨a, h, rfl⟩
    obtain ⟨ha, hr⟩ := readWeighted_docBits_eq_ok_iff.1 h
    rw [Nat.add_sub_cancel]
    exact ⟨by omega, by omega, hr⟩
  · rintro ⟨h1, h2, hr⟩
    exact ⟨m - 8, readWeighted_docBits_eq_ok_iff.2 ⟨by omega, hr⟩, by omega⟩

/-! ### The RFC long path (R125) -/

/-- The first nine reads of the RFC order, by bit number. -/
def rfcReads (p : Vector Byte 19) : List (Byte × Nat) :=
  [(p[9], 0), (p[10], 1), (p[11], 2), (p[18], 9), (p[17], 8), (p[16], 7), (p[15], 6), (p[14], 5), (p[13], 4)]

theorem rfcBits_eq_weights (p : Vector Byte 19) : rfcBits p = weights (rfcReads p) := rfl

theorem mem_rfcReads_iff (p : Vector Byte 19) (i : Nat) : i ∈ (rfcReads p).map Prod.snd ↔ i < 10 ∧ i ≠ 3 := by
  simp only [rfcReads, List.map_cons, List.map_nil, List.mem_cons, List.not_mem_nil, or_false]
  omega

theorem readWeighted_rfcBits_eq_ok_iff {s : State} {p : Vector Byte 19} {b e : Bd} {a : Nat} :
    readWeighted s (rfcBits p) b = .ok (a, e) ↔
      a < 2 ^ 10 ∧ a.testBit 3 = false ∧ ReadsBits s (bitsOf (rfcReads p) a) b e := by
  have hl : ((rfcReads p).map Prod.snd).Nodup := (by decide : [0, 1, 2, 9, 8, 7, 6, 5, 4].Nodup)
  have hclear : (∀ i, a.testBit i = true → i ≠ 3) ↔ a.testBit 3 = false :=
    ⟨fun h => by simpa using fun h3 => h 3 h3 rfl, fun h i hi h3 => by simp [← h3, hi] at h⟩
  simp only [rfcBits_eq_weights, readWeighted_weights_eq_ok_iff hl, mem_rfcReads_iff, imp_and, forall_and,
    forall_testBit_lt_iff, hclear, and_assoc]

/-- The test for the bits from 4 up. -/
theorem and_mask_eq_zero_iff_lt {a : Nat} (h : a < 2 ^ 10) : a &&& 0xFFF0 = 0 ↔ a < 16 := by
  constructor
  · intro h0
    refine Nat.lt_pow_two_of_testBit (n := 4) a fun i hi => ?_
    by_contra hb
    have hlt := (forall_testBit_lt_iff a 10).2 h i (by simpa using hb)
    have hmask : (0xFFF0).testBit i = true := by interval_cases i <;> rfl
    have hz := congrArg (Nat.testBit · i) h0
    simp only [Nat.testBit_and, hmask, Bool.and_true, Nat.zero_testBit] at hz
    exact hb hz
  · exact fun hlt => Decidable.not_not.1 (mt le_of_masked (Nat.not_le.2 hlt))

/-- Bit 3 of an RFC long magnitude whose other bits are `a`: implied where bits 9 to 4 are all 0, else read. -/
def rfcBit3 (s : State) (p : Vector Byte 19) (a : Nat) (b : Bd) : Except BdStop (Bool × Bd) :=
  if a &&& 0xFFF0 = 0 then .ok (true, b) else readBit s p[12] b

theorem longRfc_eq (s : State) (p : Vector Byte 19) (b : Bd) :
    longRfc s p b = do
      let (a, b) ← readWeighted s (rfcBits p) b
      let (bit, b) ← rfcBit3 s p a b
      return (bit.toNat * 2 ^ 3 + a, b) := by
  unfold longRfc rfcBit3
  refine bind_congr fun ⟨a, d⟩ => ?_
  by_cases ha : a &&& 0xFFF0 = 0
  · simp only [ha, if_true, Nat.add_comm a]
    rfl
  · simp only [ha, if_false, Nat.add_comm a, Nat.mul_comm 8]
    rfl

theorem longRfc_eq_ok_iff {s : State} {p : Vector Byte 19} {b e : Bd} {m : Nat} :
    longRfc s p b = .ok (m, e) ↔ ∃ (a : Nat) (d : Bd) (bit : Bool), readWeighted s (rfcBits p) b = .ok (a, d) ∧
      rfcBit3 s p a d = .ok (bit, e) ∧ m = bit.toNat * 2 ^ 3 + a := by
  simp only [longRfc_eq, bind_eq_ok_iff, pure_eq_ok_iff, Prod.exists, Prod.mk.injEq]
  constructor
  · rintro ⟨a, d, h1, bit, _, h2, rfl, rfl⟩
    exact ⟨a, d, bit, h1, h2, rfl⟩
  · rintro ⟨a, d, bit, h1, h2, rfl⟩
    exact ⟨a, d, h1, bit, e, h2, rfl, rfl⟩

/-- Bit 3 is read where the magnitude is 16 or more; below, it is the bit that makes the magnitude 8 or more. -/
theorem rfcBit3_eq_ok_iff {s : State} {p : Vector Byte 19} {a : Nat} (ha : a < 2 ^ 10) (h3 : a.testBit 3 = false)
    {bit : Bool} {d e : Bd} : rfcBit3 s p a d = .ok (bit, e) ↔
      8 ≤ bit.toNat * 2 ^ 3 + a ∧
        ReadsBits s (if bit.toNat * 2 ^ 3 + a < 16 then [] else [(p[12], bit)]) d e := by
  have hgap : a < 8 ∨ 16 ≤ a := by
    simp only [Nat.testBit_eq_decide_div_mod_eq, decide_eq_false_iff_not] at h3
    omega
  rw [rfcBit3]
  simp only [and_mask_eq_zero_iff_lt ha]
  rcases hgap with hlt | hge
  · rw [if_pos (by omega), if_pos (by have := bit.toNat_le; omega)]
    have h8 : 8 ≤ bit.toNat * 2 ^ 3 + a ↔ true = bit := by
      cases bit with
      | false => simpa using hlt
      | true => simp
    simp only [ReadsBits, h8, Except.ok.injEq, Prod.mk.injEq]
  · rw [if_neg (by omega), if_neg (by omega)]
    have h8 : 8 ≤ bit.toNat * 2 ^ 3 + a := by omega
    simp only [ReadsBits, h8, true_and, exists_eq_right]

/-- Settles O37: the nine reads code the numbers below 1024 without bit 3, and bit 3 is added to them. -/
theorem longRfcCodesMagnitude : Obligations.LongRfcCodesMagnitude := by
  intro s p b e m
  change longRfc s p b = .ok (m, e) ↔
    8 ≤ m ∧ m ≤ 1023 ∧ ReadsBits s (bitsOf (rfcReads p) m ++ if m < 16 then [] else [(p[12], m.testBit 3)]) b e
  have hbits : ∀ {a : Nat} (bit : Bool), a.testBit 3 = false →
      bitsOf (rfcReads p) (bit.toNat * 2 ^ 3 + a) = bitsOf (rfcReads p) a := fun bit h3 =>
    bitsOf_congr fun i hi => by rw [testBit_bit_add h3, if_neg ((mem_rfcReads_iff p i).1 hi).2]
  rw [ReadsBits.append_iff]
  constructor
  · intro h
    obtain ⟨-, hle⟩ := longRfc_bounds h
    obtain ⟨a, d, bit, h1, h2, rfl⟩ := longRfc_eq_ok_iff.1 h
    obtain ⟨ha, h3, hr⟩ := readWeighted_rfcBits_eq_ok_iff.1 h1
    obtain ⟨h8, hr3⟩ := (rfcBit3_eq_ok_iff ha h3).1 h2
    rw [hbits bit h3, testBit_bit_add h3, if_pos rfl]
    exact ⟨h8, hle, d, hr, hr3⟩
  · rintro ⟨h8, hle, d, hr, hr3⟩
    obtain ⟨a, h3, hm⟩ := exists_eq_bit_add m 3
    have ha : a < 2 ^ 10 := by omega
    rw [hm, hbits _ h3] at hr
    refine longRfc_eq_ok_iff.2 ⟨a, d, m.testBit 3, readWeighted_rfcBits_eq_ok_iff.2 ⟨ha, h3, hr⟩, ?_, hm⟩
    rw [rfcBit3_eq_ok_iff ha h3, ← hm]
    exact ⟨h8, hr3⟩

end Sys2Proof.Machine
end

section
/-! The components of a motion vector and the commands that return them (spec/41_mv_decoder.md R126, R129, R130, R133). -/

namespace Sys2Proof.Machine

/-! ### One component (R126, R129) -/

theorem readMagnitude_eq_ok_iff {s : State} {p : Vector Byte 19} {b e : Bd} {m : Nat} :
    readMagnitude s p b = .ok (m, e) ↔ ∃ isLong b1, readBit s p[0] b = .ok (isLong, b1) ∧
      (if isLong then
        match s.config.mvLongOrder with
        | .doc => longDoc s p b1
        | .rfc => longRfc s p b1
      else shortTree s p b1) = .ok (m, e) :=
  bind_eq_ok_iff.trans Prod.exists

/-- The sign of a component of magnitude `m`, read unless `m` is 0 (R126). -/
def readSign (s : State) (p : Vector Byte 19) (m : Nat) (b : Bd) : Except BdStop (Bool × Bd) :=
  if m = 0 then .ok (false, b) else readBit s p[1] b

theorem readComponent_eq (s : State) (c : Comp) (b : Bd) :
    readComponent s c b = do
      let (m, b) ← readMagnitude s (s.mvp.vec c) b
      let (neg, b) ← readSign s (s.mvp.vec c) m b
      return (if neg then -(m : Int) else (m : Int), b) := by
  unfold readComponent readSign
  refine bind_congr fun ⟨m, d⟩ => ?_
  by_cases hm : m = 0
  · subst hm
    rfl
  · simp only [hm, if_false]

theorem readComponent_eq_ok_iff {s : State} {c : Comp} {b e : Bd} {v : Int} :
    readComponent s c b = .ok (v, e) ↔ ∃ (m : Nat) (b2 : Bd) (neg : Bool),
      readMagnitude s (s.mvp.vec c) b = .ok (m, b2) ∧
        readSign s (s.mvp.vec c) m b2 = .ok (neg, e) ∧ v = if neg then -(m : Int) else (m : Int) := by
  simp only [readComponent_eq, bind_eq_ok_iff, pure_eq_ok_iff, Prod.exists, Prod.mk.injEq]
  constructor
  · rintro ⟨m, b2, h1, neg, _, h2, rfl, rfl⟩
    exact ⟨m, b2, neg, h1, h2, rfl⟩
  · rintro ⟨m, b2, neg, h1, h2, rfl⟩
    exact ⟨m, b2, h1, neg, e, h2, rfl, rfl⟩

theorem readSign_eq_ok {s : State} {p : Vector Byte 19} {m : Nat} {neg : Bool} {b e : Bd}
    (h : readSign s p m b = .ok (neg, e)) : if m = 0 then (neg, e) = (false, b) else readBit s p[1] b = .ok (neg, e) := by
  rw [readSign] at h
  split at h
  · rename_i hm
    rw [if_pos hm, ← Except.ok.inj h]
  · rename_i hm
    rwa [if_neg hm]

/-- MV_READ_COMPONENT where its component is read (R129). -/
theorem exec_mvReadComponent_next {comp : Comp} {s : State} (hr : s.bdReady = true) {v : Int} {e : Bd}
    (h : readComponent s comp s.bd.toBd = .ok (v, e)) :
    exec (.mvReadComponent comp) s = .next { s with result := BitVec.ofInt 32 v, bd := e.toRegs } := by
  rw [exec_mvReadComponent comp s hr, h]
  rfl

/-- Settles O38: twelve reads answer, and what the component's reads answered is read off bool by bool. -/
theorem mvReadComponentReturnsComponent : Obligations.MvReadComponentReturnsComponent := by
  intro comp s hr hb hc
  obtain ⟨v, e, h, he⟩ := (Reads.readComponent s comp).answers (s.bd.ok_of_bound hb) hc
  have hexec := exec_mvReadComponent_next hr h
  obtain ⟨m, b2, neg, hm, hs, rfl⟩ := readComponent_eq_ok_iff.1 h
  obtain ⟨isLong, b1, h0, hl⟩ := readMagnitude_eq_ok_iff.1 hm
  cases comp with
  | y | x => exact ⟨isLong, neg, m, b1, b2, e, h0, hl, readSign_eq_ok hs, hexec, he, readMagnitude_le hm⟩

/-! ### A pair of components (R130, R133) -/

/-- A component is at most 1031 in magnitude under either order (R133). -/
theorem readComponent_bounds {s : State} {c : Comp} {b e : Bd} {v : Int} (h : readComponent s c b = .ok (v, e)) :
    -1031 ≤ v ∧ v ≤ 1031 := by
  have hv := readComponent_abs_le h
  have hmax : maxMagnitude s.config.mvLongOrder ≤ 1031 := by cases s.config.mvLongOrder <;> decide
  omega

/-- MV_READ where both components are read (R130). -/
theorem exec_mvRead_next {s : State} (hr : s.bdReady = true) {y x : Int} {b1 b2 : Bd}
    (hy : readComponent s .y s.bd.toBd = .ok (y, b1)) (hx : readComponent s .x b1 = .ok (x, b2)) :
    exec .mvRead s = .next { s with
      result := packPair (BitVec.ofInt 16 (y * s.config.mvScale.factor)) (BitVec.ofInt 16 (x * s.config.mvScale.factor))
      bd := b2.toRegs } := by
  simp only [exec_mvRead s hr, hy, hx, Except.bind]
  rfl

/-- `trunc_n` loses nothing of a small integer. -/
theorem toInt_ofInt_of_lt {n : Nat} {v : Int} (h1 : -2 ^ n ≤ v) (h2 : v < 2 ^ n) : (BitVec.ofInt (n + 1) v).toInt = v :=
  BitVec.toInt_ofInt_eq_self (Nat.succ_pos n) (by simpa using h1) (by simpa using h2)

/-- RESULT of MV_READ_COMPONENT, read as a signed integer, is the component (R129). -/
theorem toInt_ofInt_readComponent {s : State} {c : Comp} {b e : Bd} {v : Int} (h : readComponent s c b = .ok (v, e)) :
    (BitVec.ofInt 32 v).toInt = v := by
  have hv := readComponent_bounds h
  exact toInt_ofInt_of_lt (n := 31) (by omega) (by omega)

/-- Settles O39: the second component is read from the decoder the first one left, and MV_READ reads both. -/
theorem mvReadIsTwoComponents : Obligations.MvReadIsTwoComponents := by
  intro s t u hr hb ht htr hu hur
  rw [exec_mvReadComponent .y s hr] at ht
  obtain ⟨y, b1, hy, rfl⟩ := readOutcome_ready ht htr
  rw [exec_mvReadComponent .x _ htr] at hu
  obtain ⟨x, b2, hx, rfl⟩ := readOutcome_ready hu hur
  have hb1 : b1.toRegs.toBd = b1 := b1.toBd_toRegs ((Reads.readComponent s .y).ok (s.bd.ok_of_bound hb) hy).1
  rw [State.finishRead_bd, hb1, (Agree.readComponent s _ .x).eq (Ahead.finishRead ..)] at hx
  rw [exec_mvRead_next hr hy hx, State.finishRead_result, State.finishRead_result, toInt_ofInt_readComponent hy,
    toInt_ofInt_readComponent hx]
  rfl

/-- A reader of at most `n` bools leaves the bytes that a reader of `m` more bools needs. -/
theorem Reads.canFetch {α : Type} {s : State} {n m : Nat} {f : Bd → Except BdStop (α × Bd)} (hf : Reads s n f) {b e : Bd}
    {a : α} (h : b.Ok) (hc : CanFetch s b (n + m)) (hfb : f b = .ok (a, e)) : CanFetch s e m := by
  obtain ⟨-, hend, -, hpos⟩ := hf.ok h hfb
  exact hc.imp_right fun hc => by omega

/-- A component times MV_SCALE survives `trunc_16` (R133). -/
theorem toInt_ofInt_mul_factor {v : Int} (h : -1031 ≤ v ∧ v ≤ 1031) (k : MvScale) :
    (BitVec.ofInt 16 (v * k.factor)).toInt = v * k.factor := by
  have hk : -2 ^ 15 ≤ v * k.factor ∧ v * k.factor < 2 ^ 15 := by
    cases k <;> simp only [MvScale.factor] <;> omega
  exact toInt_ofInt_of_lt (n := 15) hk.1 hk.2

/-- Settles O40: the second component finds the twelve bytes that the first one left. -/
theorem mvReadFieldsAreExact : Obligations.MvReadFieldsAreExact := by
  intro s hr hb hc
  have hok := s.bd.ok_of_bound hb
  have hreads := Reads.readComponent s
  obtain ⟨y, b1, hy, hok1⟩ := (hreads .y).answers hok (hc.imp_right fun hc => by omega)
  obtain ⟨x, b2, hx, hok2⟩ := (hreads .x).answers hok1 ((hreads .y).canFetch hok hc hy)
  have hby := readComponent_bounds hy
  have hbx := readComponent_bounds hx
  refine ⟨y, x, b1, b2, _, hy, hx, exec_mvRead_next hr hy hx, hok2, ?_⟩
  rw [mvY, mvX, hiHalf_packPair, loHalf_packPair, toInt_ofInt_mul_factor hby, toInt_ofInt_mul_factor hbx]
  refine ⟨rfl, rfl, hby.1, hby.2, hbx.1, hbx.2, fun h4 => ?_⟩
  rw [h4]
  exact ⟨Int.mul_emod_left y 4, Int.mul_emod_left x 4⟩

end Sys2Proof.Machine
end

section
/-! The commands that write the MVP file (spec/41_mv_decoder.md R127, R128, R132). -/

namespace Sys2Proof.Machine

/-! ### MVP_LOAD_DEFAULT (R127) -/

theorem exec_mvpLoadDefault (s : State) : exec .mvpLoadDefault s = .next { s with mvp := s.config.mvpDefault } := rfl

/-- Settles O31: the table is a parameter, which the command leaves; no operand bit of its word may be set. -/
theorem mvpLoadDefaultLoadsTable : Obligations.MvpLoadDefaultLoadsTable := by
  refine ⟨exec_mvpLoadDefault, fun s t h => ?_, fun w hop hlow => ?_⟩
  · rw [exec_mvpLoadDefault, Host.Outcome.next.injEq] at h
    subst h
    exact exec_mvpLoadDefault _
  · rw [decode_eq_illegalOperand_iff, hop]
    exact ⟨0, rfl, Nat.one_le_iff_ne_zero.2 hlow⟩

/-! ### MVP_UPDATE completes (R128, R132) -/

/-- A promoted value is 1, or 2x for an x in 1..127 (R128). -/
theorem promote_cases {x : Nat} (h : x < 128) :
    promote x = 1 ∨ ∃ y, 1 ≤ y ∧ y ≤ 127 ∧ promote x = BitVec.ofNat 8 (2 * y) := by
  by_cases hx : x = 0
  · exact .inl (if_pos hx)
  · exact .inr ⟨x, by omega, by omega, if_neg hx⟩

/-- Settles O32: 38 entries of at most eight reads each, every new value a promoted one. -/
theorem mvpUpdateCompletes : Obligations.MvpUpdateCompletes := by
  intro s hr hb hc
  have hlen : mvpEntries.length = 38 := rfl
  have hreads := updateEntries_reads s mvpEntries s.mvp s.bd.toBd (s.bd.ok_of_bound hb)
  have hget := updateEntries_get s mvpEntries s.mvp s.bd.toBd
  rw [exec_mvpUpdate s hr]
  generalize updateEntries s mvpEntries s.mvp s.bd.toBd = left at hreads hget ⊢
  obtain ⟨f, o⟩ := left
  rcases hreads with ⟨e, rfl, hok, -⟩ | ⟨-, hend, htail⟩
  · exact ⟨f, e.toRegs, rfl, e.bound_of_ok hok, fun c j =>
      (hget c j).imp_right fun ⟨_, _, hx, hnew⟩ => hnew ▸ promote_cases hx⟩
  · rcases hc with hc | hc
    · simp [hc] at htail
    · omega

/-! ### The reads see nothing of the MVP file

Unlike the components, the probability update does not read the file that it writes. -/

section
variable {s t : State} (hc : t.config = s.config) (hm : t.mem = s.mem)
include hc hm

theorem fetchAt_congr : fetchAt t = fetchAt s := by
  funext pos endAddr
  simp only [fetchAt, State.memByte, hc, hm]

theorem normalise_congr : normalise t = normalise s := by
  funext fuel
  induction fuel with
  | zero => rfl
  | succ fuel ih =>
    funext b
    simp only [normalise, shiftOnce, fetchByte_eq, fetchAt_congr hc hm, ih]

theorem readBit_congr : readBit t = readBit s := by
  funext prob b
  rw [readBit_eq, readBit_eq, normalise_congr hc hm]

theorem readUint_congr (prob : Byte) (n : Nat) : readUint t prob n = readUint s prob n := by
  induction n with
  | zero => rfl
  | succ n ih =>
    funext b
    simp only [readUint, readBit_congr hc hm, ih]

theorem readEntry_congr : readEntry t = readEntry s := by
  funext c j b
  simp only [readEntry, hc, readBit_congr hc hm, readUint_congr hc hm]

theorem updateEntries_congr (l : List (Comp × Fin 19)) : updateEntries t l = updateEntries s l := by
  induction l with
  | nil => rfl
  | cons x l ih =>
    funext f b
    obtain ⟨c, j⟩ := x
    simp only [updateEntries, readEntry_congr hc hm, ih]

end

/-! ### The update entry by entry (R128) -/

/-- The state a command leaves, where it completes with the decoder bound. -/
def completed : Host.Outcome State Fault Refusal → Option State
  | .next t => if t.bdReady = false then none else some t
  | _ => none

theorem completed_readOutcome_ok {α : Type} (i : Instr) {s : State} (hr : s.bdReady = true) (g : α → Word) (a : α)
    (e : Bd) :
    completed (readOutcome i s g (.ok (a, e))) = some (s.finishRead (g a) e.toRegs) :=
  if_neg (by simp [hr])

theorem completed_readOutcome_error {α : Type} (i : Instr) (s : State) (g : α → Word) (x : BdStop) :
    completed (readOutcome i s g (.error x)) = none := by
  cases x <;> rfl

/-- The flag and, when RESULT is not 0, the literal and the write of the entry. -/
theorem entryByCommands_eq (s : State) (c : Comp) (j : Fin 19) :
    entryByCommands s c j = (completed (exec (.bdReadBit (s.config.mvpUpdProb.get c j)) s)).bind fun t =>
      if t.result = 0 then some t
      else (completed (exec (.bdReadUint 128 7) t)).map fun u =>
        { u with mvp := u.mvp.set c j (if u.result = 0 then 1 else (u.result * 2).setWidth 8) } := by
  unfold entryByCommands
  cases exec (.bdReadBit (s.config.mvpUpdProb.get c j)) s with
  | fault | refused => rfl
  | next t =>
    cases ht : t.bdReady with
    | false => simp only [completed, ht, if_true, Option.bind_none]
    | true =>
      simp only [completed, ht, Bool.true_eq_false, if_false, Option.bind_some]
      split
      · rfl
      · cases exec (.bdReadUint 128 7) t with
        | fault | refused => rfl
        | next u => cases hu : u.bdReady <;> simp [hu]

/-- The file with an entry replaced, where a new value has been read. -/
def replaceEntry (f : MvpFile) (c : Comp) (j : Fin 19) : Option Byte → MvpFile
  | none => f
  | some v => f.set c j v

/-- The state after one entry done with commands. -/
def State.afterEntry (s : State) (c : Comp) (j : Fin 19) (o : Option Byte) (r : Word) (e : Bd) : State :=
  { s with mvp := replaceEntry s.mvp c j o, result := r, bd := e.toRegs }

theorem State.afterEntry_config (s : State) (c : Comp) (j : Fin 19) (o : Option Byte) (r : Word) (e : Bd) :
    (s.afterEntry c j o r e).config = s.config := rfl

theorem State.afterEntry_mem (s : State) (c : Comp) (j : Fin 19) (o : Option Byte) (r : Word) (e : Bd) :
    (s.afterEntry c j o r e).mem = s.mem := rfl

/-- The value the host writes for the 7-bit literal in RESULT is the promoted one (R128). -/
theorem hostValue_eq_promote {x : Nat} (h : x < 128) :
    (if BitVec.ofNat 32 x = 0 then 1 else (BitVec.ofNat 32 x * 2).setWidth 8) = promote x := by
  have key : ∀ x : Fin 128,
      (if BitVec.ofNat 32 x = 0 then 1 else (BitVec.ofNat 32 x * 2).setWidth 8) = promote x := by decide
  exact key ⟨x, h⟩

theorem readEntry_eq (s : State) (c : Comp) (j : Fin 19) (b : Bd) :
    readEntry s c j b = (readBit s (s.config.mvpUpdProb.get c j) b).bind fun r =>
      if r.1 then (readUint s 128 7 r.2).bind fun q => .ok (some (promote q.1), q.2) else .ok (none, r.2) := rfl

/-- An entry done with commands meets a fault where `readEntry` stops, and replaces the entry where it answers (R128). -/
theorem entryByCommands_cases {s : State} (hr : s.bdReady = true) (hb : s.bd.Bound) (c : Comp) (j : Fin 19) :
    (∃ x, readEntry s c j s.bd.toBd = .error x ∧ entryByCommands s c j = none) ∨
      ∃ o r e, readEntry s c j s.bd.toBd = .ok (o, e) ∧ entryByCommands s c j = some (s.afterEntry c j o r e) := by
  rw [readEntry_eq, entryByCommands_eq, exec_bdReadBit _ s hr]
  cases h1 : readBit s (s.config.mvpUpdProb.get c j) s.bd.toBd with
  | error x => exact .inl ⟨x, rfl, by rw [completed_readOutcome_error, Option.bind_none]⟩
  | ok p =>
    obtain ⟨flag, b1⟩ := p
    rw [completed_readOutcome_ok _ hr, Option.bind_some, State.finishRead_result]
    cases flag with
    | false => exact .inr ⟨none, _, b1, rfl, rfl⟩
    | true =>
      have hb1 : b1.toRegs.toBd = b1 := b1.toBd_toRegs (readBit_ok (s.bd.ok_of_bound hb) h1).1
      have hr1 : (s.finishRead (BitVec.ofNat 32 true.toNat) b1.toRegs).bdReady = true := hr
      rw [if_neg (by decide), exec_bdReadUint 128 7 _ (by decide) hr1, State.finishRead_bd, hb1,
        readUint_congr (State.finishRead_config ..) (State.finishRead_mem ..), show (7 : BitVec 6).toNat = 7 from rfl]
      simp only [Except.bind, if_true]
      cases h2 : readUint s 128 7 b1 with
      | error x => exact .inl ⟨x, rfl, by rw [completed_readOutcome_error, Option.map_none]⟩
      | ok q =>
        obtain ⟨x, e⟩ := q
        refine .inr ⟨some (promote x), BitVec.ofNat 32 x, e, rfl, ?_⟩
        rw [completed_readOutcome_ok _ hr1, Option.map_some, State.finishRead_result, State.finishRead_mvp,
          hostValue_eq_promote (readUint_lt h2)]
        rfl

/-- The loop after an entry that was read goes on as from the state the entry's commands leave. -/
theorem updateEntries_cons_afterEntry {s : State} (hb : s.bd.Bound) {c : Comp} {j : Fin 19} {o : Option Byte} {e : Bd}
    (h : readEntry s c j s.bd.toBd = .ok (o, e)) (l : List (Comp × Fin 19)) (r : Word) :
    (s.afterEntry c j o r e).bd.Bound ∧
      updateEntries s ((c, j) :: l) s.mvp s.bd.toBd =
        updateEntries (s.afterEntry c j o r e) l (s.afterEntry c j o r e).mvp (s.afterEntry c j o r e).bd.toBd := by
  have hok := ((Reads.readEntry s c j).ok (s.bd.ok_of_bound hb) h).1
  have hcongr : updateEntries (s.afterEntry c j o r e) l = updateEntries s l :=
    updateEntries_congr (State.afterEntry_config ..) (State.afterEntry_mem ..) l
  have hbd : (s.afterEntry c j o r e).bd.toBd = e := e.toBd_toRegs hok
  refine ⟨e.bound_of_ok hok, ?_⟩
  rw [hcongr, hbd]
  cases o <;> simp only [updateEntries, h] <;> rfl

theorem updateByCommands_cons (c : Comp) (j : Fin 19) (l : List (Comp × Fin 19)) (s : State) :
    updateByCommands ((c, j) :: l) s = (entryByCommands s c j).bind (updateByCommands l) := rfl

/-- The loop of MVP_UPDATE against the same entries done with commands: both complete, with the same file and decoder, or both
stop at the same entry, and the loop leaves the file of the entries before it (R128, R210). -/
theorem updateByCommands_cases {s : State} (hr : s.bdReady = true) (hb : s.bd.Bound) (l : List (Comp × Fin 19)) :
    (∃ f e r, updateEntries s l s.mvp s.bd.toBd = (f, .ok e) ∧
        updateByCommands l s = some { s with mvp := f, result := r, bd := e.toRegs }) ∨
      ∃ x n u, updateEntries s l s.mvp s.bd.toBd = (u.mvp, .error x) ∧ updateByCommands l s = none ∧ n < l.length ∧
        updateByCommands (l.take n) s = some u ∧ updateByCommands (l.take (n + 1)) s = none := by
  induction l generalizing s with
  | nil => exact .inl ⟨s.mvp, s.bd.toBd, s.result, rfl, by rw [BdRegs.toRegs_toBd]; rfl⟩
  | cons a l ih =>
    obtain ⟨c, j⟩ := a
    rcases entryByCommands_cases hr hb c j with ⟨x, h, hcmd⟩ | ⟨o, r, e, h, hcmd⟩
    · refine .inr ⟨x, 0, s, by simp only [updateEntries, h], ?_, Nat.succ_pos _, rfl, ?_⟩ <;>
        simp only [List.take_succ_cons, updateByCommands_cons, hcmd, Option.bind_none]
    · obtain ⟨hb', hloop⟩ := updateEntries_cons_afterEntry hb h l r
      rw [hloop, updateByCommands_cons, hcmd, Option.bind_some]
      rcases ih (s := s.afterEntry c j o r e) hr hb' with h | ⟨x, n, u, hx, hnone, hn, hu, hu1⟩
      · exact .inl h
      · refine .inr ⟨x, n + 1, u, hx, hnone, Nat.succ_lt_succ hn, ?_, ?_⟩ <;>
          rwa [List.take_succ_cons, updateByCommands_cons, hcmd, Option.bind_some]

/-- Settles O33: the entries done with commands complete only where the loop does. -/
theorem mvpUpdateIsEntryCommands : Obligations.MvpUpdateIsEntryCommands := by
  intro s t hr hb ht
  rw [exec_mvpUpdate s hr]
  rcases updateByCommands_cases hr hb mvpEntries with ⟨f, e, r, hloop, hcmd⟩ | ⟨x, n, u, -, hcmd, -⟩
  · obtain rfl := Option.some.inj (hcmd.symm.trans ht)
    rw [hloop]
    rfl
  · simp [hcmd] at ht

/-- Settles O34: the entry at which the loop stops is the one whose commands meet the fault. -/
theorem truncatedUpdateKeepsPrefix : Obligations.TruncatedUpdateKeepsPrefix := by
  intro s t hr hb hcause ht htc
  rw [exec_mvpUpdate s hr] at ht
  rcases updateByCommands_cases hr hb mvpEntries with ⟨f, e, r, hloop, -⟩ | ⟨x, n, u, hloop, -, hn, hu, hu1⟩
  · rw [hloop, updateOutcome, Host.Outcome.next.injEq] at ht
    subst ht
    simp [hcause] at htc
  · rw [hloop] at ht
    cases x with
    | diverges => simp [updateOutcome] at ht
    | truncated =>
      rw [updateOutcome, Host.Outcome.next.injEq] at ht
      subst ht
      exact ⟨n, u, hn, hu, hu1, by simp, rfl, by simp⟩

end Sys2Proof.Machine
end

section
/-! The interpolation filters of motion compensation (spec/42_motion_comp.md R140, R141, R144 to R147, R156). -/

namespace Sys2Proof.Machine

/-! ### Phase 1 of the luma filter (R144, R156) -/

/-- The copied and shifted sample of a horizontal fraction 0 is the sum with row 0 too (R156). -/
theorem lumaPhase1_eq_sixTap (s : State) (d : RefDesc) (x y : Int) (hx r : Nat) :
    lumaPhase1 s d x y hx r = sixTap hx fun u => lumaSample s d (x + u - 2) (y + r - 2) := by
  rw [lumaPhase1]
  split
  · next h => simp [h, sixTap_zero]
  · rfl

theorem lumaPhase1_zero (s : State) (d : RefDesc) (x y : Int) (r : Nat) :
    lumaPhase1 s d x y 0 r = lumaSample s d x (y + r - 2) * 128 := rfl

/-- The phase-1 sum of the row at the vertical distance dy, tap by tap (R140, R144). -/
def rowSum (s : State) (d : RefDesc) (x y : Int) (hx : Nat) (dy : Int) : Int :=
  let l (dx : Int) : Int := lumaSample s d (x + dx) (y + dy)
  tapSum hx (l (-2)) (l (-1)) (l 0) (l 1) (l 2) (l 3)

theorem lumaPhase1_eq_rowSum {hx : Nat} (h : hx ∈ [0, 2, 4, 6]) (s : State) (d : RefDesc) (x y : Int) (r : Nat) :
    lumaPhase1 s d x y hx r = rowSum s d x y hx (r - 2) := by
  rw [lumaPhase1_eq_sixTap, sixTap_eq_tapSum h]
  simp only [rowSum, add_sub_assoc]
  rfl

/-- In a row the positive taps weigh at most 160 and the negative ones at most 32, 128 in all (R140, R146). -/
theorem sixTap_bounds {k : Nat} (hk : k ∈ [0, 2, 4, 6]) {v : Nat → Int} {lo hi : Int} (hv : ∀ u, lo ≤ v u ∧ v u ≤ hi) :
    160 * lo - 32 * hi ≤ sixTap k v ∧ sixTap k v ≤ 160 * hi - 32 * lo := by
  have h0 := hv 0
  have h1 := hv 1
  have h2 := hv 2
  have h3 := hv 3
  have h4 := hv 4
  have h5 := hv 5
  rw [sixTap_eq_tapSum hk]
  simp only [List.mem_cons, List.not_mem_nil, or_false] at hk
  rcases hk with rfl | rfl | rfl | rfl <;> simp only [tapSum] <;> omega

/-- Phase-1 values are sums over bytes (R146). -/
theorem lumaPhase1_bounds {hx : Nat} (h : hx ∈ [0, 2, 4, 6]) (s : State) (d : RefDesc) (x y : Int) (r : Nat) :
    -8160 ≤ lumaPhase1 s d x y hx r ∧ lumaPhase1 s d x y hx r ≤ 40800 := by
  rw [lumaPhase1_eq_sixTap]
  exact sixTap_bounds h fun u => lumaSample_bounds s d (x + u - 2) (y + r - 2)

/-! ### Wrapping to 16 bits (R17, R146) -/

theorem wrap16_bounds (v : Int) : -32768 ≤ wrap16 v ∧ wrap16 v ≤ 32767 :=
  ⟨BitVec.le_toInt _, Int.le_of_lt_add_one BitVec.toInt_lt⟩

/-- Only a value above the 16-bit range is changed, where none is below it. -/
theorem wrap16_ne_iff {v : Int} (h : -32768 ≤ v) : wrap16 v ≠ v ↔ 32767 < v := by
  constructor
  · intro hne
    by_contra hle
    exact hne (toInt_ofInt_of_lt (n := 15) (by omega) (by omega))
  · have := wrap16_bounds v
    omega

theorem lumaTemp_of_noWrap {s : State} (hw : s.config.tempWrap16 = false) (d : RefDesc) (x y : Int) (hx r : Nat) :
    lumaTemp s d x y hx r = lumaPhase1 s d x y hx r := by
  simp [lumaTemp, hw]

/-- A horizontal fraction 0 wraps nothing: a byte times 128 has 16 bits (R146). -/
theorem lumaTemp_zero (s : State) (d : RefDesc) (x y : Int) (r : Nat) :
    lumaTemp s d x y 0 r = lumaSample s d x (y + r - 2) * 128 := by
  have hs := lumaSample_bounds s d x (y + r - 2)
  have hwrap : wrap16 (lumaSample s d x (y + r - 2) * 128) = lumaSample s d x (y + r - 2) * 128 :=
    toInt_ofInt_of_lt (n := 15) (by omega) (by omega)
  simp only [lumaTemp, lumaPhase1_zero, hwrap, ite_self]

/-- Either no value is wrapped or every value has 16 bits. -/
theorem lumaTemp_bounds {hx : Nat} (h : hx ∈ [0, 2, 4, 6]) (s : State) (d : RefDesc) (x y : Int) :
    (∀ r, -8160 ≤ lumaTemp s d x y hx r ∧ lumaTemp s d x y hx r ≤ 40800)
      ∨ ∀ r, -32768 ≤ lumaTemp s d x y hx r ∧ lumaTemp s d x y hx r ≤ 32767 := by
  simp only [lumaTemp]
  split
  · exact .inr fun r => wrap16_bounds _
  · exact .inl (lumaPhase1_bounds h s d x y)

/-- Phase-2 sums are sums over such values (R146, log entry 3). -/
theorem abs_sixTap_lumaTemp_le {hx hy : Nat} (h : hx ∈ [0, 2, 4, 6]) (h' : hy ∈ [0, 2, 4, 6]) (s : State) (d : RefDesc)
    (x y : Int) : |sixTap hy (lumaTemp s d x y hx)| ≤ 160 * 40800 + 32 * 8160 := by
  rw [abs_le]
  rcases lumaTemp_bounds h s d x y with ht | ht
  · have := sixTap_bounds h' ht
    omega
  · have := sixTap_bounds h' ht
    omega

/-! ### The two roundings (R144, R145, R156) -/

theorem lumaTempRfc_eq (s : State) (d : RefDesc) (x y : Int) (hx r : Nat) :
    lumaTempRfc s d x y hx r = clip255 (shr (lumaPhase1 s d x y hx r + 64) 7) := by
  rw [lumaTempRfc, lumaPhase1_eq_sixTap]

/-- A horizontal pass at fraction 0 gives the sample. -/
theorem lumaTempRfc_zero (s : State) (d : RefDesc) (x y : Int) (r : Nat) :
    lumaTempRfc s d x y 0 r = lumaSample s d x (y + r - 2) := by
  obtain ⟨h0, h1⟩ := lumaSample_bounds s d x (y + r - 2)
  rw [lumaTempRfc_eq, lumaPhase1_zero, clip255_round _ h0 h1]

/-- A vertical pass at fraction 0 gives the value of the middle row. -/
theorem luma6Rfc_zero_right (s : State) (d : RefDesc) (x y : Int) (hx : Nat) :
    luma6Rfc s d x y hx 0 = lumaTempRfc s d x y hx 2 := by
  obtain ⟨h0, h1⟩ := clip255_bounds (shr (lumaPhase1 s d x y hx 2 + 64) 7)
  rw [luma6Rfc, sixTap_zero, lumaTempRfc_eq, clip255_round _ h0 h1]

theorem luma6Doc_zero_right (s : State) (d : RefDesc) (x y : Int) (hx : Nat) :
    luma6Doc s d x y hx 0 = clip255 (shr (lumaTemp s d x y hx 2 + 64) 7) := rfl

theorem luma6Doc_eq_luma6Rfc_of_vertical_zero {s : State} (hw : s.config.tempWrap16 = false) (d : RefDesc) (x y : Int)
    (hx : Nat) : luma6Doc s d x y hx 0 = luma6Rfc s d x y hx 0 := by
  rw [luma6Doc_zero_right, luma6Rfc_zero_right, lumaTempRfc_eq, lumaTemp_of_noWrap hw]

theorem sixTap_mul_right (k : Nat) (v : Nat → Int) (c : Int) : (sixTap k fun r => v r * c) = sixTap k v * c := by
  simp only [sixTap]
  ring

/-- Rounding once from 14 bits is rounding from 7 bits where phase 1 scaled by 128. -/
theorem shr_scaled_round (v : Int) : shr (v * 128 + 8192) 14 = shr (v + 64) 7 := by
  simp only [shr]
  omega

/-- With a horizontal fraction 0, DOC is RFC_TWO_PASS (R145). -/
theorem luma6Doc_eq_luma6Rfc_of_horizontal_zero (s : State) (d : RefDesc) (x y : Int) (hy : Nat) :
    luma6Doc s d x y 0 hy = luma6Rfc s d x y 0 hy := by
  have hdoc : lumaTemp s d x y 0 = fun r : Nat => lumaSample s d x (y + r - 2) * 128 := funext (lumaTemp_zero s d x y)
  have hrfc : lumaTempRfc s d x y 0 = fun r : Nat => lumaSample s d x (y + r - 2) := funext (lumaTempRfc_zero s d x y)
  by_cases h : hy = 0
  · subst h
    rw [luma6Doc_zero_right, luma6Rfc_zero_right, lumaTempRfc_eq, lumaTemp_zero, lumaPhase1_zero]
  · rw [luma6Doc, if_neg h, luma6Rfc, hdoc, hrfc, sixTap_mul_right, shr_scaled_round]

theorem luma6Rfc_zero_zero (s : State) (d : RefDesc) (x y : Int) : luma6Rfc s d x y 0 0 = lumaSample s d x y := by
  rw [luma6Rfc_zero_right, lumaTempRfc_zero]
  simp

theorem luma6Doc_zero_zero (s : State) (d : RefDesc) (x y : Int) : luma6Doc s d x y 0 0 = lumaSample s d x y := by
  rw [luma6Doc_eq_luma6Rfc_of_horizontal_zero, luma6Rfc_zero_zero]

theorem luma6_zero_zero (s : State) (d : RefDesc) (x y : Int) : luma6 s d x y 0 0 = lumaSample s d x y := by
  rw [luma6]
  split
  · exact luma6Doc_zero_zero s d x y
  · exact luma6Rfc_zero_zero s d x y

/-- Settles O49: a fraction 0 makes its pass the identity, and row by row the sums are those of the taps. -/
theorem roundingsAgreeOnOneAxis : Obligations.RoundingsAgreeOnOneAxis := by
  intro s d x y
  refine ⟨fun hw h _ => ⟨luma6Doc_eq_luma6Rfc_of_vertical_zero hw d x y h,
    luma6Doc_eq_luma6Rfc_of_horizontal_zero s d x y h⟩, luma6Doc_zero_zero s d x y, luma6Rfc_zero_zero s d x y, ?_⟩
  intro hx h hy h' l pass t hround
  have ht (r : Nat) : lumaTempRfc s d x y hx r = t (r - 2) := by
    rw [lumaTempRfc_eq, lumaPhase1_eq_rowSum h, clip255_eq_max_min]
    rfl
  rw [luma6, hround]
  simp only [luma6Rfc, sixTap_eq_tapSum h', ht, clip255_eq_max_min]
  rfl

/-- Settles O50: row by row the sums are those of the taps, whose weights bound them. -/
theorem lumaIntermediateBounds : Obligations.LumaIntermediateBounds := by
  intro s d x y hx h
  refine ⟨?_, fun r => ?_, fun hy h' => ?_⟩
  · intro hy h' l keep t hround
    have ht (r : Nat) : lumaTemp s d x y hx r = t (r - 2) := by
      rw [lumaTemp, lumaPhase1_eq_rowSum h]
      rfl
    rw [luma6, hround]
    simp only [luma6Doc, sixTap_eq_tapSum h', ht, clip255_eq_max_min]
    rfl
  · obtain ⟨hlo, hhi⟩ := lumaPhase1_bounds h s d x y r
    exact ⟨hlo, hhi, wrap16_ne_iff (by omega)⟩
  · exact abs_sixTap_lumaTemp_le h (List.mem_cons_of_mem 0 h') s d x y

/-! ### The bilinear filter (R147) -/

/-- The two weights of a pass sum to 128, so that it stays between the bounds of its samples (R147). -/
theorem bilPass_bounds {k a b : Int} (hk0 : 0 ≤ k) (hk7 : k ≤ 7) (ha : 0 ≤ a ∧ a ≤ 255) (hb : 0 ≤ b ∧ b ≤ 255) :
    0 ≤ bilPass k a b ∧ bilPass k a b ≤ 255 := by
  have h0 : 0 ≤ a * (128 - 16 * k) + b * (16 * k) :=
    add_nonneg (mul_nonneg ha.1 (by omega)) (mul_nonneg hb.1 (by omega))
  have h1 : a * (128 - 16 * k) + b * (16 * k) ≤ 255 * 128 :=
    calc a * (128 - 16 * k) + b * (16 * k)
        ≤ 255 * (128 - 16 * k) + 255 * (16 * k) :=
          add_le_add (mul_le_mul_of_nonneg_right ha.2 (by omega)) (mul_le_mul_of_nonneg_right hb.2 (by omega))
      _ = 255 * 128 := by ring
  rw [bilPass_eq]
  omega

theorem bil_zero_left (s : State) (d : RefDesc) (p : Plane) (x y gy : Int) :
    bil s d p x y 0 gy = bilPass gy (chromaSample s d p x y) (chromaSample s d p x (y + 1)) := by
  simp only [bil, bilPass_zero]

theorem bil_zero_right (s : State) (d : RefDesc) (p : Plane) (x y gx : Int) :
    bil s d p x y gx 0 = bilPass gx (chromaSample s d p x y) (chromaSample s d p (x + 1) y) := bilPass_zero _ _

theorem bil_zero_zero (s : State) (d : RefDesc) (p : Plane) (x y : Int) : bil s d p x y 0 0 = chromaSample s d p x y := by
  rw [bil_zero_left, bilPass_zero]

/-- Settles O51: each pass keeps the range of its samples. -/
theorem bilinearStaysInByteRange : Obligations.BilinearStaysInByteRange := by
  intro s d p x y gx gy hx0 hx7 hy0 hy7
  have hrow (y : Int) := bilPass_bounds hx0 hx7 (chromaSample_bounds s d p x y) (chromaSample_bounds s d p (x + 1) y)
  refine ⟨?_, bilPass_bounds hy0 hy7 (hrow y) (hrow (y + 1)),
    fun a b ha ha' hb hb' => bilPass_bounds hx0 hx7 ⟨ha, ha'⟩ ⟨hb, hb'⟩, bil_zero_left s d p x y gy, bil_zero_right s d p x y gx⟩
  simp only [bil, bilPass_eq, chromaSample, add_zero]

/-- Settles O46: row 0 of either filter table weighs one sample only. -/
theorem phaseZeroIsIdentity : Obligations.PhaseZeroIsIdentity := by
  intro s d x y
  refine ⟨luma6_zero_zero s d x y, fun p => bil_zero_zero s d p x y, fun r _ => ?_⟩
  rw [← lumaPhase1_eq_sixTap]
  rfl

end Sys2Proof.Machine
end

section
/-! The motion-compensation commands: what they write to WS, byte by byte (spec/42_motion_comp.md R148 to R158). -/

namespace Sys2Proof.Machine

/-! ### Missing references and bad descriptors (R150, R155) -/

theorem wsByte_writeWs_missingCells (s : State) (k : Nat) :
    (s.writeWs missingCells).wsByte k = if inRegions k then 128 else s.wsByte k := by
  split
  · next hk =>
    rcases (inRegions_iff k).1 hk with ⟨i, hi, j, hj, rfl⟩ | ⟨p, i, hi, j, hj, rfl⟩
    · exact missingCells_spec.wsByte_luma s i j hi hj
    · exact missingCells_spec.wsByte_chroma s p i j hi hj
  · next hk => exact missingCells_spec.wsByte_other s k (by simpa using hk)

/-- Settles O41: the cells of the fill are 128, at every byte of the regions. -/
theorem missingReferenceFills : Obligations.MissingReferenceFills := by
  intro i ref t s hi hf hv
  refine ⟨s.ws.writeAll missingCells, ?_, fun k _ => wsByte_writeWs_missingCells s k⟩
  rw [exec_mc_missing hi hf hv, State.missingFill_eq]

/-- Settles O42: BAD_REF_DESC has no side effect. -/
theorem badDescriptorRaises : Obligations.BadDescriptorRaises := by
  intro i ref t s hi hf hv hw
  rw [exec_mc_badDesc hi hf hv hw, State.raise_plain _ _ _ (by decide)]

/-! ### The bytes of a macroblock (R45, R152, R154) -/

/-- WS holds the macroblock with the given luma and chroma bytes, and the bytes of `s` outside the three regions (R45). -/
structure HoldsMacroblock (s : State) (m : Memory) (luma : Nat → Nat → Byte) (chroma : Plane → Nat → Nat → Byte) : Prop where
  luma : ∀ i j : Nat, i < 16 → j < 16 → (s.withWs m).wsByte ((1 + i) * 32 + (8 + j)) = luma i j
  chroma : ∀ p, ∀ i j : Nat, i < 8 → j < 8 → (s.withWs m).wsByte ((18 + i) * 32 + (planeCol p + j)) = chroma p i j
  other : ∀ k, inRegions k = false → (s.withWs m).wsByte k = s.wsByte k

/-- The cells of a macroblock, written. -/
theorem CellsOf.holdsMacroblock {cells : List Host.Cell} {luma : Nat → Nat → Byte} {chroma : Plane → Nat → Nat → Byte}
    (h : CellsOf cells luma chroma) (s : State) : HoldsMacroblock s (s.ws.writeAll cells) luma chroma where
  luma := h.wsByte_luma s
  chroma := h.wsByte_chroma s
  other := h.wsByte_other s

/-- The macroblock determines WS. -/
theorem HoldsMacroblock.wsByte_eq {s : State} {m m' : Memory} {luma luma' : Nat → Nat → Byte}
    {chroma chroma' : Plane → Nat → Nat → Byte} (h : HoldsMacroblock s m luma chroma)
    (h' : HoldsMacroblock s m' luma' chroma') (hl : ∀ i j, i < 16 → j < 16 → luma' i j = luma i j)
    (hc : ∀ p i j, i < 8 → j < 8 → chroma' p i j = chroma p i j) (k : Nat) :
    (s.withWs m').wsByte k = (s.withWs m).wsByte k := by
  cases hk : inRegions k with
  | false => rw [h.other k hk, h'.other k hk]
  | true =>
    rcases (inRegions_iff k).1 hk with ⟨i, hi, j, hj, rfl⟩ | ⟨p, i, hi, j, hj, rfl⟩
    · exact (h'.luma i j hi hj).trans ((hl i j hi hj).trans (h.luma i j hi hj).symm)
    · exact (h'.chroma p i j hi hj).trans ((hc p i j hi hj).trans (h.chroma p i j hi hj).symm)

/-- The chroma phases of MC_PREDICT (R151). -/
theorem chromaPhase_chromaGate {s : State} {vx vy gx gy : Int}
    (hg : s.config.chromaFastpath = .lumaGated ∧ vx % 4 = 0 ∧ vy % 4 = 0 → gx = 0 ∧ gy = 0)
    (hn : ¬ (s.config.chromaFastpath = .lumaGated ∧ vx % 4 = 0 ∧ vy % 4 = 0) → gx = vx % 8 ∧ gy = vy % 8) :
    chromaPhase (chromaGate s vx vy) vx = gx ∧ chromaPhase (chromaGate s vx vy) vy = gy := by
  cases h : chromaGate s vx vy with
  | true =>
    obtain ⟨rfl, rfl⟩ := hg ((chromaGate_iff s vx vy).1 h)
    exact ⟨rfl, rfl⟩
  | false =>
    obtain ⟨rfl, rfl⟩ := hn fun hgate => absurd ((chromaGate_iff s vx vy).2 hgate) (by simp [h])
    exact ⟨rfl, rfl⟩

/-- Settles O43: the pixels of `predictCells`, with the displacement and the phases written out. -/
theorem mcPredictWritesPrediction : Obligations.McPredictWritesPrediction := by
  intro ref t s hf hv hw d vx vy gated
  have hm := (predictCells_spec s d).holdsMacroblock s
  refine ⟨_, exec_mc_ok rfl hf hv hw, fun i j hi hj => (hm.luma i j hi hj).trans (lumaPixel_eq ..),
    fun i j hi hj gx gy hg hn => ?_, hm.other⟩
  obtain ⟨hgx, hgy⟩ := chromaPhase_chromaGate hg hn
  have hpixel (p : Plane) := (hm.chroma p i j hi hj).trans (chromaPixel_eq ..)
  rw [hgx, hgy] at hpixel
  exact ⟨hpixel .cb, hpixel .cr⟩

/-- The luma byte of a pixel under MC_PREDICT_SPLIT, with its sub-block's MV register (R154). -/
theorem splitLuma_eq (s : State) (d : RefDesc) {i j : Nat} (hi : i < 16) (hj : j < 16) :
    splitLuma s d i j = lumaPixel s d (16 * s.mbx) (16 * s.mby)
      (mvX s.submv[4 * (i / 4) + j / 4]) (mvY s.submv[4 * (i / 4) + j / 4]) i j := by
  rw [splitLuma, State.submvWord_eq]

/-- Settles O44: the pixels of `splitCells`, with the displacement and the phases written out. -/
theorem mcSplitWritesPrediction : Obligations.McSplitWritesPrediction := by
  intro ref t s hf hv hw d
  have hm := (splitCells_spec s d).holdsMacroblock s
  refine ⟨_, exec_mc_ok rfl hf hv hw, fun i j hi hj => ?_, fun i j hi hj => ?_, hm.other⟩
  · exact (hm.luma i j hi hj).trans ((splitLuma_eq s d hi hj).trans (lumaPixel_eq ..))
  · have hpixel (p : Plane) := (hm.chroma p i j hi hj).trans (chromaPixel_eq ..)
    exact ⟨hpixel .cb, hpixel .cr⟩

/-! ### The mean MV of a quadrant (R153, R158) -/

/-- The mean of a component, with its quadrant's MV registers (R153). -/
theorem splitChroma_eq (s : State) (f : Word → Int) {ci cj : Nat} (hi : ci < 2) (hj : cj < 2) :
    splitChroma s f ci cj = (f s.submv[8 * ci + 2 * cj] + f s.submv[8 * ci + 2 * cj + 1] + f s.submv[8 * ci + 2 * cj + 4]
      + f s.submv[8 * ci + 2 * cj + 5] + 2) / 4 := by
  rw [splitChroma, quadrantSum, shr_two, State.submvWord_eq, State.submvWord_eq, State.submvWord_eq, State.submvWord_eq]

/-- Settles O45: the division by 4 is the floor. -/
theorem splitChromaMvIsRoundedMean : Obligations.SplitChromaMvIsRoundedMean := by
  intro s ci cj hi hj
  simp only [splitChroma_eq s _ hi hj]
  omega

/-- The mean of four equal MVs (R158). -/
theorem splitChroma_of_equal {s : State} {w : Word} (h : ∀ b : Fin 16, s.submv[b] = w) (f : Word → Int) {ci cj : Nat}
    (hi : ci < 2) (hj : cj < 2) : splitChroma s f ci cj = f w := by
  have hw (b : Nat) (hb : b < 16) : s.submv[b] = w := h ⟨b, hb⟩
  rw [splitChroma_eq s f hi hj, hw, hw, hw, hw]
  omega

/-- Settles O48: under EXACT the pixels of the two commands have the same MVs and phases. -/
theorem equalSplitMvsArePredict : Obligations.EqualSplitMvsArePredict := by
  intro ref t s hf hv hw hexact h
  refine ⟨fun ci cj hi hj => ⟨splitChroma_of_equal h mvX hi hj, splitChroma_of_equal h mvY hi hj⟩, _, _,
    exec_mc_ok rfl hf hv hw, exec_mc_ok rfl hf hv hw, ?_⟩
  have hgate : chromaGate s (mvX s.mbmv) (mvY s.mbmv) = false := by simp [chromaGate, hexact]
  refine ((predictCells_spec s _).holdsMacroblock s).wsByte_eq ((splitCells_spec s _).holdsMacroblock s)
    (fun i j hi hj => ?_) fun p i j hi hj => ?_
  · have hb : s.submv[4 * (i / 4) + j / 4] = s.mbmv := h ⟨4 * (i / 4) + j / 4, by omega⟩
    rw [splitLuma_eq s _ hi hj, hb]
  · rw [splitChromaByte, splitChroma_of_equal h mvX (by omega) (by omega), splitChroma_of_equal h mvY (by omega) (by omega),
      hgate]

/-! ### Whole-pixel MVs (R157) -/

theorem ofInt_lumaSample (s : State) (d : RefDesc) (x y : Int) :
    BitVec.ofInt 8 (lumaSample s d x y) = s.memByte (lumaAddr d x y) := by
  simp [lumaSample]

theorem ofInt_chromaSample (s : State) (d : RefDesc) (p : Plane) (x y : Int) :
    BitVec.ofInt 8 (chromaSample s d p x y) = s.memByte (chromaAddr s.config.chromaEdge d p x y) := by
  simp [chromaSample]

/-- Settles O47: the prediction of O43 at phases 0 is the sample. -/
theorem integerMvCopies : Obligations.IntegerMvCopies := by
  intro ref t s hf hv hw d vx vy hx hy
  obtain ⟨m, he, hluma, hchroma, -⟩ := mcPredictWritesPrediction ref t s hf hv hw
  refine ⟨m, he, fun i j hi hj => ?_, fun hphase i j hi hj => ?_⟩
  · rw [hluma i j hi hj, ← ofInt_lumaSample, ← luma6_zero_zero, add_right_comm, add_right_comm _ (vy / 4), hx, hy]
    rfl
  · have hn : ¬ (s.config.chromaFastpath = .lumaGated ∧ vx % 4 = 0 ∧ vy % 4 = 0) → 0 = vx % 8 ∧ 0 = vy % 8 := by
      intro hgate
      rcases hphase with ⟨h8x, h8y⟩ | hfast
      · exact ⟨h8x.symm, h8y.symm⟩
      · exact absurd ⟨hfast, hx, hy⟩ hgate
    obtain ⟨hcb, hcr⟩ := hchroma i j hi hj 0 0 (fun _ => ⟨rfl, rfl⟩) hn
    rw [bil_zero_zero, ofInt_chromaSample, add_right_comm, add_right_comm _ (i : Int)] at hcb hcr
    exact ⟨hcb, hcr⟩

end Sys2Proof.Machine
end

section
/-! The control flow (spec/43_control.md R180 to R182; spec/60_exceptions.md R226): NOP, the command a step runs, and runs of
supported host actions. -/

namespace Sys2Proof.Machine

/-! ### NOP (R180) -/

/-- A word with opcode 0 decodes only when it is 0: NOP has no operand bits (R82, R86). -/
theorem decode_eq_illegalOperand_of_opcode_zero {w : Word} (ho : w.toNat / 2 ^ 24 = 0) (hw : w.toNat ≠ 0) :
    decode w = .illegalOperand := by
  rw [decode_eq_illegalOperand_iff, ho]
  refine ⟨0, rfl, ?_⟩
  omega

/-- Settles O23: NOP's meaning is the state it is given, and its row of the opcode map fixes all bits. -/
theorem nopChangesNothing : Obligations.NopChangesNothing :=
  ⟨fun _ => rfl, fun _ => decode_eq_illegalOperand_of_opcode_zero⟩

/-! ### The command a step runs (R87, R181) -/

/-- While no fault is held, a word that decodes to a command runs it (R181). -/
theorem command_of_decode {w : Word} {s : State} {i : Instr} (hc : s.cause = none) (hd : decode w = .instr i) :
    command w s = exec i s := by
  simp [command, hc, hd]

/-- Settles O11: the step performs the write to CMD, and the word runs its command. -/
theorem stepRunsDecodedCommand : Obligations.StepRunsDecodedCommand := by
  intro s w rest i hp hc hd
  rw [step_of_pending hp]
  exact command_of_decode hc hd

/-! ### What a step leaves of the host's actions (R224) -/

/-- No word written to CMD changes the host's later actions. -/
theorem command_pending {w : Word} {s t : State} (h : command w s = .next t) : t.pending = s.pending := by
  rcases command_cases w s with ⟨-, hc⟩ | ⟨-, ⟨-, hc⟩ | ⟨-, hc⟩ | ⟨i, -, -, hc⟩⟩ <;> rw [hc] at h
  · exact Host.Outcome.next.inj h ▸ rfl
  · exact Host.Outcome.next.inj h ▸ State.raise_pending _ _ _
  · exact Host.Outcome.next.inj h ▸ State.raise_pending _ _ _
  · obtain ⟨-, -, -, -, -, -, -, -, hpending, -⟩ := commandsKeepHostRegisters i s t h
    exact hpending

/-- A write of a CSR address keeps the host's later actions. -/
theorem State.writeCsrAddr_pending (s : State) (addr : Byte) (v : Word) :
    (s.writeCsrAddr addr v).pending = s.pending := by
  rw [State.writeCsrAddr]
  split
  · rfl
  · obtain ⟨-, -, -, -, hpending, -⟩ := s.writeCsr_keeps _ v
    exact hpending

/-- No host action changes the actions after it. -/
theorem hostAct_pending {a : HostAction} {s t : State} (h : hostAct a s = .next t) : t.pending = s.pending := by
  cases a with
  | cmd w => exact command_pending h
  | csrOtherWidth addr bits => cases h
  | csrWrite addr v => exact Host.Outcome.next.inj h ▸ s.writeCsrAddr_pending addr v
  | _ => exact Host.Outcome.next.inj h ▸ rfl

/-- A step takes the next host action and leaves the others. -/
theorem step_pending {s t : State} (h : step s = .next t) : t.pending = s.pending.tail := by
  rcases step_cases h with ⟨hp, rfl⟩ | ⟨a, rest, hp, ha⟩
  · rw [hp, List.tail_nil]
  · rw [hp, List.tail_cons]
    exact hostAct_pending ha

/-! ### Runs of supported actions (R226, R239) -/

/-- A state whose every step goes on: the invariant holds, and the host takes supported actions only. -/
structure Runnable (s : State) : Prop where
  inv : Invariant s
  supported : ∀ a ∈ s.pending, a.supported = true

/-- A runnable state steps to a runnable one. -/
theorem Runnable.exists_step {s : State} (h : Runnable s) : ∃ t, step s = .next t ∧ Runnable t := by
  rcases step_next_or_csrOtherWidth h.inv.bd with ⟨t, ht⟩ | ⟨addr, bits, rest, hp⟩
  · refine ⟨t, ht, stepKeepsInvariant s t h.inv ht, fun a ha => ?_⟩
    rw [step_pending ht] at ha
    exact h.supported a (List.mem_of_mem_tail ha)
  · exact absurd (h.supported (.csrOtherWidth addr bits) (by simp [hp])) (by simp [HostAction.supported])

/-- A predicate whose states step to states that meet it holds at the end of runs of every length, none of which stops. -/
theorem run_of_exists_step {M : Host.Core} {P : M.State → Prop} (hstep : ∀ s, P s → ∃ t, M.step s = .next t ∧ P t) (k : Nat)
    (s : M.State) (h : P s) : ∃ t, M.run k s = .next t ∧ P t := by
  induction k generalizing s with
  | zero => exact ⟨s, rfl, h⟩
  | succ k ih =>
    obtain ⟨t, ht, hPt⟩ := hstep s h
    simpa only [Host.Core.run, ht] using ih t hPt

/-- Settles O5, by induction on the length of the run: a runnable state steps to a runnable one. -/
theorem runNeverStops : Obligations.RunNeverStops := by
  intro k s hs hsup
  obtain ⟨t, ht, hrun⟩ := run_of_exists_step (M := Sys2Proof.core) (P := Runnable) (fun _ h => h.exists_step) k s ⟨hs, hsup⟩
  exact ⟨t, ht, hrun.inv⟩

end Sys2Proof.Machine
end

section
/-! The exceptions (spec/60_exceptions.md R201 to R213): the faults of a command with what raises each cause, illegal words, the
halted engine, and the two ways a fault record ends. -/

namespace Sys2Proof.Machine

/-! ### The faults of a command (R201 to R210) -/

/-- What makes the command `i` raise a cause at the state `s` (R201, column "raised by"; R202 to R207). -/
def RaisedBy (i : Instr) (s : State) : Cause → Prop
  | .truncated => (i = .bdInit ∨ readsStream i = true) ∧ s.config.bdTail = .fault
  | .badStream => i = .bdInit
  | .illegalOpcode => False
  | .illegalOperand => i.wf = false ∨ i = .bdInit ∧ 2 ^ 32 ≤ s.bdSrcBase.toNat + s.bdSrcLen.toNat
  | .bdNotReady => readsStream i = true ∧ s.bdReady = false
  | .badRefDesc => (mcTag i).isSome = true

/-- A command that ends with a fault has raised its cause and done nothing before, except that a truncated MVP_UPDATE leaves the
MVP entries it has replaced (R209, R210). -/
theorem exec_raises {i : Instr} {s t : State} {c : Cause} (hs : s.cause = none) (h : exec i s = .next t)
    (ht : t.cause = some c) :
    RaisedBy i s c ∧ ∃ f, t = State.raise c (encode i) { s with mvp := f }
      ∧ (c ≠ .truncated ∨ i ≠ .mvpUpdate → f = s.mvp) := by
  have hcause : ∀ {c' : Cause} {u : State}, (State.raise c' (encode i) u).cause = some c → c' = c :=
    fun hu => Option.some.inj ((State.raise_cause _ _ _).symm.trans hu)
  cases Effect.of_exec h with
  | nop | bound | defaults | read | updated | filled | predicted => simp [hs] at ht
  | badOperand hw => exact hcause ht ▸ ⟨.inl hw, s.mvp, rfl, fun _ => rfl⟩
  | badBuffer hi hb => exact hcause ht ▸ ⟨.inr ⟨hi, hb⟩, s.mvp, rfl, fun _ => rfl⟩
  | notReady hi _ hr => exact hcause ht ▸ ⟨⟨hi, hr⟩, s.mvp, rfl, fun _ => rfl⟩
  | badDesc ref _ hi => exact hcause ht ▸ ⟨Option.isSome_of_eq_some hi, s.mvp, rfl, fun _ => rfl⟩
  | badStream hi => exact hcause ht ▸ ⟨hi, s.mvp, rfl, fun _ => rfl⟩
  | truncated f hi htail hf =>
    obtain rfl := hcause ht
    exact ⟨⟨hi.imp_right And.left, htail⟩, f, rfl, fun hc => hf (hc.resolve_left fun hn => hn rfl)⟩

/-- Settles O18: the command has raised its cause; `raise` writes the fault record and, for two causes, unbinds the decoder. -/
theorem faultingCommandEffects : Obligations.FaultingCommandEffects := by
  intro i s t c hs h ht
  obtain ⟨-, f, rfl, hf⟩ := exec_raises hs h ht
  refine ⟨State.raise_faultCmd _ _ _, State.raise_result _ _ _, State.raise_missref _ _ _, State.raise_ws _ _ _,
    State.raise_mem _ _ _, fun htrunc hstream => ?_, fun hc => ?_⟩
  · rw [hf (.inl htrunc), State.raise_plain _ _ _ ⟨htrunc, hstream⟩]
  · exact ⟨_, _, f, State.raise_unbinds _ _ _ hc, fun hi => hf (.inr hi)⟩

/-- Settles O19: the cause that is held is one that `RaisedBy` explains. -/
theorem causesRaisedByTheirCommands : Obligations.CausesRaisedByTheirCommands := by
  intro i s t hs h
  have hby : ∀ {c}, t.cause = some c → RaisedBy i s c := fun ht => (exec_raises hs h ht).1
  exact ⟨fun ht => hby ht, fun ht => hby ht, fun ht => hby ht, fun ht => hby ht, fun ht => hby ht⟩

/-! ### Illegal words (R204, R205) -/

section
variable {w : Word} {s : State} (hs : s.cause = none)
include hs

/-- While no fault is held, a word with an unassigned opcode raises ILLEGAL_OPCODE (R204). -/
theorem command_of_illegalOpcode (hd : decode w = .illegalOpcode) :
    command w s = .next { s with cause := some .illegalOpcode, faultCmd := w } := by
  simp [command, hs, hd, State.raise_plain]

/-- While no fault is held, a word with a must-be-zero bit set raises ILLEGAL_OPERAND (R205). -/
theorem command_of_illegalOperand (hd : decode w = .illegalOperand) :
    command w s = .next { s with cause := some .illegalOperand, faultCmd := w } := by
  simp [command, hs, hd, State.raise_plain]

end

/-- Settles O12: the step performs the write to CMD, and the decoder rejects the word. -/
theorem illegalWordRaises : Obligations.IllegalWordRaises := by
  intro s w rest hp hs
  rw [step_of_pending hp]
  exact ⟨command_of_illegalOpcode hs, command_of_illegalOperand hs⟩

/-! ### The halted engine (R211) -/

/-- While a fault is held every word is dropped, before it is decoded (R211). -/
theorem command_of_halted {s : State} (h : Halted s) (w : Word) : command w s = .next s := if_pos h

/-- Settles O15: the step performs the write to CMD, and the word is dropped. -/
theorem haltedCommandDropped : Obligations.HaltedCommandDropped := by
  intro s w rest hs hp
  rw [step_of_pending hp]
  exact command_of_halted (s := { s with pending := rest }) hs w

/-! ### The end of a fault (R212, R213) -/

/-- Address 0 is STATUS (Table 1). -/
theorem csrAt_eq_status_iff (addr : Byte) : csrAt addr = some .status ↔ addr = 0 := by
  rw [csrAt_eq_some_iff, BitVec.toNat_eq]
  exact eq_comm

/-- A write of address 0 is a write of STATUS. -/
theorem State.writeCsrAddr_zero (s : State) (v : Word) : s.writeCsrAddr 0 v = s.writeStatus v := rfl

/-- A write of STATUS with bit 0 = 1 clears the fault (R212). -/
theorem State.writeStatus_of_bit (s : State) {v : Word} (h : v.getLsbD 0 = true) : s.writeStatus v = s.clearFault :=
  if_pos h

/-- A write of STATUS with bit 0 = 0 does nothing (R212). -/
theorem State.writeStatus_of_not_bit (s : State) {v : Word} (h : v.getLsbD 0 = false) : s.writeStatus v = s :=
  if_neg (Bool.eq_false_iff.1 h)

/-- Settles O16: the write reaches STATUS, where bit 0 decides; reset answers Table 2. -/
theorem statusWriteClearsFault : Obligations.StatusWriteClearsFault := by
  refine fun s rest => ⟨fun v hp => ?_, fun hp => ⟨_, step_of_pending hp, State.resetBlock_cause _⟩⟩
  rw [step_of_pending hp, hostAct, State.writeCsrAddr_zero]
  exact ⟨fun hv => congrArg _ (State.writeStatus_of_bit _ hv), fun hv => congrArg _ (State.writeStatus_of_not_bit _ hv)⟩

/-- A write of a CSR keeps the fault record, unless it is STATUS with bit 0 = 1 (R212). -/
theorem State.writeCsr_faultRecord (s : State) (r : Csr) (v : Word) :
    ((s.writeCsr r v).cause = s.cause ∧ (s.writeCsr r v).faultCmd = s.faultCmd) ∨ r = .status ∧ v.getLsbD 0 = true := by
  cases r with
  | status =>
    cases hv : v.getLsbD 0 with
    | true => exact .inr ⟨rfl, rfl⟩
    | false =>
      rw [State.writeCsr, s.writeStatus_of_not_bit hv]
      exact .inl ⟨rfl, rfl⟩
  | _ => exact .inl ⟨rfl, rfl⟩

/-- The same of a write of a CSR address. -/
theorem State.writeCsrAddr_faultRecord (s : State) (addr : Byte) (v : Word) :
    ((s.writeCsrAddr addr v).cause = s.cause ∧ (s.writeCsrAddr addr v).faultCmd = s.faultCmd)
      ∨ addr = 0 ∧ v.getLsbD 0 = true := by
  rw [State.writeCsrAddr, ← csrAt_eq_status_iff]
  cases csrAt addr with
  | none => exact .inl ⟨rfl, rfl⟩
  | some r => simpa using s.writeCsr_faultRecord r v

/-- A host action on the halted engine keeps the fault record, unless it clears or resets it (R211 to R213). -/
theorem hostAct_faultRecord {a : HostAction} {s t : State} (hs : Halted s) (h : hostAct a s = .next t) :
    (t.cause = s.cause ∧ t.faultCmd = s.faultCmd) ∨ (∃ v, a = .csrWrite 0 v ∧ v.getLsbD 0 = true) ∨ a = .reset := by
  cases a with
  | cmd w =>
    obtain rfl : s = t := Host.Outcome.next.inj ((command_of_halted hs w).symm.trans h)
    exact .inl ⟨rfl, rfl⟩
  | csrWrite addr v =>
    obtain rfl : s.writeCsrAddr addr v = t := Host.Outcome.next.inj h
    rcases s.writeCsrAddr_faultRecord addr v with hkeep | ⟨rfl, hv⟩
    · exact .inl hkeep
    · exact .inr (.inl ⟨v, rfl, hv⟩)
  | csrOtherWidth addr bits => cases h
  | reset => exact .inr (.inr rfl)
  | csrRead | wsRead | wsWrite | memRead | memWrite => exact Host.Outcome.next.inj h ▸ .inl ⟨rfl, rfl⟩

/-- Settles O17: a step is idle or performs one host action. -/
theorem faultPersistsUntilCleared : Obligations.FaultPersistsUntilCleared := by
  intro s t c hs h
  rcases step_cases h with ⟨-, rfl⟩ | ⟨a, rest, hp, ha⟩
  · exact .inl ⟨hs, rfl⟩
  · have hhalted : Halted { s with pending := rest } := Option.isSome_of_eq_some hs
    rcases hostAct_faultRecord hhalted ha with ⟨hcause, hcmd⟩ | ⟨v, rfl, hv⟩ | rfl
    · exact .inl ⟨hcause.trans hs, hcmd⟩
    · exact .inr (.inl ⟨v, rest, hp, hv⟩)
    · exact .inr (.inr ⟨rest, hp⟩)

end Sys2Proof.Machine
end

section
/-! Reset (spec/70_reset_and_hazards.md R230 to R232, Table 2): what every CSR reads after it, reset as a host action, and the
invariant right after it. -/

namespace Sys2Proof.Machine

/-! ### The CSRs after reset (R230, Table 2) -/

/-- What a CSR address reads after reset (Table 2), `d` being MVP_DEFAULT: an MVP entry its default (R121), any other 0. -/
def resetValueAt (d : MvpFile) (addr : Byte) : Word :=
  match csrAt addr with
  | some (.mvp c j) => (d.get c j).setWidth 32
  | _ => 0

/-- With no fault held and the decoder not ready, STATUS reads 0 (R23). -/
theorem State.statusWord_eq_zero {s : State} (hc : s.cause = none) (hb : s.bdReady = false) : s.statusWord = 0 := by
  simp [State.statusWord, State.causeField, State.faultBit, hc, hb]

/-- Every register of a descriptor reads 0 after reset, for every tag (R39 to R42). -/
theorem RefFile.readField_zero (t : FrameTag) (f : RefField) :
    (RefFile.get ⟨RefDesc.zero, RefDesc.zero, RefDesc.zero⟩ t).readField f = 0 := by
  cases t <;> cases f <;> rfl

/-- After reset as a host action every CSR address reads its reset value, whatever the registers held before. -/
theorem State.readCsrAddr_resetBlock (s : State) (addr : Byte) :
    s.resetBlock.readCsrAddr addr = resetValueAt s.config.mvpDefault addr := by
  rw [State.readCsrAddr, resetValueAt]
  cases csrAt addr with
  | none => rfl
  | some r =>
    cases r with
    | status => exact State.statusWord_eq_zero rfl rfl
    | submv b => simp [State.readCsr, Vector.get_eq_getElem]
    | ref t f => exact RefFile.readField_zero t f
    | _ => rfl

/-- The reset state shows the same registers as a reset of it: the two differ in the draws of free values alone. -/
theorem State.readCsr_reset (r : Csr) : State.reset.readCsr r = State.reset.resetBlock.readCsr r := by
  cases r <;> rfl

/-- Every CSR address of the reset state reads its reset value. -/
theorem State.readCsrAddr_reset (addr : Byte) : State.reset.readCsrAddr addr = resetValueAt mvpDefaultTable addr := by
  refine Eq.trans ?_ (State.reset.readCsrAddr_resetBlock addr)
  simp only [State.readCsrAddr, State.readCsr_reset]

/-- Settles O1: no cause is held, and the registers read as after a reset. -/
theorem resetStateReadsTable2 : Obligations.ResetStateReadsTable2 :=
  ⟨State.readCsrAddr_reset, rfl, rfl, rfl, rfl, rfl⟩

/-- Settles O2: the step performs `resetBlock`, which gives every register its reset value and keeps MEM. -/
theorem resetActionRestoresTable2 : Obligations.ResetActionRestoresTable2 := fun _ _ hp =>
  ⟨_, step_of_pending hp, State.readCsrAddr_resetBlock _, rfl, rfl, rfl, rfl, rfl, fun _ => rfl⟩

/-! ### The invariant right after reset (R108, R132) -/

/-- Every entry of the default table is in [1, 255] (R121). -/
theorem mvpDefaultTable_positive : mvpPositive mvpDefaultTable := by decide

/-- Settles O3: the memories are empty, the MVP file is the default table, and the decoder is not ready. -/
theorem resetStateMeetsInvariant : Obligations.ResetStateMeetsInvariant :=
  ⟨reset_memories_wf.1, reset_memories_wf.2, mvpDefaultTable_positive, mvpDefaultTable_positive, fun hr => nomatch hr⟩

end Sys2Proof.Machine
end
